-- ==== Sys2Proof/Word.lean ====
section
/-! DEFINITION. The words, names and small records the model is written in: bytes, binary64 and binary32 patterns,
times, status codes, byte classes, message kinds, satellite systems and code labels. -/

namespace Sys2Proof

/-- An unsigned 8-bit value (R9); bit 0 is the least significant (D39). -/
abbrev Byte := BitVec 8

/-- A binary64 pattern: bit 63 sign, bits 62:52 biased exponent, bits 51:0 fraction (R85). -/
abbrev F64 := BitVec 64

/-- A binary32 pattern (R48, R263). -/
abbrev F32 := BitVec 32

/-- Exact rational seconds since the GPS time origin (D17). -/
abbrev Time := Rat

/-- The result type of `SnrConv`, which R48 and R264 leave OPEN; its value 0 is the zero slot's (log 6). -/
abbrev Snr := Nat

/-- What a binary64 pattern stands for (R85): a NaN, a signed infinity, or a sign and an exact magnitude.
`fin true 0` is −0.0. The magnitude is nonnegative. -/
inductive Fp where
  | nan
  | inf (neg : Bool)
  | fin (neg : Bool) (mag : Rat)
deriving DecidableEq, Repr, Inhabited

/-- The synchronizer's three phases (R42). -/
inductive Phase where
  | idle | header | accumulating
deriving DecidableEq, Repr, Inhabited

/-- The three classes of an input byte (R100). -/
inductive ByteClass where
  | sync | endMark | other
deriving DecidableEq, Repr, Inhabited

/-- What the dispatcher's test of the type byte selects (R104, R105, R200). -/
inductive FrameKind where
  | raw | eph | bit | iono | utc | pvt | alm | unrecognised
deriving DecidableEq, Repr, Inhabited

/-- What the inner system byte of a `TYPE_EPH` frame says (R213, R214). -/
inductive EphSystem where
  | gps | glonass
deriving DecidableEq, Repr, Inhabited

/-- The satellite systems of `SIGNAL_TABLE` (R109): three by name, "or another the parameter names". -/
inductive Sys where
  | gps | glonass | sbas
  | other (n : Nat)
deriving DecidableEq, Repr, Inhabited

/-- The two classes of ranging code (R14, R110). The zero slot's `NONE` has no class: it is `Option.none` there. -/
inductive CodeClass where
  | civil | precise
deriving DecidableEq, Repr, Inhabited

/-- A code label of `SIGNAL_TABLE` (R109); `l1ca` is "L1 C/A", further labels are the parameter's. -/
inductive CodeName where
  | l1ca | l1p
  | other (n : Nat)
deriving DecidableEq, Repr, Inhabited

/-- A code label together with the class `SIGNAL_TABLE` gives it (R109, R110; log 26). -/
structure CodeLabel where
  name : CodeName
  cls  : CodeClass
deriving DecidableEq, Repr, Inhabited

/-- The statuses of R300. "No other status value exists." -/
inductive Status where
  | endOfInput | error | noMessage | observation | ephemeris | sbas | pvt | almanac | ionUtc
deriving DecidableEq, Repr, Inhabited

/-- The signed integer a status is returned as (R300). -/
def Status.code : Status → Int
  | .endOfInput  => -2
  | .error       => -1
  | .noMessage   => 0
  | .observation => 1
  | .ephemeris   => 2
  | .sbas        => 3
  | .pvt         => 4
  | .almanac     => 6
  | .ionUtc      => 9

/-- Why the decoder rejects what it is given, by name. -/
inductive DecodeError where
  /-- there is no byte to decode -/
  | noByte
  /-- the parameter set breaks R7 -/
  | badParameters
deriving DecidableEq, Repr

end Sys2Proof
end

