-- ==== Sys2Proof/Config.lean ====
section
/-! DEFINITION. What an implementation fixes: the constants the source states (R6), the record of parameters the model
takes as an argument (R6, R8; log 1), the attached decoders' data (R51, R212), and the free values: opaque constants
of which no proof can use a value. -/

namespace Sys2Proof

/-! ### Constants R6 marks "source" or "derived" -/

/-- `RAW_HDR_LEN` (R6, R106). -/
def Config.rawHdrLen : Nat := 31
/-- `RAW_REC_LEN` (R6, R106). -/
def Config.rawRecLen : Nat := 30
/-- The buffer index of record 0: the header without its two terminator bytes (R106). -/
def Config.rawRecBase : Nat := 29
/-- `WEEK_CEILING` (R6, R244, D47). -/
def Config.weekCeiling : Nat := 4096
/-- `NSLOT` (R6). -/
def Config.nslot : Nat := 3
/-- Seconds in a GPS week (D17). -/
def Config.weekSeconds : Nat := 604800

/-! ### Parameter records -/

/-- `RAW_LAYOUT`: where the raw-observation fields the block reads lie (R107, R108). Header fields are buffer indices,
record fields are offsets in the record. The GLONASS-UTC offset, the correction byte and the reserved byte have no
effect (R114) and no entry. -/
structure RawLayout where
  tow    : Nat
  week   : Nat
  gpsutc : Nat
  sig    : Nat
  prn    : Nat
  chan   : Nat
  snr    : Nat
  phase  : Nat
  range  : Nat
  dopp   : Nat
  flag   : Nat
deriving DecidableEq, Repr, Inhabited

/-- One row of `SIGNAL_TABLE` (R109). A slot is in 0..2 by its type (R7). -/
structure SignalRow where
  sig  : Byte
  sys  : Sys
  slot : Fin 3
  code : CodeLabel
deriving DecidableEq, Repr, Inhabited

/-- A run of PRNs `SatNo` resolves to consecutive ids: `first..last` of `sys` go to `sat`, `sat + 1`, ...; a PRN is an
exact integer (R112). -/
structure SatRange where
  sys   : Sys
  first : Int
  last  : Int
  sat   : Nat
deriving DecidableEq, Repr, Inhabited

/-- One row of `CarrierFreq` (R6, R261, D30): `base + chan·perChan` Hz. -/
structure CarrierRow where
  sys     : Sys
  slot    : Fin 3
  base    : Rat
  perChan : Rat
deriving DecidableEq, Repr, Inhabited

/-- Where the inner system byte of a `TYPE_EPH` frame lies and which values say GPS and GLONASS (R213; not in the
source, so a host may leave it open; log 15). -/
structure EphInner where
  offset  : Nat
  gps     : Byte
  glonass : Byte
deriving DecidableEq, Repr, Inhabited

/-! ### The attached decoders' data (R51, R212; log 13) -/

/-- Navigation data the block never interprets: a list of 64-bit words. -/
abbrev NavData := List (BitVec 64)

/-- The five booleans of the PVT status byte (R218). -/
structure PvtFlags where
  prevFixUsed  : Bool
  twoD         : Bool
  diffUsed     : Bool
  raim         : Bool
  differential : Bool
deriving DecidableEq, Repr, Inhabited

/-- The PVT record (R51): fix epoch (R212), status booleans (R218), and the words whose layout is outside the block. -/
structure PvtRecord where
  fixEpoch : Time
  flags    : PvtFlags
  rest     : NavData
deriving DecidableEq, Repr, Inhabited

/-- `aux`: the state of the six attached decoders (R51). -/
structure Aux where
  gpsEph : List (Nat × NavData)
  gloEph : List (Nat × NavData)
  alm    : List (Nat × NavData)
  ion    : Vector F64 8
  utc    : Vector F64 4
  leap   : Int
  pvt    : PvtRecord
  sbas   : NavData
deriving DecidableEq, Repr, Inhabited

/-- Of an attached decoder for whose layout the source gives no length check (R216–R218): the number of frame bytes its
layout takes, where the host's decoder model reads past the end of a shorter frame (C10, R315); `none` where what a short
frame writes is a draw (R212). DESIGN CHOICE, safe, log 30. -/
structure AttachedReach where
  iono : Option Nat
  utc  : Option Nat
  pvt  : Option Nat
deriving DecidableEq, Repr, Inhabited

/-- The layout that reads past a shorter frame of a kind; the other kinds have none (log 30). -/
def AttachedReach.layout (r : AttachedReach) : FrameKind → Option Nat
  | .iono => r.iono
  | .utc => r.utc
  | .pvt => r.pvt
  | .raw => none
  | .eph => none
  | .bit => none
  | .alm => none
  | .unrecognised => none

/-- The parameters of R6 and the collaborators of R8. `none` or a missing table row leaves a parameter that has no
default open: its value is then one of the free values below. -/
structure Params where
  /-- `SYNC` (D1) -/
  sync : Byte
  /-- `END` (D2) -/
  endMark : Byte
  /-- `MAX_FRAME` (D3) -/
  maxFrame : Nat
  /-- `SYNC_SEARCH_LIMIT` (D10) -/
  syncSearchLimit : Nat
  /-- `EOF_DISCARDS_PARTIAL` (D9) -/
  eofDiscardsPartial : Bool
  /-- `TYPE_RAW` (D11) -/
  typeRaw : Byte
  /-- `TYPE_EPH` (D11) -/
  typeEph : Byte
  /-- `TYPE_BIT` (D11) -/
  typeBit : Byte
  /-- `TYPE_IONO` (D11) -/
  typeIono : Byte
  /-- `TYPE_UTC` (D11) -/
  typeUtc : Byte
  /-- `TYPE_PVT` (D11) -/
  typePvt : Byte
  /-- `TYPE_ALM` (D11: OPEN, no default) -/
  typeAlm : Byte
  /-- `RAW_LAYOUT` (D12) -/
  layout : RawLayout
  /-- `SIGNAL_TABLE` (D23): the first row with a code counts, a code without a row is `UNDEF` -/
  signalTable : List SignalRow
  /-- `SBAS_PRN_BIAS` (D24): any integer, since R6 and R112 put no bound on it -/
  sbasPrnBias : Int
  /-- `MAX_OBS_SATS` (D26) -/
  maxObsSats : Nat
  /-- `NSAT` (D42: OPEN) -/
  nsat : Nat
  /-- `SatNo` (D42: OPEN), where the host fixes it -/
  satTable : Option (List SatRange)
  /-- `SnrConv` (D29: OPEN): its values on the bytes 0, 1, …, as far as the host fixes them -/
  snrTable : List Snr
  /-- `CarrierFreq` (D30): the rows that have a value -/
  carrierTable : List CarrierRow
  /-- `WEEK_ROLL` (D16); a cycle of weeks, taken as a natural number (DESIGN CHOICE, safe, log 31) -/
  weekRoll : Nat
  /-- the `m` of `AdjWeek`'s law, where the host fixes it (D16: "A host that knows its reference time may fix `m`") -/
  weekCycle : Option Nat
  /-- the inner system byte of `TYPE_EPH` (R213), where the host fixes it -/
  ephInner : Option EphInner
  /-- the layouts of the attached decoders that read past a short frame (R87, R315, C10; log 30) -/
  attachedReach : AttachedReach
  /-- `ALM_GLO_ENABLED` (R219) -/
  almGloEnabled : Bool
  /-- `AuxInit` (R340) -/
  auxInit : Aux
deriving DecidableEq, Repr, Inhabited

/-! ### Free values -/

/-- What an attached decoder reads, and nothing else (R212). The frame is given as its (index, byte) pairs. -/
structure AttachedView where
  frame     : List (Nat × Byte)
  len       : Nat
  lastEpoch : Option Time
  acceptAll : Bool
  aux       : Aux
deriving DecidableEq, Repr, Inhabited

/-- One outcome of an attached decoder's relation (R212): which of its own conditions the frame meets, which of several
allowed statuses it returns, and the values it would write. -/
structure AttachedAnswer where
  /-- the frame meets a hard-error condition (R213–R215), or has a PVT week out of range (R218) -/
  bad : Bool
  /-- the issue of data is unchanged and gates the replacement (R213, R214) -/
  unchanged : Bool
  /-- where two statuses are allowed, one of them −1: `true` takes −1 (R213–R215, R218, A22) -/
  pickError : Bool
  /-- an SBAS sub-block was forwarded and its decoder reported success (R215) -/
  sbasDecoded : Bool
  /-- a PVT week out of range ended the decoder before it read past a short frame (R308 gives no order; log 30) -/
  weekFirst : Bool
  /-- an almanac frame shorter than the minimum (R219) -/
  short : Bool
  /-- an almanac frame of the GLONASS branch (R219) -/
  glonassAlm : Bool
  /-- the satellite or PRN an ephemeris or almanac is for -/
  key : Nat
  /-- navigation data written -/
  data : NavData
  /-- ionosphere vector written (R216) -/
  ion : Vector F64 8
  /-- UTC terms written (R217) -/
  utc : Vector F64 4
  /-- leap seconds written (R217) -/
  leap : Int
  /-- PVT fix epoch written (R212) -/
  fixEpoch : Time
  /-- PVT status byte (R218) -/
  pvtStatus : Byte
deriving DecidableEq, Repr, Inhabited

/-- FREE: the answer of the attached decoder of kind `k` at the draw numbered `n` (R212, A6; log 12). -/
opaque Config.attached (k : FrameKind) (n : Nat) (v : AttachedView) : AttachedAnswer

/-- FREE: the `m` of `AdjWeek`'s law for the draw numbered `n` (R245, A5; log 8). -/
opaque Config.weekDraw (n : Nat) (weekRaw : Nat) : Nat

/-- FREE: `SatNo` where the host fixes no table (R8, A8; log 5); `none` is `FAIL`. -/
opaque Config.satNo (sys : Sys) (prn : Int) : Option Nat

/-- FREE: `SnrConv` on a byte the host's table does not fix (R264, A9; log 6). -/
opaque Config.snrConv (b : Byte) : Snr

/-- FREE: `CarrierFreq` where it has no value (R261, A10; log 7). -/
opaque Config.carrierFreq (sys : Sys) (slot : Fin 3) (chan : Int) : F64

/-- FREE: what the inner system byte of an ephemeris frame says where the host does not fix it (R213; log 15). -/
opaque Config.ephSystem (frame : List (Nat × Byte)) : EphSystem

/-- FREE: sign and payload of a NaN written as binary64, by the raw field it comes from (log 17). -/
opaque Config.nanBits64 (raw : F64) : BitVec 52

/-- FREE: sign and payload of a NaN written as binary32, by the raw field it comes from (log 17). -/
opaque Config.nanBits32 (raw : F64) : BitVec 23

end Sys2Proof
end

