-- ==== Sys2Proof/Syntax.lean ====
section
/-! DEFINITION. The rows of spec/opcode_table.json, one constructor a row: the four operations of the host (R5), the
transitions a byte selects (R142–R151) and the decoders a completed frame selects (R200). -/

namespace Sys2Proof

/-- One constructor per row of the opcode table. A byte-class row stands for the transition of one `BYTE_IN` whose
phase, class and toggle select it; a frame-type row for the dispatch of a completed frame whose type byte selects it. -/
inductive Instr where
  /-- `BYTE_IN(b)` (R140, R141) -/
  | byteIn (b : Byte)
  /-- `FILE_STEP(src)`: `src` is the finite list of bytes before `EOF` (R180, R181) -/
  | fileStep (src : List Byte)
  /-- `RESET` (R340) -/
  | reset
  /-- `CONFIGURE(accept_all, tadj)` (R58) -/
  | configure (acceptAll : Bool) (tadj : F64)
  /-- `IDLE_SYNC`: Idle, class SYNC (R142) -/
  | idleSync
  /-- `IDLE_OTHER`: Idle, any other byte, `END` included (R143) -/
  | idleOther (b : Byte)
  /-- `HDR_NOISE_SYNC`: Header, class SYNC (R146) -/
  | hdrNoiseSync
  /-- `HDR_NOISE_END`: Header, class END (R146) -/
  | hdrNoiseEnd
  /-- `HDR_TYPE`: Header, class OTHER: the type byte (R144) -/
  | hdrType (b : Byte)
  /-- `ACC_SYNC`: Accumulating, class SYNC (R147, R148) -/
  | accSync
  /-- `ACC_END_TOGGLE1`: Accumulating, class END, toggle 1: the frame is complete (R149, R150) -/
  | accEndToggle1
  /-- `ACC_END_TOGGLE0`: Accumulating, class END, toggle 0: payload (R148) -/
  | accEndToggle0
  /-- `ACC_OTHER`: Accumulating, class OTHER (R148) -/
  | accOther (b : Byte)
  /-- `ACC_OVERFLOW`: Accumulating, the byte that brings `count` to `MAX_FRAME` without completing (R151) -/
  | accOverflow (b : Byte)
  /-- `RAW`: the raw-observation decoder (R241) -/
  | raw
  /-- `EPH_GPS`: attached ephemeris decoder, inner system byte GPS (R213) -/
  | ephGps
  /-- `EPH_GLO`: attached ephemeris decoder, inner system byte GLONASS (R214) -/
  | ephGlo
  /-- `BIT`: attached subframe/SBAS bridge (R215) -/
  | bit
  /-- `IONO`: attached ionosphere decoder (R216) -/
  | iono
  /-- `UTC`: attached UTC decoder (R217) -/
  | utc
  /-- `PVT`: attached PVT decoder (R218) -/
  | pvt
  /-- `ALM`: attached almanac decoder (R219) -/
  | alm
  /-- `UNRECOGNISED`: any other type byte (R202) -/
  | unrecognised
deriving DecidableEq, Repr

end Sys2Proof
end

