-- ==== Sys2Proof/WellFormed.lean ====
section
/-! DEFINITION. Which parameter sets the model takes (R7) and which instructions are well formed. -/

namespace Sys2Proof

/-- The seven type bytes, then `SYNC` and `END`: R7 asks that no two of them are equal. -/
def Params.marks (p : Params) : List Byte :=
  [p.typeRaw, p.typeEph, p.typeBit, p.typeIono, p.typeUtc, p.typePvt, p.typeAlm, p.sync, p.endMark]

/-- No byte occurs twice. -/
def bytesDistinct : List Byte → Bool
  | [] => true
  | b :: bs => !bs.contains b && bytesDistinct bs

/-- `RAW_LAYOUT` places every header field inside buffer bytes 2..28 and every record field inside bytes 0..29 (R7). -/
def RawLayout.ok (l : RawLayout) : Bool :=
  decide (2 ≤ l.tow) && decide (l.tow + 8 ≤ 29) && decide (2 ≤ l.week) && decide (l.week + 2 ≤ 29) &&
  decide (2 ≤ l.gpsutc) && decide (l.gpsutc + 8 ≤ 29) &&
  decide (l.sig + 1 ≤ 30) && decide (l.prn + 1 ≤ 30) && decide (l.chan + 1 ≤ 30) && decide (l.snr + 1 ≤ 30) &&
  decide (l.phase + 8 ≤ 30) && decide (l.range + 8 ≤ 30) && decide (l.dopp + 8 ≤ 30) && decide (l.flag + 1 ≤ 30)

/-- The constraints of R6 and R7. That a slot is in 0..2 is in the type of `SignalRow.slot`. -/
def Params.ok (p : Params) : Bool :=
  bytesDistinct p.marks && decide (31 ≤ p.maxFrame) && decide (1 ≤ p.syncSearchLimit) &&
  decide (1 ≤ p.maxObsSats) && p.layout.ok

/-- An instruction's operands fit its row: a byte given to a row that names a class is of that class (R100, R143, R144,
R148), and `ACC_OVERFLOW`'s byte is any byte. -/
def Instr.wellFormed (p : Params) : Instr → Bool
  | .byteIn _ => true
  | .fileStep _ => true
  | .reset => true
  | .configure _ _ => true
  | .idleSync => true
  | .idleOther b => decide (b ≠ p.sync)
  | .hdrNoiseSync => true
  | .hdrNoiseEnd => true
  | .hdrType b => decide (b ≠ p.sync) && decide (b ≠ p.endMark)
  | .accSync => true
  | .accEndToggle1 => true
  | .accEndToggle0 => true
  | .accOther b => decide (b ≠ p.sync) && decide (b ≠ p.endMark)
  | .accOverflow _ => true
  | .raw => true
  | .ephGps => true
  | .ephGlo => true
  | .bit => true
  | .iono => true
  | .utc => true
  | .pvt => true
  | .alm => true
  | .unrecognised => true

end Sys2Proof
end

