-- ==== Sys2Proof/Decode.lean ====
section
/-! DEFINITION. Decoding at the levels of 30_encoding.md: a byte and the synchronizer's phase, toggle and count select a
transition row (R100, R141); a type byte selects a frame row (R104, R200); a signal code selects a `SIGNAL_TABLE` row
(R109). Then the encoder: the byte of a row, and the wire form of a frame (R101, R116). -/

namespace Sys2Proof

/-! ### Level 1: byte classes -/

/-- The class of an input byte (R100). -/
def byteClass (p : Params) (b : Byte) : ByteClass :=
  if b = p.sync then .sync else if b = p.endMark then .endMark else .other

/-- The phase is a function of `count` (R42). -/
def phaseOf (count : Nat) : Phase :=
  if count = 0 then .idle else if count = 1 then .header else .accumulating

/-- What selects a transition besides the byte: the parameters, `count` and `toggle` (R140). -/
structure SyncCtx where
  par    : Params
  count  : Nat
  toggle : Bool
deriving DecidableEq, Repr

/-- `toggle` after the flip of R147. -/
def SyncCtx.toggleAfter (c : SyncCtx) (b : Byte) : Bool :=
  if b = c.par.sync then !c.toggle else c.toggle

/-- R148: the byte is stored if it is not `SYNC`, or if the flip made `toggle` odd. -/
def SyncCtx.stores (c : SyncCtx) (b : Byte) : Bool :=
  decide (b ≠ c.par.sync) || c.toggleAfter b

/-- `count` after the store of R148. -/
def SyncCtx.countAfter (c : SyncCtx) (b : Byte) : Nat :=
  if c.stores b then c.count + 1 else c.count

/-- The row of the opcode table a byte selects (R140, R141, R152). -/
def decodeByte (c : SyncCtx) (b : Byte) : Instr :=
  match phaseOf c.count, byteClass c.par b with
  | .idle, .sync => .idleSync
  | .idle, .endMark => .idleOther b
  | .idle, .other => .idleOther b
  | .header, .sync => .hdrNoiseSync
  | .header, .endMark => .hdrNoiseEnd
  | .header, .other => .hdrType b
  | .accumulating, .endMark =>
    if c.toggle then .accEndToggle1
    else if c.countAfter b = c.par.maxFrame then .accOverflow b else .accEndToggle0
  | .accumulating, .sync => if c.countAfter b = c.par.maxFrame then .accOverflow b else .accSync
  | .accumulating, .other => if c.countAfter b = c.par.maxFrame then .accOverflow b else .accOther b

/-- The condition of a transition row as the opcode table and its rule give it: phase, class, toggle, and for the rows
of Accumulating whether the byte brings `count` to `MAX_FRAME`. It is false of rows no byte selects. -/
def rowEnabled (c : SyncCtx) : Instr → Bool
  | .byteIn _ => false
  | .fileStep _ => false
  | .reset => false
  | .configure _ _ => false
  | .idleSync => decide (phaseOf c.count = .idle)
  | .idleOther b => decide (phaseOf c.count = .idle) && decide (b ≠ c.par.sync)
  | .hdrNoiseSync => decide (phaseOf c.count = .header)
  | .hdrNoiseEnd => decide (phaseOf c.count = .header)
  | .hdrType b => decide (phaseOf c.count = .header) && decide (b ≠ c.par.sync) && decide (b ≠ c.par.endMark)
  | .accSync => decide (phaseOf c.count = .accumulating) && decide (c.countAfter c.par.sync ≠ c.par.maxFrame)
  | .accEndToggle1 => decide (phaseOf c.count = .accumulating) && c.toggle
  | .accEndToggle0 =>
    decide (phaseOf c.count = .accumulating) && !c.toggle && decide (c.count + 1 ≠ c.par.maxFrame)
  | .accOther b =>
    decide (phaseOf c.count = .accumulating) && decide (b ≠ c.par.sync) && decide (b ≠ c.par.endMark) &&
      decide (c.count + 1 ≠ c.par.maxFrame)
  | .accOverflow b =>
    decide (phaseOf c.count = .accumulating) && !(decide (b = c.par.endMark) && c.toggle) &&
      decide (c.countAfter b = c.par.maxFrame)
  | .raw => false
  | .ephGps => false
  | .ephGlo => false
  | .bit => false
  | .iono => false
  | .utc => false
  | .pvt => false
  | .alm => false
  | .unrecognised => false

/-- Decode the next byte of a stream: the row it selects, and the bytes after it. A parameter set that breaks R7 and an
empty stream are rejected by name. -/
def decode (c : SyncCtx) : List Byte → Except DecodeError (Instr × List Byte)
  | [] => .error .noByte
  | b :: rest => if c.par.ok then .ok (decodeByte c b, rest) else .error .badParameters

/-! ### Level 2: type bytes -/

/-- The tests of R200, in its order; a type byte of no row is unrecognised (R105, R202). -/
def frameKind (p : Params) (t : Byte) : FrameKind :=
  if t = p.typeRaw then .raw
  else if t = p.typeEph then .eph
  else if t = p.typeBit then .bit
  else if t = p.typeIono then .iono
  else if t = p.typeUtc then .utc
  else if t = p.typePvt then .pvt
  else if t = p.typeAlm then .alm
  else .unrecognised

/-- The frame row of a kind; `TYPE_EPH` has two, told apart by the inner system byte (R104, R213, R214). -/
def frameRow (k : FrameKind) (sys : EphSystem) : Instr :=
  match k with
  | .raw => .raw
  | .eph =>
    match sys with
    | .gps => .ephGps
    | .glonass => .ephGlo
  | .bit => .bit
  | .iono => .iono
  | .utc => .utc
  | .pvt => .pvt
  | .alm => .alm
  | .unrecognised => .unrecognised

/-- The type byte of a kind (R104); unrecognised frames have no one type byte. -/
def typeByte (p : Params) : FrameKind → Option Byte
  | .raw => some p.typeRaw
  | .eph => some p.typeEph
  | .bit => some p.typeBit
  | .iono => some p.typeIono
  | .utc => some p.typeUtc
  | .pvt => some p.typePvt
  | .alm => some p.typeAlm
  | .unrecognised => none

/-! ### Level 3: signal codes -/

/-- `SIGNAL_TABLE(sig)`; `none` is `UNDEF` (R109). -/
def signalOf (p : Params) (sig : Byte) : Option SignalRow :=
  p.signalTable.find? (fun r => r.sig = sig)

/-! ### The encoder -/

/-- The bytes a well-formed instruction is on the wire. A transition row is its byte; a host operation is the bytes it
takes in; a frame row's type byte stands in the frame, so it has no bytes of its own. -/
def encode (p : Params) : Instr → List Byte
  | .byteIn b => [b]
  | .fileStep src => src
  | .reset => []
  | .configure _ _ => []
  | .idleSync => [p.sync]
  | .idleOther b => [b]
  | .hdrNoiseSync => [p.sync]
  | .hdrNoiseEnd => [p.endMark]
  | .hdrType b => [b]
  | .accSync => [p.sync]
  | .accEndToggle1 => [p.endMark]
  | .accEndToggle0 => [p.endMark]
  | .accOther b => [b]
  | .accOverflow b => [b]
  | .raw => []
  | .ephGps => []
  | .ephGlo => []
  | .bit => []
  | .iono => []
  | .utc => []
  | .pvt => []
  | .alm => []
  | .unrecognised => []

/-- `Stuff` (R116): every `SYNC` byte of a payload is doubled. -/
def stuff (p : Params) : List Byte → List Byte
  | [] => []
  | b :: bs => if b = p.sync then p.sync :: p.sync :: stuff p bs else b :: stuff p bs

/-- `Frame(T, p)` without its last byte, the `END` (R101, R116). -/
def frameBody (p : Params) (t : Byte) (payload : List Byte) : List Byte :=
  p.sync :: t :: (stuff p payload ++ [p.sync])

/-- `Frame(T, p)` (R101, R116). -/
def frame (p : Params) (t : Byte) (payload : List Byte) : List Byte :=
  frameBody p t payload ++ [p.endMark]

/-- A completed frame as it lies in the buffer (R102, R93). -/
def frameBuffer (p : Params) (t : Byte) (payload : List Byte) : List Byte :=
  p.sync :: t :: (payload ++ [p.sync, p.endMark])

/-! ### The host's question -/

/-- The opcode table gives no row any bits; what the block takes as bits is one byte of its input, the operation
`BYTE_IN` of that byte (R140; log 9). Other widths are no operation. -/
def decodeTableWord (nbits w : Nat) : Option Instr :=
  if nbits = 8 ∧ w < 256 then some (.byteIn (BitVec.ofNat 8 w)) else none

end Sys2Proof
end

