-- ==== Sys2Proof/Machine/Defaults.lean ====
section
/-! DEFINITION. The default parameters of R6 with the partial default tables of R109 and D30; and, for the parameters
that have no default, the values logs 3, 4, 14, 25 and 30 name, or "left open". -/

namespace Sys2Proof.Machine

/-- The default `RAW_LAYOUT` (R107, R108). -/
def defaultLayout : RawLayout where
  tow := 2
  week := 10
  gpsutc := 12
  sig := 0
  prn := 1
  chan := 2
  snr := 3
  phase := 4
  range := 12
  dopp := 20
  flag := 28

/-- The partial default `SIGNAL_TABLE` (R109): slot 0, L1 C/A, civil. -/
def defaultSignals : List SignalRow :=
  [⟨0x01#8, .glonass, 0, ⟨.l1ca, .civil⟩⟩, ⟨0x02#8, .gps, 0, ⟨.l1ca, .civil⟩⟩, ⟨0x04#8, .sbas, 0, ⟨.l1ca, .civil⟩⟩]

/-- The partial default `CarrierFreq` (D30): 1575.42 MHz, and 1602 MHz + 0.5625 MHz·chan for GLONASS. -/
def defaultCarriers : List CarrierRow :=
  [⟨.gps, 0, 1575420000, 0⟩, ⟨.sbas, 0, 1575420000, 0⟩, ⟨.glonass, 0, 1602000000, 562500⟩]

/-- `AuxInit`: OPEN in R56; nothing stored and zeros (DESIGN CHOICE, unsafe, log 14). -/
def emptyAux : Aux where
  gpsEph := []
  gloEph := []
  alm := []
  ion := Vector.replicate 8 0#64
  utc := Vector.replicate 4 0#64
  leap := 0
  pvt := ⟨0, ⟨false, false, false, false, false⟩, []⟩
  sbas := []

/-- The parameters a session starts with: R6's defaults (PRESUMED [gk], unsafe, log 2); `TYPE_ALM` (log 3), `NSAT`
(log 4), `AuxInit` (log 14) and `ALM_GLO_ENABLED` (log 25) are DESIGN CHOICE, unsafe; no attached decoder reads past a
short frame (DESIGN CHOICE, log 30); the rest is left open. -/
def defaultParams : Params where
  sync := 0x10#8
  endMark := 0x03#8
  maxFrame := 4096
  syncSearchLimit := 4096
  eofDiscardsPartial := false
  typeRaw := 0xF5#8
  typeEph := 0xF7#8
  typeBit := 0xE5#8
  typeIono := 0x4A#8
  typeUtc := 0x4B#8
  typePvt := 0x88#8
  typeAlm := 0x40#8
  layout := defaultLayout
  signalTable := defaultSignals
  sbasPrnBias := 120
  maxObsSats := 64
  nsat := 98
  satTable := none
  snrTable := []
  carrierTable := defaultCarriers
  weekRoll := 1024
  weekCycle := none
  ephInner := none
  attachedReach := ⟨none, none, none⟩
  almGloEnabled := false
  auxInit := emptyAux

end Sys2Proof.Machine
end

