-- ==== Sys2Proof/Machine/State.lean ====
section
/-! DEFINITION. The Receiver State of R40 as plain data, with the model's own fields beside it (parameters, draw counter,
the host's pending operations, the last outputs), its value after reset (R56, R340), and why a step can stop. -/

namespace Sys2Proof.Machine

/-- The two model faults of R315. -/
inductive Fault where
  /-- a field read at or beyond `len`, or of an index never written (R82, R87; log 18); raised by `memRead`,
  and by `withReach` for an attached decoder whose layout is longer than its frame (R315; log 30); safe -/
  | unwrittenBufferRead
  /-- a NaN or infinity in the raw-observation epoch arithmetic (R246–R248); raised by `deriveEpoch`; safe -/
  | nonFiniteEpoch
deriving DecidableEq, Repr

/-- Why the model gives no outcome. -/
inductive Refusal where
  /-- the instruction has no meaning yet; raised by a refused arm of `exec`; safe -/
  | notModelled (mnemonic : String)
  /-- a transition or frame row in a state whose phase, byte class, toggle, count or type byte does not select it: no
  step of the block runs that row there (R141, R200; log 11); raised by the rows' guards; safe -/
  | rowNotSelected
  /-- the parameter set breaks R7 (R7, A14; log 20); raised by `step`; safe -/
  | badParameters
deriving DecidableEq, Repr

/-- A slot record (R48). -/
structure Slot where
  /-- pseudorange, metres -/
  P : F64
  /-- carrier phase, cycles -/
  L : F64
  /-- Doppler, Hz -/
  D : F32
  snr : Snr
  lli : Bool
  /-- signal/code type; `none` is `NONE` -/
  code : Option CodeLabel
deriving DecidableEq, Repr

/-- The zero slot a new entry starts with (R48, D44). -/
def Slot.zero : Slot := ⟨0#64, 0#64, 0#32, 0, false, none⟩

/-- An entry of the observation set (R47). -/
structure ObsEntry where
  sat   : Nat
  time  : Time
  slot0 : Slot
  slot1 : Slot
  slot2 : Slot
deriving DecidableEq, Repr

/-- The operations a host may call (R5, R311), with their operands. -/
inductive HostOp where
  | byteIn (b : Byte)
  | fileStep (src : List Byte)
  | reset
  | configure (acceptAll : Bool) (tadj : F64)
deriving DecidableEq, Repr

/-- The instruction a host operation is. -/
def HostOp.toInstr : HostOp → Instr
  | .byteIn b => .byteIn b
  | .fileStep src => .fileStep src
  | .reset => .reset
  | .configure a t => .configure a t

/-- What an operation answers (R54): the status, if it returns one (R300); the diagnostic tag (type, length), if a frame
was dispatched (R203); the unconsumed rest of the byte source, for `FILE_STEP` (R180). Outputs, not state (R53; log 10). -/
structure Output where
  status : Option Status
  tag    : Option (Byte × Nat)
  rest   : Option (List Byte)
deriving DecidableEq, Repr

/-- Nothing answered. -/
def Output.none : Output := ⟨Option.none, Option.none, Option.none⟩

/-- The machine's state: the ten components of R40, then the model's own four fields. -/
structure State where
  /-- bytes stored for the frame now being accumulated (R41) -/
  count : Nat
  /-- `true` is odd (R43) -/
  toggle : Bool
  /-- the accumulation buffer; an index not listed was never written (R44) -/
  buf : List Host.Cell
  /-- length of the last completed frame (R45) -/
  len : Nat
  /-- last accepted epoch (R46) -/
  lastEpoch : Option Time
  /-- current observation set, in order of first appearance (R47) -/
  obs : List ObsEntry
  /-- half-cycle array: `halfc[sat][k]` is the cell `3·sat + k`, and a cell not listed holds 0x00 (R49) -/
  halfc : List Host.Cell
  /-- `opt_accept_all` (R50) -/
  optAcceptAll : Bool
  /-- `opt_tadj`, seconds (R50) -/
  optTadj : F64
  /-- the attached decoders' state (R51) -/
  aux : Aux
  /-- the model's own: the parameters, fixed for the instance (R6, R343; log 1) -/
  par : Params
  /-- the model's own: numbers the free values drawn (logs 8, 12) -/
  draws : Nat
  /-- the model's own: the host's pending operations, oldest first (log 9) -/
  input : List HostOp
  /-- the model's own: what the last operation answered (log 10) -/
  out : Output
deriving DecidableEq, Repr

/-- The machine right after `RESET` (R56, R340), with the default parameters and no operation pending. -/
def State.reset : State where
  count := 0
  toggle := false
  buf := []
  len := 0
  lastEpoch := none
  obs := []
  halfc := []
  optAcceptAll := false
  optTadj := 0#64
  aux := defaultParams.auxInit
  par := defaultParams
  draws := 0
  input := []
  out := Output.none

end Sys2Proof.Machine
end

