-- ==== Sys2Proof/Machine/Ops.lean ====
section
/-! DEFINITION. The named operations over the state: canonical tables of cells, the outputs of an operation and the one
way an operation ends (a status: the block has no trap entry and no trap return, R309, R310), the synchronizer's
registers, and the body of `BYTE_IN` (R141). -/

namespace Sys2Proof.Machine

/-! ### Canonical tables

A table is a list of (key, value) pairs with strictly rising keys that lists no value equal to `dflt`, what an unlisted
key reads as (`none`: an unlisted key holds nothing). -/

/-- The value listed for a key. -/
def tableGet {α : Type} (m : List (Nat × α)) (k : Nat) : Option α :=
  match m with
  | [] => none
  | (a, v) :: rest => if a = k then some v else tableGet rest k

/-- Remove a key. -/
def tableErase {α : Type} (m : List (Nat × α)) (k : Nat) : List (Nat × α) :=
  match m with
  | [] => []
  | (a, v) :: rest => if a = k then rest else (a, v) :: tableErase rest k

/-- Put a value at a key, keeping the keys rising. -/
def tableInsert {α : Type} (m : List (Nat × α)) (k : Nat) (v : α) : List (Nat × α) :=
  match m with
  | [] => [(k, v)]
  | (a, w) :: rest =>
    if k < a then (k, v) :: (a, w) :: rest
    else if a = k then (k, v) :: rest
    else (a, w) :: tableInsert rest k v

/-- Write a value; writing what an unlisted key reads as removes the entry. -/
def tablePut {α : Type} [DecidableEq α] (dflt : Option α) (m : List (Nat × α)) (k : Nat) (v : α) : List (Nat × α) :=
  if dflt = some v then tableErase m k else tableInsert m k v

/-- The canonical form: keys strictly rising, no value equal to the default. -/
def tableWf {α : Type} [DecidableEq α] (dflt : Option α) (m : List (Nat × α)) : Bool :=
  decide ((m.map (·.1)).Pairwise (· < ·)) && m.all (fun c => decide (dflt ≠ some c.2))

/-- `buf` in canonical form: an unlisted index holds no value (R56, R87; log 18). -/
def bufWf (m : List Host.Cell) : Bool := tableWf none m

/-- `halfc` in canonical form: an unlisted cell holds 0x00 (R56; log 24). -/
def halfcWf (m : List Host.Cell) : Bool := tableWf (some 0#8) m

/-! ### The buffer and the half-cycle array -/

/-- `buf[i] <- b` (R10). -/
def bufPut (m : List Host.Cell) (i : Nat) (b : Byte) : List Host.Cell := tablePut none m i b

/-- The cell of `halfc[sat][k]`. -/
def halfcCell (sat : Nat) (k : Fin 3) : Nat := Config.nslot * sat + k.val

/-- `halfc[sat][k]` (R49). -/
def halfcGet (m : List Host.Cell) (sat : Nat) (k : Fin 3) : Byte := (tableGet m (halfcCell sat k)).getD 0#8

/-- `halfc[sat][k] <- b` (R266). -/
def halfcPut (m : List Host.Cell) (sat : Nat) (k : Fin 3) (b : Byte) : List Host.Cell :=
  tablePut (some 0#8) m (halfcCell sat k) b

/-! ### Outputs -/

/-- An operation starts with nothing answered. -/
def State.start (s : State) : State := { s with out := Output.none }

/-- `return st` (R10, R309): the one way an operation that has a status ends. -/
def State.ret (st : Status) (s : State) : State := { s with out := { s.out with status := some st } }

/-- `DiagTag(type, len)` (R203). -/
def State.emitTag (t : Byte) (s : State) : State := { s with out := ⟨none, some (t, s.len), none⟩ }

/-- The unconsumed rest of `FILE_STEP`'s byte source (R180). -/
def State.giveRest (rest : List Byte) (s : State) : State := { s with out := { s.out with rest := some rest } }

/-! ### The synchronizer's registers -/

/-- What selects the transition of the next byte. -/
def State.ctx (s : State) : SyncCtx := ⟨s.par, s.count, s.toggle⟩

/-- A `SYNC` in Idle starts a frame (R142). -/
def State.startFrame (s : State) : State :=
  { s with buf := bufPut s.buf 0 s.par.sync, count := 1, toggle := false }

/-- `buf[count] <- b; count <- count + 1` (R144, R148). -/
def State.storeByte (b : Byte) (s : State) : State :=
  { s with buf := bufPut s.buf s.count b, count := s.count + 1 }

/-- `toggle <- 1 - toggle` (R147). -/
def State.flipToggle (s : State) : State := { s with toggle := !s.toggle }

/-- `count <- 0; toggle <- 0` (R146, R151, R182). -/
def State.toIdle (s : State) : State := { s with count := 0, toggle := false }

/-- `len <- count; count <- 0` (R149). -/
def State.completeFrame (s : State) : State := { s with len := s.count, count := 0 }

/-! ### The body of `BYTE_IN` -/

/-- Which `return` of R141 a byte took (R181), and the state it left; `done` is before the dispatch of R150. -/
inductive SyncResult where
  | more (s : State)
  | done (s : State)
  | overflow (s : State)
deriving DecidableEq, Repr

/-- Lines R147 and R148 of R141: the flip, then the store. -/
def flipAndStore (b : Byte) (s : State) : State :=
  let s1 := if b = s.par.sync then s.flipToggle else s
  if b ≠ s1.par.sync ∨ s1.toggle = true then s1.storeByte b else s1

/-- The body of R141 up to the call of the dispatcher, line for line. -/
def syncStep (b : Byte) (s : State) : SyncResult :=
  if s.count = 0 then
    if b = s.par.sync then .more s.startFrame else .more s
  else if s.count = 1 then
    if b = s.par.sync ∨ b = s.par.endMark then .more s.toIdle else .more (s.storeByte b)
  else
    let s1 := flipAndStore b s
    if s1.toggle = true ∧ b = s1.par.endMark then .done s1.completeFrame
    else if s1.count = s1.par.maxFrame then .overflow s1.toIdle
    else .more s1

/-! ### Outcomes -/

/-- An outcome of this machine. -/
abbrev Result := Host.Outcome State Fault Refusal

/-- Apply an update to the next state; a fault or a refusal stays as it is. -/
def mapNext (f : State → State) : Result → Result
  | .next s => .next (f s)
  | .fault r => .fault r
  | .refused r => .refused r

end Sys2Proof.Machine
end

