-- ==== Sys2Proof/Machine/Control.lean ====
section
/-! DEFINITION. The two operations without a status: `RESET` (R340) and `CONFIGURE` (R58). -/

namespace Sys2Proof.Machine

/-- RESET (R340): every component of R40 to its value of R56; the parameters stay as the host fixed them (R343). -/
def execReset (s : State) : Result :=
  .next { s.start with
    count := 0, toggle := false, len := 0, buf := [], lastEpoch := none, obs := [], halfc := [],
    optAcceptAll := false, optTadj := 0#64, aux := s.par.auxInit }

/-- CONFIGURE (R58): both registers take any value. -/
def execConfigure (acceptAll : Bool) (tadj : F64) (s : State) : Result :=
  .next { s.start with optAcceptAll := acceptAll, optTadj := tadj }

end Sys2Proof.Machine
end

