-- ==== Sys2Proof/Machine/Float.lean ====
section
/-! DEFINITION. Binary64 arithmetic with round-to-nearest-ties-to-even, and rounding to binary32 (R12): every operation
computes its exact rational result and narrows it once at the end. -/

namespace Sys2Proof.Machine

/-- `2^e` for an integer `e`. -/
def pow2 (e : Int) : Rat :=
  if 0 ≤ e then ((2 ^ e.toNat : Nat) : Rat) else 1 / ((2 ^ (-e).toNat : Nat) : Rat)

/-- The exponent `e` with `2^e ≤ m < 2^(e+1)`, for `m > 0`. -/
def floorLog2 (m : Rat) : Int :=
  let e : Int := (Nat.log2 m.num.toNat : Int) - (Nat.log2 m.den : Int)
  if pow2 e ≤ m then e else e - 1

/-- The nearest natural number, a tie to the even one. -/
def roundHalfEven (r : Rat) : Nat :=
  let n := r.floor.toNat
  let d := r - (n : Rat)
  if d < 1 / 2 then n else if 1 / 2 < d then n + 1 else if n % 2 = 0 then n else n + 1

/-- A binary floating-point format: the width of its fraction, and the exponent of its least quantum. -/
structure FpFormat where
  fracBits : Nat
  qmin     : Int
  expTop   : Nat
deriving DecidableEq, Repr

/-- binary64: 52 fraction bits, least quantum `2^−1074`, exponent field 2047 for infinities. -/
def binary64 : FpFormat := ⟨52, -1074, 2047⟩

/-- binary32: 23 fraction bits, least quantum `2^−149`, exponent field 255 for infinities. -/
def binary32 : FpFormat := ⟨23, -149, 255⟩

/-- The pattern, without its sign, of an infinity. -/
def FpFormat.infPattern (f : FpFormat) : Nat := f.expTop * 2 ^ f.fracBits

/-- The pattern, without its sign, of the magnitude `m` rounded to nearest, ties to even; an overflow is the infinity's
pattern. The carry of a rounding into the next binade is the carry of the addition. -/
def FpFormat.round (f : FpFormat) (m : Rat) : Nat :=
  if m = 0 then 0
  else
    let q := max (floorLog2 m - (f.fracBits : Int)) f.qmin
    min ((q - f.qmin).toNat * 2 ^ f.fracBits + roundHalfEven (m / pow2 q)) f.infPattern

/-- The value of a pattern without its sign, and the sign (R85). -/
def FpFormat.value (f : FpFormat) (neg : Bool) (pat : Nat) : Fp :=
  let e := pat / 2 ^ f.fracBits
  let frac := pat % 2 ^ f.fracBits
  if e = f.expTop then (if frac = 0 then .inf neg else .nan)
  else if e = 0 then .fin neg ((frac : Rat) * pow2 f.qmin)
  else .fin neg (((2 ^ f.fracBits + frac : Nat) : Rat) * pow2 (f.qmin + (e : Int) - 1))

/-- What a binary64 pattern stands for (R85). -/
def fpOfBits (w : F64) : Fp :=
  binary64.value (w.getLsbD 63) (w.toNat % 2 ^ 63)

/-- The signed value of a sign and a magnitude. -/
def signed (neg : Bool) (m : Rat) : Rat := if neg then -m else m

/-- An exact rational rounded to binary64; zero gives +0.0. -/
def fpOfRat (v : Rat) : Fp :=
  binary64.value (decide (v < 0)) (binary64.round (if v < 0 then -v else v))

/-- Binary64 negation. -/
def fpNeg : Fp → Fp
  | .nan => .nan
  | .inf n => .inf (!n)
  | .fin n m => .fin (!n) m

/-- Binary64 addition (R12): an exact zero sum is +0.0 unless both operands are negative. -/
def fpAdd : Fp → Fp → Fp
  | .nan, _ => .nan
  | .inf _, .nan => .nan
  | .inf a, .inf b => if a = b then .inf a else .nan
  | .inf a, .fin _ _ => .inf a
  | .fin _ _, .nan => .nan
  | .fin _ _, .inf b => .inf b
  | .fin a m, .fin b n =>
    if signed a m + signed b n = 0 then .fin (a && b) 0 else fpOfRat (signed a m + signed b n)

/-- Binary64 subtraction. -/
def fpSub (x y : Fp) : Fp := fpAdd x (fpNeg y)

/-- Binary64 multiplication: the sign is the exclusive or; infinity times zero is a NaN. -/
def fpMul : Fp → Fp → Fp
  | .nan, _ => .nan
  | .inf _, .nan => .nan
  | .inf a, .inf b => .inf (a ^^ b)
  | .inf a, .fin b n => if n = 0 then .nan else .inf (a ^^ b)
  | .fin _ _, .nan => .nan
  | .fin a m, .inf b => if m = 0 then .nan else .inf (a ^^ b)
  | .fin a m, .fin b n => binary64.value (a ^^ b) (binary64.round (m * n))

/-- Binary64 division: 0/0 and infinity/infinity are NaNs, a nonzero number over zero is an infinity. -/
def fpDiv : Fp → Fp → Fp
  | .nan, _ => .nan
  | .inf _, .nan => .nan
  | .inf _, .inf _ => .nan
  | .inf a, .fin b _ => .inf (a ^^ b)
  | .fin _ _, .nan => .nan
  | .fin a _, .inf b => .fin (a ^^ b) 0
  | .fin a m, .fin b n =>
    if n = 0 then (if m = 0 then .nan else .inf (a ^^ b))
    else binary64.value (a ^^ b) (binary64.round (m / n))

/-- The binary64 floor, which is exact (R12); the sign of a zero is kept. -/
def fpFloor : Fp → Fp
  | .nan => .nan
  | .inf a => .inf a
  | .fin a m =>
    let v := ((signed a m).floor : Rat)
    .fin a (if v < 0 then -v else v)

/-- Neither a NaN nor an infinity. -/
def fpFinite : Fp → Bool
  | .nan => false
  | .inf _ => false
  | .fin _ _ => true

/-- The exact value of a finite number (D17); a NaN or an infinity has none, and none is ever asked for. -/
def fpRat : Fp → Rat
  | .nan => 0
  | .inf _ => 0
  | .fin a m => signed a m

/-- `|x| ≤ bound`, false of a NaN and of an infinity (R12, R257). -/
def fpAbsLe (x : Fp) (bound : Rat) : Bool :=
  match x with
  | .nan => false
  | .inf _ => false
  | .fin _ m => decide (m ≤ bound)

/-- Finite and greater than zero (R50, R248). -/
def fpPositive : Fp → Bool
  | .nan => false
  | .inf _ => false
  | .fin a m => !a && decide (0 < m)

/-- The sign bit's weight in a pattern of `w` bits. -/
def signBit (w : Nat) (neg : Bool) : BitVec w := if neg then BitVec.ofNat w (2 ^ (w - 1)) else 0

/-- The pattern a binary64 result is stored as. A NaN's sign and payload are free (R12; log 17). -/
def fpToBits64 (raw : F64) : Fp → F64
  | .nan =>
    let n := (Config.nanBits64 raw).toNat
    BitVec.ofNat 64 (n / 2 ^ 51 * 2 ^ 63 + (2047 * 2 ^ 52 + 2 ^ 51 + n % 2 ^ 51))
  | .inf a => signBit 64 a ||| BitVec.ofNat 64 binary64.infPattern
  | .fin a m => signBit 64 a ||| BitVec.ofNat 64 (binary64.round m)

/-- `f32(x)` as a pattern (R12, R263). A NaN's sign and payload are free (log 17). -/
def fpToBits32 (raw : F64) : Fp → F32
  | .nan =>
    let n := (Config.nanBits32 raw).toNat
    BitVec.ofNat 32 (n / 2 ^ 22 * 2 ^ 31 + (255 * 2 ^ 23 + 2 ^ 22 + n % 2 ^ 22))
  | .inf a => signBit 32 a ||| BitVec.ofNat 32 binary32.infPattern
  | .fin a m => signBit 32 a ||| BitVec.ofNat 32 (binary32.round m)

/-- The constants written with a decimal point (R12): a decimal literal is its nearest binary64. -/
def fpTen : Fp := fpOfRat 10
/-- 0.5 -/
def fpHalf : Fp := fpOfRat (1 / 2)
/-- 0.001 -/
def fpMilli : Fp := fpOfRat (1 / 1000)
/-- `CLIGHT` = 299792458.0 m/s (R6, D29; PRESUMED [gk], log 2) -/
def fpLight : Fp := fpOfRat 299792458

end Sys2Proof.Machine
end

