-- ==== Sys2Proof/Machine/Operands.lean ====
section
/-! DEFINITION. Operand forms: the field reads over the buffer (R82–R85), the raw-observation header and record fields
(R107, R108, R113), and the parameter lookups an operand goes through (R8, R109, R112, R261, R264). -/

namespace Sys2Proof.Machine

/-! ### Field reads -/

/-- `n` bytes of the buffer from index `a`, if all of them were written. -/
def bytesAt (m : List Host.Cell) (a : Nat) : Nat → Option (List Byte)
  | 0 => some []
  | n + 1 =>
    match tableGet m a, bytesAt m (a + 1) n with
    | some b, some bs => some (b :: bs)
    | some _, none => none
    | none, _ => none

/-- Bytes assembled little-endian: the first is the least significant (R81, R82). -/
def leNat : List Byte → Nat
  | [] => 0
  | b :: bs => b.toNat + 256 * leNat bs

/-- `MemRead(a, n)` (R82): faults at or beyond `len` (R87), and on an index never written (log 18). -/
def memRead (s : State) (a n : Nat) : Except Fault (BitVec (8 * n)) :=
  if s.len < a + n then .error .unwrittenBufferRead
  else
    match bytesAt s.buf a n with
    | some bs => .ok (BitVec.ofNat (8 * n) (leNat bs))
    | none => .error .unwrittenBufferRead

/-- `U1(a)` (R83). -/
def readU1 (s : State) (a : Nat) : Except Fault Byte := memRead s a 1

/-- `U2(a)` (R84). -/
def readU2 (s : State) (a : Nat) : Except Fault (BitVec 16) := memRead s a 2

/-- The pattern `R8(a)` reads (R85); `fpOfBits` is its value. -/
def readR8 (s : State) (a : Nat) : Except Fault F64 := memRead s a 8

/-- `I1(a)`: the byte as a signed number (R83). -/
def readI1 (s : State) (a : Nat) : Except Fault Int :=
  match readU1 s a with
  | .ok b => .ok b.toInt
  | .error f => .error f

/-! ### Raw-observation fields -/

/-- The header fields the decoder uses (R107, R243). -/
structure RawHeader where
  tow    : F64
  week   : BitVec 16
  gpsutc : F64
deriving DecidableEq, Repr

/-- A record's fields (R108). -/
structure RawRecord where
  sig   : Byte
  prn   : Byte
  chan  : Int
  snr   : Byte
  phase : F64
  range : F64
  dopp  : F64
  flag  : Byte
deriving DecidableEq, Repr

/-- The header fields (R243). -/
def readHeader (s : State) : Except Fault RawHeader :=
  match readR8 s s.par.layout.tow, readU2 s s.par.layout.week, readR8 s s.par.layout.gpsutc with
  | .ok t, .ok w, .ok g => .ok ⟨t, w, g⟩
  | .error f, _, _ => .error f
  | .ok _, .error f, _ => .error f
  | .ok _, .ok _, .error f => .error f

/-- The fields of the record at buffer index `r` (R108, R113). -/
def readRecord (s : State) (r : Nat) : Except Fault RawRecord :=
  let l := s.par.layout
  match readU1 s (r + l.sig), readU1 s (r + l.prn), readI1 s (r + l.chan), readU1 s (r + l.snr) with
  | .ok sig, .ok prn, .ok chan, .ok snr =>
    match readR8 s (r + l.phase), readR8 s (r + l.range), readR8 s (r + l.dopp), readU1 s (r + l.flag) with
    | .ok phase, .ok range, .ok dopp, .ok flag => .ok ⟨sig, prn, chan, snr, phase, range, dopp, flag⟩
    | .error f, _, _, _ => .error f
    | .ok _, .error f, _, _ => .error f
    | .ok _, .ok _, .error f, _ => .error f
    | .ok _, .ok _, .ok _, .error f => .error f
  | .error f, _, _, _ => .error f
  | .ok _, .error f, _, _ => .error f
  | .ok _, .ok _, .error f, _ => .error f
  | .ok _, .ok _, .ok _, .error f => .error f

/-- The `k` records from buffer index `r` on, 30 bytes apart (R106, R254; log 19). -/
def readRecords (s : State) (r : Nat) : Nat → Except Fault (List RawRecord)
  | 0 => .ok []
  | k + 1 =>
    match readRecord s r, readRecords s (r + Config.rawRecLen) k with
    | .ok x, .ok xs => .ok (x :: xs)
    | .error f, _ => .error f
    | .ok _, .error f => .error f

/-! ### Parameter lookups -/

/-- `PrnOf(sys, prn)`, an exact integer (R112). -/
def prnOf (p : Params) (sys : Sys) (prn : Byte) : Int :=
  if sys = .sbas then (prn.toNat : Int) + p.sbasPrnBias else (prn.toNat : Int)

/-- `SatNo` in a host's table. -/
def satInTable (t : List SatRange) (sys : Sys) (prn : Int) : Option Nat :=
  match t.find? (fun r => r.sys = sys && decide (r.first ≤ prn) && decide (prn ≤ r.last)) with
  | some r => some (r.sat + (prn - r.first).toNat)
  | none => none

/-- `SatNo(sys, prn)`, an id in 1..`NSAT`, or `none` for `FAIL` (R8; log 5). -/
def satNo (p : Params) (sys : Sys) (prn : Int) : Option Nat :=
  let answer :=
    match p.satTable with
    | some t => satInTable t sys prn
    | none => Config.satNo sys prn
  match answer with
  | some sat => if 1 ≤ sat ∧ sat ≤ p.nsat then some sat else none
  | none => none

/-- `SnrConv(b)` (R264; log 6). -/
def snrConv (p : Params) (b : Byte) : Snr :=
  match p.snrTable[b.toNat]? with
  | some v => v
  | none => Config.snrConv b

/-- `CarrierFreq(sys, slot, chan)` (R261, D30; log 7). -/
def carrierFreq (p : Params) (sys : Sys) (slot : Fin 3) (chan : Int) : Fp :=
  match p.carrierTable.find? (fun r => r.sys = sys && r.slot = slot) with
  | some r => fpOfRat (r.base + (chan : Rat) * r.perChan)
  | none => fpOfBits (Config.carrierFreq sys slot chan)

/-- `AdjWeek(week_raw)` under its law `week_raw + WEEK_ROLL·m`, `m ≥ 0` (R245; log 8). -/
def adjWeek (s : State) (weekRaw : Nat) : Nat :=
  let m :=
    match s.par.weekCycle with
    | some m => m
    | none => Config.weekDraw s.draws weekRaw
  weekRaw + s.par.weekRoll * m

/-- A free value was drawn. -/
def State.drew (s : State) : State := { s with draws := s.draws + 1 }

end Sys2Proof.Machine
end

