-- ==== Sys2Proof/Machine/Flags.lean ====
section
/-! DEFINITION. Flag computations: the validity bit and the loss-of-lock edge (R111, R265), the code preference (R260),
the range sanity (R257) and the PVT status bits (R218). -/

namespace Sys2Proof.Machine

/-- `VALID_BIT`: bit 3 of a record's flag byte (R6, R111). -/
def phaseValid (flag : Byte) : Bool := flag.getLsbD 3

/-- Loss of lock: only the 0→1 transition of the validity bit (R265). -/
def lossOfLock (flag prev : Byte) : Bool := phaseValid flag && !phaseValid prev

/-- `class(code) = precise`; the class of `NONE` is neither (R48, R110). -/
def isPrecise : Option CodeLabel → Bool
  | some c => decide (c.cls = .precise)
  | none => false

/-- A civil record does not overwrite a precise slot (R260). -/
def codeLoses (held : Option CodeLabel) (new : CodeLabel) : Bool :=
  isPrecise held && decide (new.cls = .civil)

/-- Range sanity of the raw values, bounds inclusive, NaNs failing (R257, D25). -/
def inRange (r : RawRecord) : Bool :=
  fpAbsLe (fpOfBits r.phase) 10000000000 && fpAbsLe (fpOfBits r.range) 10000000000 &&
    fpAbsLe (fpOfBits r.dopp) 100000

/-- The five booleans of a PVT status byte: bit k compared with zero (R218, 90_conflicts.md C8). -/
def pvtFlags (st : Byte) : PvtFlags where
  prevFixUsed := st.getLsbD 7
  twoD := st.getLsbD 6
  diffUsed := st.getLsbD 4
  raim := st.getLsbD 3
  differential := st.getLsbD 2

/-- `opt_tadj` turns smoothing on only when it is finite and greater than zero (R50). -/
def smoothingOn (tadj : F64) : Bool := fpPositive (fpOfBits tadj)

end Sys2Proof.Machine
end

