-- ==== Sys2Proof/Machine/Attached.lean ====
section
/-! DEFINITION. The six attached decoders (R210–R219): each is the contract of its rule over an answer drawn from a free
relation (log 12). An attached decoder writes `aux` and nothing else of the spec's state, and only with a positive
status (R212); one whose layout is longer than its frame, and has no length check, may fault (R315; log 30). -/

namespace Sys2Proof.Machine

/-- `buf[0..len−1]` as the attached decoders are given it (R212). -/
def frameCells (s : State) : List Host.Cell := s.buf.filter (fun c => decide (c.1 < s.len))

/-- What an attached decoder reads (R212). -/
def attachedView (s : State) : AttachedView where
  frame := frameCells s
  len := s.len
  lastEpoch := s.lastEpoch
  acceptAll := s.optAcceptAll
  aux := s.aux

/-- The answer an attached decoder draws (R212; log 12). -/
def attachedAnswer (k : FrameKind) (s : State) : AttachedAnswer := Config.attached k s.draws (attachedView s)

/-- What the inner system byte of a `TYPE_EPH` frame says (R213, R214; log 15). -/
def ephSystem (s : State) : EphSystem :=
  match s.par.ephInner with
  | none => Config.ephSystem (frameCells s)
  | some i =>
    match tableGet (frameCells s) i.offset with
    | some b => if b = i.gps then .gps else if b = i.glonass then .glonass else Config.ephSystem (frameCells s)
    | none => Config.ephSystem (frameCells s)

/-- An attached decoder ends: a status, and the `aux` it leaves. A draw was made. -/
def State.attachedEnd (st : Status) (aux : Aux) (s : State) : State := ({ s.drew with aux := aux }).ret st

/-- One of −1 and 0 where the conditions of both hold, in an order no rule gives (R213, A22); the single one where one
holds; `none` where neither does. -/
def errorOrNoop (err noop pickError : Bool) : Option Status :=
  match err, noop with
  | true, true => some (if pickError then .error else .noMessage)
  | true, false => some .error
  | false, true => some .noMessage
  | false, false => none

/-- GPS ephemeris (R213). -/
def ephGpsStatus (lastEpoch : Option Time) (acceptAll : Bool) (a : AttachedAnswer) : Status :=
  (errorOrNoop a.bad (lastEpoch.isNone || (a.unchanged && !acceptAll)) a.pickError).getD .ephemeris

/-- GLONASS ephemeris (R214); whether an unchanged issue indicator gates is left open (A23). -/
def ephGloStatus (lastEpoch : Option Time) (a : AttachedAnswer) : Status :=
  (errorOrNoop a.bad (lastEpoch.isNone || a.unchanged) a.pickError).getD .ephemeris

/-- Subframe/SBAS bridge (R215): a malformed frame that also holds a decoded sub-block gives −1 or 3, in an order no rule
gives (R308, A22; log 12). -/
def bitStatus (a : AttachedAnswer) : Status :=
  if a.sbasDecoded && !(a.bad && a.pickError) then .sbas else if a.bad then .error else .noMessage

/-- PVT: a week out of range gives −1 or 0 (R218, A20). -/
def pvtStatus (a : AttachedAnswer) : Status :=
  if a.bad then (if a.pickError then .error else .noMessage) else .pvt

/-- Almanac (R219). -/
def almStatus (gloEnabled : Bool) (a : AttachedAnswer) : Status :=
  if a.short || (a.glonassAlm && !gloEnabled) then .noMessage else .almanac

/-- The layout of an attached decoder that reads past a short frame is longer than the frame: a read at or beyond `len`
(R87, R315; log 30). -/
def readsBeyond (reach : Option Nat) (s : State) : Bool :=
  match reach with
  | some n => decide (s.len < n)
  | none => false

/-- An attached decoder without a length check: the fault of R87 where it reads past its frame. -/
def withReach (reach : Option Nat) (s : State) (r : Result) : Result :=
  if readsBeyond reach s then .fault .unwrittenBufferRead else r

/-- A positive status writes; any other leaves `aux` unchanged (R212). -/
def auxAfter (st : Status) (old new : Aux) : Aux := if 0 < st.code then new else old

/-- `Attached_EPH` on a GPS frame (R213): the satellite's stored ephemeris is replaced. -/
def attachedEphGps (s : State) : Result :=
  let a := attachedAnswer .eph s
  let st := ephGpsStatus s.lastEpoch s.optAcceptAll a
  .next (s.attachedEnd st (auxAfter st s.aux { s.aux with gpsEph := tablePut none s.aux.gpsEph a.key a.data }))

/-- `Attached_EPH` on a GLONASS frame (R214). -/
def attachedEphGlo (s : State) : Result :=
  let a := attachedAnswer .eph s
  let st := ephGloStatus s.lastEpoch a
  .next (s.attachedEnd st (auxAfter st s.aux { s.aux with gloEph := tablePut none s.aux.gloEph a.key a.data }))

/-- `Attached_BIT` (R215): the SBAS message slot is written. -/
def attachedBit (s : State) : Result :=
  let a := attachedAnswer .bit s
  let st := bitStatus a
  .next (s.attachedEnd st (auxAfter st s.aux { s.aux with sbas := a.data }))

/-- `Attached_IONO` (R216): "always succeeds"; the 8-element ionosphere vector is written. -/
def attachedIono (s : State) : Result :=
  let a := attachedAnswer .iono s
  withReach s.par.attachedReach.iono s (.next (s.attachedEnd .ionUtc { s.aux with ion := a.ion }))

/-- `Attached_UTC` (R217): four correction terms and the leap seconds are written. -/
def attachedUtc (s : State) : Result :=
  let a := attachedAnswer .utc s
  withReach s.par.attachedReach.utc s (.next (s.attachedEnd .ionUtc { s.aux with utc := a.utc, leap := a.leap }))

/-- `Attached_PVT` (R218): the PVT record is written, its five booleans from the status byte. A week out of range may end
it before it reads past a short frame (R308; log 30). -/
def attachedPvt (s : State) : Result :=
  let a := attachedAnswer .pvt s
  let st := pvtStatus a
  withReach (if a.bad && a.weekFirst then none else s.par.attachedReach.pvt) s
    (.next (s.attachedEnd st (auxAfter st s.aux { s.aux with pvt := ⟨a.fixEpoch, pvtFlags a.pvtStatus, a.data⟩ })))

/-- `Attached_ALM` (R219): an almanac entry is written. -/
def attachedAlm (s : State) : Result :=
  let a := attachedAnswer .alm s
  let st := almStatus s.par.almGloEnabled a
  .next (s.attachedEnd st (auxAfter st s.aux { s.aux with alm := tablePut none s.aux.alm a.key a.data }))

end Sys2Proof.Machine
end

