-- ==== Sys2Proof/Machine/RawObs.lean ====
section
/-! DEFINITION. The raw-observation decoder (R240–R268): epoch derivation, admission, satellite validation, and the
records with their observation slots and half-cycle array. -/

namespace Sys2Proof.Machine

/-! ### Epoch (R246–R248) -/

/-- The derived epoch: `t`, the sub-tick remainder `frac` in ms, and the smoothing offset `toff` in s. -/
structure Epoch where
  t    : Time
  frac : Fp
  toff : Fp
deriving DecidableEq, Repr

/-- `GpsTime(week, sec)` for a finite `sec` (D17). -/
def gpsTime (week : Nat) (sec : Fp) : Time := (Config.weekSeconds : Rat) * (week : Rat) + fpRat sec

/-- `TimeToTow(t)`: the binary64 nearest to `t mod 604800` (D17). -/
def timeToTow (t : Time) : Fp :=
  fpOfRat (t - (Config.weekSeconds : Rat) * ((t / (Config.weekSeconds : Rat)).floor : Rat))

/-- `tow_int`: the nearest 10-ms tick, a tie upward (R247). -/
def snapTow (tow : Fp) : Fp := fpMul fpTen (fpFloor (fpAdd (fpDiv tow fpTen) fpHalf))

/-- `toff`: the offset to the nearest multiple of `tadj` seconds (R248). -/
def smoothOffset (t : Time) (tadj : Fp) : Fp :=
  let tn := fpDiv (timeToTow t) tadj
  fpMul (fpSub tn (fpFloor (fpAdd tn fpHalf))) tadj

/-- Time-tag smoothing of a snapped epoch (R248). -/
def smoothEpoch (t : Time) (frac : Fp) (tadj : F64) : Except Fault Epoch :=
  if smoothingOn tadj then
    let toff := smoothOffset t (fpOfBits tadj)
    if fpFinite toff then .ok ⟨t - fpRat toff, frac, toff⟩ else .error .nonFiniteEpoch
  else .ok ⟨t, frac, .fin false 0⟩

/-- The epoch of a message (R246–R248). -/
def deriveEpoch (week : Nat) (h : RawHeader) (tadj : F64) : Except Fault Epoch :=
  let tow := fpAdd (fpOfBits h.tow) (fpOfBits h.gpsutc)
  if fpFinite tow then
    let towInt := snapTow tow
    if fpFinite towInt then smoothEpoch (gpsTime week (fpMul towInt fpMilli)) (fpSub tow towInt) tadj
    else .error .nonFiniteEpoch
  else .error .nonFiniteEpoch

/-! ### Admission (R249–R251) -/

/-- `|TimeDiff(t, t0)|` (D17). -/
def timeGap (t t0 : Time) : Rat := if t - t0 < 0 then -(t - t0) else t - t0

/-- More than 24 hours from the last accepted epoch (R249). -/
def isJump (last : Option Time) (t : Time) : Bool :=
  match last with
  | some t0 => decide (86400 < timeGap t t0)
  | none => false

/-- Less than 1 ms from the last accepted epoch (R250). -/
def isDuplicate (last : Option Time) (t : Time) : Bool :=
  match last with
  | some t0 => decide (timeGap t t0 < 1 / 1000)
  | none => false

/-! ### Satellites (R252, R256) -/

/-- The satellite a record is for, given its `SIGNAL_TABLE` row; `none` is `FAIL` (R252, R256). -/
def recordSat (p : Params) (g : SignalRow) (r : RawRecord) : Option Nat := satNo p g.sys (prnOf p g.sys r.prn)

/-- A record whose signal code is defined and whose satellite does not resolve (R252). -/
def unresolved (p : Params) (r : RawRecord) : Bool :=
  match signalOf p r.sig with
  | some g => (recordSat p g r).isNone
  | none => false

/-! ### Observation slots (R254–R267) -/

/-- The slot of an entry (R47). -/
def ObsEntry.slot (x : ObsEntry) (k : Fin 3) : Slot :=
  match k with
  | 0 => x.slot0
  | 1 => x.slot1
  | 2 => x.slot2

/-- An entry with one slot replaced; the others and the time stay (R267). -/
def ObsEntry.setSlot (x : ObsEntry) (k : Fin 3) (v : Slot) : ObsEntry :=
  match k with
  | 0 => { x with slot0 := v }
  | 1 => { x with slot1 := v }
  | 2 => { x with slot2 := v }

/-- The entry of a satellite in an observation set (R258). -/
def obsFind (obs : List ObsEntry) (sat : Nat) : Option ObsEntry := obs.find? (fun x => x.sat = sat)

/-- Replace one slot of a satellite's entry. -/
def obsSet (obs : List ObsEntry) (sat : Nat) (k : Fin 3) (v : Slot) : List ObsEntry :=
  match obs with
  | [] => []
  | x :: xs => if x.sat = sat then x.setSlot k v :: xs else x :: obsSet xs sat k v

/-- A new entry (R258). -/
def freshEntry (sat : Nat) (t : Time) : ObsEntry := ⟨sat, t, Slot.zero, Slot.zero, Slot.zero⟩

/-- The observation set with an entry for the satellite, or `none` if it needs one and the set is full (R258, R259). -/
def obsWith (p : Params) (obs : List ObsEntry) (sat : Nat) (t : Time) : Option (List ObsEntry) :=
  match obsFind obs sat with
  | some _ => some obs
  | none => if obs.length = p.maxObsSats then none else some (obs ++ [freshEntry sat t])

/-- What the records write: the observation set and the half-cycle array. -/
structure Decoded where
  obs   : List ObsEntry
  halfc : List Host.Cell
deriving DecidableEq, Repr

/-- `s.L` (R261). -/
def carrierPhase (p : Params) (e : Epoch) (g : SignalRow) (r : RawRecord) : F64 :=
  fpToBits64 r.phase (fpSub (fpOfBits r.phase) (fpMul e.toff (carrierFreq p g.sys g.slot r.chan)))

/-- `s.P`, left to right (R262). -/
def pseudorange (e : Epoch) (r : RawRecord) : F64 :=
  fpToBits64 r.range
    (fpSub (fpMul (fpMul (fpSub (fpOfBits r.range) e.frac) fpLight) fpMilli) (fpMul e.toff fpLight))

/-- `s.D` (R263). -/
def doppler (r : RawRecord) : F32 := fpToBits32 r.dopp (fpOfBits r.dopp)

/-- Every field of the slot a record writes (R261–R267); `prev` is the half-cycle byte before it (R265). -/
def newSlot (p : Params) (e : Epoch) (g : SignalRow) (r : RawRecord) (prev : Byte) : Slot where
  P := pseudorange e r
  L := carrierPhase p e g r
  D := doppler r
  snr := snrConv p r.snr
  lli := lossOfLock r.flag prev
  code := some g.code

/-- Lines R258–R267 of `DecodeRecord`, for a record in range of the satellite `sat`. -/
def writeRecord (p : Params) (e : Epoch) (g : SignalRow) (sat : Nat) (r : RawRecord) (d : Decoded) : Decoded :=
  match obsWith p d.obs sat e.t with
  | none => d
  | some obs =>
    match obsFind obs sat with
    | none => d
    | some x =>
      if codeLoses (x.slot g.slot).code g.code then d
      else ⟨obsSet obs sat g.slot (newSlot p e g r (halfcGet d.halfc sat g.slot)),
        halfcPut d.halfc sat g.slot r.flag⟩

/-- `DecodeRecord` (R241): a skipped record writes nothing. -/
def decodeRecord (p : Params) (e : Epoch) (d : Decoded) (r : RawRecord) : Decoded :=
  match signalOf p r.sig with
  | none => d
  | some g =>
    match recordSat p g r with
    | none => d
    | some sat => if inRange r then writeRecord p e g sat r d else d

/-- The records in order, each seeing what earlier ones left (R254). -/
def decodeRecords (p : Params) (e : Epoch) (d : Decoded) (rs : List RawRecord) : Decoded :=
  rs.foldl (decodeRecord p e) d

/-! ### The decoder (R241) -/

/-- R242. -/
def badRawLength (len : Nat) : Bool :=
  decide (len < Config.rawHdrLen) || decide ((len - Config.rawHdrLen) % Config.rawRecLen ≠ 0)

/-- The number of records (R241). -/
def rawRecordCount (len : Nat) : Nat := (len - Config.rawHdrLen) / Config.rawRecLen

/-- Commit, then the records (R253, R254). -/
def commitEpoch (e : Epoch) (rs : List RawRecord) (s : State) : State :=
  let d := decodeRecords s.par e ⟨[], s.halfc⟩ rs
  { s with obs := d.obs, halfc := d.halfc, lastEpoch := some e.t }

/-- From the admission of a derived epoch on (R249–R268). -/
def admitEpoch (e : Epoch) (s : State) : Result :=
  if isJump s.lastEpoch e.t then .next (s.ret .noMessage)
  else if isDuplicate s.lastEpoch e.t then .next (s.ret .noMessage)
  else
    match readRecords s Config.rawRecBase (rawRecordCount s.len) with
    | .error f => .fault f
    | .ok rs =>
      if rs.any (unresolved s.par) then .next (s.ret .error)
      else .next ((commitEpoch e rs s).ret .observation)

/-- `RawObs()` (R241). -/
def rawObs (s : State) : Result :=
  if badRawLength s.len then .next (s.ret .error)
  else
    match readHeader s with
    | .error f => .fault f
    | .ok h =>
      if Config.weekCeiling ≤ h.week.toNat then .next (s.ret .noMessage)
      else
        match deriveEpoch (adjWeek s h.week.toNat) h s.optTadj with
        | .error f => .fault f
        | .ok e => admitEpoch e s.drew

end Sys2Proof.Machine
end

