-- ==== Sys2Proof/Machine/Dispatcher.lean ====
section
/-! DEFINITION. The message dispatcher (R200–R204) and the meanings of the frame-type rows: the dispatch of a completed
frame whose type byte selects the row. -/

namespace Sys2Proof.Machine

/-- `Attached_EPH`: the inner system byte selects the decoder (R213, R214). -/
def attachedEph (s : State) : Result :=
  match ephSystem s with
  | .gps => attachedEphGps s
  | .glonass => attachedEphGlo s

/-- The decoder of a kind; an unrecognised type is a no-op with status 0 (R200, R202). -/
def runDecoder (k : FrameKind) (s : State) : Result :=
  match k with
  | .raw => rawObs s
  | .eph => attachedEph s
  | .bit => attachedBit s
  | .iono => attachedIono s
  | .utc => attachedUtc s
  | .pvt => attachedPvt s
  | .alm => attachedAlm s
  | .unrecognised => .next (s.ret .noMessage)

/-- `Dispatch()` (R200): read the type byte, emit the tag, run the decoder. -/
def dispatch (s : State) : Result :=
  match readU1 s 1 with
  | .error f => .fault f
  | .ok t => runDecoder (frameKind s.par t) (s.emitTag t)

/-- A frame row's guard: a frame stands completed in the buffer (the synchronizer is Idle, R150) and its type byte is of
the row's kind; the tag is emitted and the decoder runs. Elsewhere the row is not selected (log 11). -/
def onFrame (k : FrameKind) (body : State → Result) (s : State) : Result :=
  match readU1 s 1 with
  | .error f => .fault f
  | .ok t =>
    if s.count = 0 ∧ frameKind s.par t = k then body (s.emitTag t) else .refused .rowNotSelected

/-- RAW (R241). -/
def execRaw (s : State) : Result := onFrame .raw rawObs s

/-- EPH_GPS (R213): the inner system byte says GPS. -/
def execEphGps (s : State) : Result :=
  if ephSystem s = .gps then onFrame .eph attachedEphGps s else .refused .rowNotSelected

/-- EPH_GLO (R214): the inner system byte says GLONASS. -/
def execEphGlo (s : State) : Result :=
  if ephSystem s = .glonass then onFrame .eph attachedEphGlo s else .refused .rowNotSelected

/-- BIT (R215). -/
def execBit (s : State) : Result := onFrame .bit attachedBit s

/-- IONO (R216). -/
def execIono (s : State) : Result := onFrame .iono attachedIono s

/-- UTC (R217). -/
def execUtc (s : State) : Result := onFrame .utc attachedUtc s

/-- PVT (R218). -/
def execPvt (s : State) : Result := onFrame .pvt attachedPvt s

/-- ALM (R219). -/
def execAlm (s : State) : Result := onFrame .alm attachedAlm s

/-- UNRECOGNISED (R202): no state changes, the status is 0, the tag is still emitted. -/
def execUnrecognised (s : State) : Result := onFrame .unrecognised (fun t => .next (t.ret .noMessage)) s

end Sys2Proof.Machine
end

