-- ==== Sys2Proof/Machine/Synchronizer.lean ====
section
/-! DEFINITION. The stream variant of the synchronizer: `BYTE_IN` (R140, R141), and the transition rows of the opcode
table, each written from its own rule (R142–R151). -/

namespace Sys2Proof.Machine

/-- BYTE_IN (R141): the body, then 0, −1, or the dispatcher's status unchanged (R150). -/
def execByteIn (b : Byte) (s : State) : Result :=
  match syncStep b s.start with
  | .more t => .next (t.ret .noMessage)
  | .overflow t => .next (t.ret .error)
  | .done t => dispatch t

/-- A transition row's guard: its phase, class, toggle and count hold (log 11); the operation's outputs start empty. -/
def onRow (i : Instr) (body : State → Result) (s : State) : Result :=
  if rowEnabled s.ctx i then body s.start else .refused .rowNotSelected

/-- IDLE_SYNC (R142): `buf[0] <- SYNC; count <- 1; toggle <- 0`. -/
def execIdleSync (s : State) : Result := onRow .idleSync (fun t => .next (t.startFrame.ret .noMessage)) s

/-- IDLE_OTHER (R143): discarded. -/
def execIdleOther (b : Byte) (s : State) : Result := onRow (.idleOther b) (fun t => .next (t.ret .noMessage)) s

/-- HDR_NOISE_SYNC (R146): back to Idle, the byte is not a frame start. -/
def execHdrNoiseSync (s : State) : Result := onRow .hdrNoiseSync (fun t => .next (t.toIdle.ret .noMessage)) s

/-- HDR_NOISE_END (R146): back to Idle. -/
def execHdrNoiseEnd (s : State) : Result := onRow .hdrNoiseEnd (fun t => .next (t.toIdle.ret .noMessage)) s

/-- HDR_TYPE (R144): `buf[1] <- b; count <- 2`. -/
def execHdrType (b : Byte) (s : State) : Result :=
  onRow (.hdrType b) (fun t => .next ((t.storeByte b).ret .noMessage)) s

/-- ACC_SYNC (R147, R148): flip; store if the toggle is now odd. -/
def execAccSync (s : State) : Result :=
  onRow .accSync
    (fun t => .next (if t.flipToggle.toggle then (t.flipToggle.storeByte t.par.sync).ret .noMessage
      else t.flipToggle.ret .noMessage)) s

/-- ACC_END_TOGGLE1 (R148, R149, R150): store, complete, dispatch. -/
def execAccEndToggle1 (s : State) : Result :=
  onRow .accEndToggle1 (fun t => dispatch (t.storeByte t.par.endMark).completeFrame) s

/-- ACC_END_TOGGLE0 (R148): stored as payload. -/
def execAccEndToggle0 (s : State) : Result :=
  onRow .accEndToggle0 (fun t => .next ((t.storeByte t.par.endMark).ret .noMessage)) s

/-- ACC_OTHER (R148): stored. -/
def execAccOther (b : Byte) (s : State) : Result :=
  onRow (.accOther b) (fun t => .next ((t.storeByte b).ret .noMessage)) s

/-- ACC_OVERFLOW (R147, R148, R151): the byte is stored as it would be, the frame is discarded, −1. -/
def execAccOverflow (b : Byte) (s : State) : Result :=
  onRow (.accOverflow b) (fun t => .next ((flipAndStore b t).toIdle.ret .error)) s

end Sys2Proof.Machine
end

