-- ==== Sys2Proof/Machine/FileMode.lean ====
section
/-! DEFINITION. The file variant of the synchronizer: `FILE_STEP` (R180–R184). -/

namespace Sys2Proof.Machine

/-- End of input (R182): −2; a partial frame is kept unless `EOF_DISCARDS_PARTIAL`. -/
def endOfInput (s : State) : State :=
  ((if s.par.eofDiscardsPartial then s.toIdle else s).giveRest []).ret .endOfInput

/-- The synchronizer is in Idle or Header: the sync search of R183. -/
def searching (s : State) : Bool := decide (s.count ≤ 1)

/-- The loop of R181 over the rest of the source; `idle` counts the sync-search bytes of this call. -/
def fileLoop (src : List Byte) (idle : Nat) (s : State) : Result :=
  match src with
  | [] => .next (endOfInput s)
  | b :: rest =>
    match syncStep b s with
    | .done t => mapNext (State.giveRest rest) (dispatch t)
    | .overflow t => .next ((t.giveRest rest).ret .error)
    | .more t =>
      if searching s && searching t then
        if s.par.syncSearchLimit ≤ idle + 1 then .next ((t.giveRest rest).ret .noMessage)
        else fileLoop rest (idle + 1) t
      else fileLoop rest idle t

/-- FILE_STEP (R181). -/
def execFileStep (src : List Byte) (s : State) : Result := fileLoop src 0 s.start

end Sys2Proof.Machine
end

