-- ==== Sys2Proof/Machine/Dispatch.lean ====
section
/-! DEFINITION. The meaning of every row of the opcode table, one arm a constructor. -/

namespace Sys2Proof.Machine

def exec (i : Instr) (s : State) : Host.Outcome State Fault Refusal :=
  match i with
  | .byteIn b => Sys2Proof.Machine.execByteIn b s
  | .fileStep src => Sys2Proof.Machine.execFileStep src s
  | .reset => Sys2Proof.Machine.execReset s
  | .configure acceptAll tadj => Sys2Proof.Machine.execConfigure acceptAll tadj s
  | .idleSync => Sys2Proof.Machine.execIdleSync s
  | .idleOther b => Sys2Proof.Machine.execIdleOther b s
  | .hdrNoiseSync => Sys2Proof.Machine.execHdrNoiseSync s
  | .hdrNoiseEnd => Sys2Proof.Machine.execHdrNoiseEnd s
  | .hdrType b => Sys2Proof.Machine.execHdrType b s
  | .accSync => Sys2Proof.Machine.execAccSync s
  | .accEndToggle1 => Sys2Proof.Machine.execAccEndToggle1 s
  | .accEndToggle0 => Sys2Proof.Machine.execAccEndToggle0 s
  | .accOther b => Sys2Proof.Machine.execAccOther b s
  | .accOverflow b => Sys2Proof.Machine.execAccOverflow b s
  | .raw => Sys2Proof.Machine.execRaw s
  | .ephGps => Sys2Proof.Machine.execEphGps s
  | .ephGlo => Sys2Proof.Machine.execEphGlo s
  | .bit => Sys2Proof.Machine.execBit s
  | .iono => Sys2Proof.Machine.execIono s
  | .utc => Sys2Proof.Machine.execUtc s
  | .pvt => Sys2Proof.Machine.execPvt s
  | .alm => Sys2Proof.Machine.execAlm s
  | .unrecognised => Sys2Proof.Machine.execUnrecognised s

end Sys2Proof.Machine
end

