-- ==== Sys2Proof/Machine/Step.lean ====
section
/-! DEFINITION. One step: the oldest pending operation of the host runs to its end (R88). -/

namespace Sys2Proof.Machine

/-- One step. A parameter set that breaks R7 is refused (A14; log 20). With no operation pending the block does nothing
(R316). Otherwise the oldest pending operation is taken and run (log 9). -/
def step (s : State) : Host.Outcome State Fault Refusal :=
  if s.par.ok then
    match s.input with
    | [] => .next s
    | op :: rest => exec op.toInstr { s with input := rest }
  else .refused .badParameters

/-- The operation `decodeTableWord` names, put before the host's pending operations, so that the next step runs it. -/
def State.withFetchWord (s : State) (nbits w : Nat) : State :=
  if nbits = 8 ∧ w < 256 then { s with input := .byteIn (BitVec.ofNat 8 w) :: s.input } else s

end Sys2Proof.Machine
end

