-- ==== Sys2Proof/Safety.lean ====
section
/-! DEFINITION. What a safe run is: the invariant of R59 with the canonical forms, and the terms statements are made in
(what an operation answered, which bytes it changed, a run of `BYTE_IN`s, the statuses R213–R219 allow). -/

namespace Sys2Proof.Machine

/-! ### The invariant -/

/-- Items 1 to 4 of R59 with what they rest on: the range of `count`, the bytes a partial or completed frame begins
with, a cleared toggle until the first payload byte (R142, R144, R145), the range of `len` (R156). -/
structure SyncInv (s : State) : Prop where
  count_lt : s.count < s.par.maxFrame
  start_byte : 1 ≤ s.count ∨ s.len ≠ 0 → tableGet s.buf 0 = some s.par.sync
  type_byte : 2 ≤ s.count ∨ s.len ≠ 0 → ∃ t, tableGet s.buf 1 = some t ∧ t ≠ s.par.sync ∧ t ≠ s.par.endMark
  toggle_clear : s.count = 1 ∨ s.count = 2 → s.toggle = false
  len_range : s.len = 0 ∨ (4 ≤ s.len ∧ s.len ≤ s.par.maxFrame)

/-- The buffer: canonical, inside 0..`MAX_FRAME`−1 (R80), every byte below `count` and below `len` written (R44). -/
structure BufInv (s : State) : Prop where
  canonical : bufWf s.buf = true
  inside : ∀ c ∈ s.buf, c.1 < s.par.maxFrame
  partial_written : ∀ i < s.count, (tableGet s.buf i).isSome = true
  frame_written : ∀ i < s.len, (tableGet s.buf i).isSome = true

/-- Items 5 and 6 of R59, and satellite ids in 1..`NSAT` (R47). -/
structure ObsInv (s : State) : Prop where
  bounded : s.obs.length ≤ s.par.maxObsSats
  distinct : (s.obs.map (·.sat)).Nodup
  sats : ∀ x ∈ s.obs, 1 ≤ x.sat ∧ x.sat ≤ s.par.nsat
  times : ∀ x ∈ s.obs, s.lastEpoch = some x.time

/-- The half-cycle array: canonical, its cells those of satellites 1..`NSAT` (R49). -/
structure HalfcInv (s : State) : Prop where
  canonical : halfcWf s.halfc = true
  inside : ∀ c ∈ s.halfc, Config.nslot ≤ c.1 ∧ c.1 < Config.nslot * (s.par.nsat + 1)

/-- The attached decoders' tables are canonical (log 13). -/
structure AuxInv (a : Aux) : Prop where
  gpsEph : tableWf none a.gpsEph = true
  gloEph : tableWf none a.gloEph = true
  alm : tableWf none a.alm = true

/-- The invariant of the machine (R59), with the canonical form of every table. -/
structure Inv (s : State) : Prop where
  sync : SyncInv s
  buf : BufInv s
  obs : ObsInv s
  halfc : HalfcInv s
  aux : AuxInv s.aux
  auxInit : AuxInv s.par.auxInit

/-! ### Terms of statements -/

/-- A status, and nothing else, was answered. -/
def answered (st : Status) : Output := ⟨some st, none, none⟩

/-- A status and the diagnostic tag of the frame of type `t` and length `n` were answered. -/
def answeredFrame (st : Status) (t : Byte) (n : Nat) : Output := ⟨some st, some (t, n), none⟩

/-- The byte the buffer holds at an index, if one was written: the model's read of one byte. -/
def bufByte (s : State) (i : Nat) : Option Byte := tableGet s.buf i

/-- `t`'s buffer holds `b` at `i` and is `s`'s buffer everywhere else. -/
def storedByte (s t : State) (i : Nat) (b : Byte) : Prop :=
  bufByte t i = some b ∧ ∀ j, j ≠ i → bufByte t j = bufByte s j

/-- Every byte of the buffer reads as before. -/
def sameBytes (s t : State) : Prop := ∀ j, bufByte t j = bufByte s j

/-- The buffer holds these bytes from an index on. -/
def holdsBytes (s : State) (i : Nat) : List Byte → Prop
  | [] => True
  | b :: bs => bufByte s i = some b ∧ holdsBytes s (i + 1) bs

/-- `BYTE_IN` of each byte in order. -/
def runBytes (bs : List Byte) (s : State) : Result :=
  match bs with
  | [] => .next s
  | b :: rest =>
    match exec (.byteIn b) s with
    | .next t => runBytes rest t
    | .fault r => .fault r
    | .refused r => .refused r

/-- The bytes a host operation gives the synchronizer. -/
def inputBytes : HostOp → List Byte
  | .byteIn b => [b]
  | .fileStep src => src
  | .reset => []
  | .configure _ _ => []

/-- An operation on `s` completes a frame of type byte `ty` and length `n` (R149): the bytes it is given before an `END`
leave the synchronizer Accumulating with an odd toggle. -/
def completesFrame (s : State) (op : HostOp) (ty : Byte) (n : Nat) : Prop :=
  ∃ front back u, inputBytes op = front ++ s.par.endMark :: back ∧ runBytes front s = .next u ∧
    2 ≤ u.count ∧ u.toggle = true ∧ bufByte u 1 = some ty ∧ n = u.count + 1

/-- The statuses a frame row may return (R213–R219, R275, R202). -/
def allowedStatuses : FrameKind → List Status
  | .raw => [.error, .noMessage, .observation]
  | .eph => [.error, .noMessage, .ephemeris]
  | .bit => [.error, .noMessage, .sbas]
  | .iono => [.ionUtc]
  | .utc => [.ionUtc]
  | .pvt => [.error, .noMessage, .pvt]
  | .alm => [.noMessage, .almanac]
  | .unrecognised => [.noMessage]

/-- The slot holds a record: the converted values by the expressions of R261 to R264, every operation in binary64 (R12),
and the code label (R267). -/
structure HoldsRecord (p : Params) (e : Epoch) (g : SignalRow) (r : RawRecord) (x : Slot) : Prop where
  phase : x.L = fpToBits64 r.phase (fpSub (fpOfBits r.phase) (fpMul e.toff (carrierFreq p g.sys g.slot r.chan)))
  range : x.P = fpToBits64 r.range
    (fpSub (fpMul (fpMul (fpSub (fpOfBits r.range) e.frac) (fpOfRat 299792458)) (fpOfRat (1 / 1000)))
      (fpMul e.toff (fpOfRat 299792458)))
  doppler : x.D = fpToBits32 r.dopp (fpOfBits r.dopp)
  snr : x.snr = snrConv p r.snr
  code : x.code = some g.code

/-- A loss-of-lock bit set by the 0→1 transition of the validity bit, and by nothing else (R265). -/
def lliIsEdge (x : Slot) (flag prev : Byte) : Prop :=
  x.lli = true ↔ flag.getLsbD 3 = true ∧ prev.getLsbD 3 = false

/-- The sync search over bytes that start no accumulation (R183): whether it ends in Header, begun in Header (`true`) or
in Idle; `none` where a byte is a type byte. -/
def searchEnds (p : Params) : Bool → List Byte → Option Bool
  | inHeader, [] => some inHeader
  | false, b :: bs => searchEnds p (decide (b = p.sync)) bs
  | true, b :: bs => if b = p.sync ∨ b = p.endMark then searchEnds p false bs else none

/-- A completed frame of type byte `t` stands in the buffer with the synchronizer Idle: the state the dispatcher sees
(R150, R201). -/
def frameReady (s : State) (t : Byte) : Prop := s.count = 0 ∧ 2 ≤ s.len ∧ bufByte s 1 = some t

end Sys2Proof.Machine
end

