-- ==== Sys2Proof/Certificates/Slice0/Obligations.lean ====
section
/-! DEFINITION. The statements for the provers. -/

open Sys2Proof Sys2Proof.Machine

/-! ### Encoding and decoding -/

/-- Decoding the byte a transition row encodes to, in a state that enables the row, gives the row and the rest. -/
def Obligations.EncodedRowDecodesBack : Prop :=
  ∀ (c : SyncCtx) (i : Instr) (rest : List Byte),
    c.par.ok = true → i.wellFormed c.par = true → rowEnabled c i = true →
    decode c (encode c.par i ++ rest) = .ok (i, rest)

/-- Every byte in every phase, toggle and count selects exactly one transition row: the one `decodeByte` names. -/
def Obligations.EveryByteSelectsOneRow : Prop :=
  ∀ (c : SyncCtx) (b : Byte), c.par.ok = true →
    (rowEnabled c (decodeByte c b) = true ∧ encode c.par (decodeByte c b) = [b]) ∧
    ∀ i : Instr, rowEnabled c i = true → encode c.par i = [b] → i = decodeByte c b

/-- A type byte of R104's table selects its decoder; every other byte is unrecognised. -/
def Obligations.TypeByteSelectsDecoder : Prop :=
  ∀ p : Params, p.ok = true →
    (∀ k t, typeByte p k = some t → frameKind p t = k) ∧
    (∀ t, (∀ k, typeByte p k ≠ some t) → frameKind p t = .unrecognised)

/-- Bytes written out from R100 and R104, each in its phase, decode to the row they stand for. The byte values are the
defaults the model presumes (PRESUMED, log 2); that 0x41 is unrecognised rests on TYPE_ALM being 0x40 (log 3). -/
def Obligations.SpecBytesDecode : Prop :=
  decodeByte ⟨defaultParams, 0, false⟩ 0x10#8 = .idleSync ∧
  decodeByte ⟨defaultParams, 0, true⟩ 0x03#8 = .idleOther 0x03#8 ∧
  decodeByte ⟨defaultParams, 1, false⟩ 0x10#8 = .hdrNoiseSync ∧
  decodeByte ⟨defaultParams, 1, false⟩ 0x03#8 = .hdrNoiseEnd ∧
  decodeByte ⟨defaultParams, 1, false⟩ 0xF5#8 = .hdrType 0xF5#8 ∧
  decodeByte ⟨defaultParams, 2, false⟩ 0x10#8 = .accSync ∧
  decodeByte ⟨defaultParams, 3, true⟩ 0x03#8 = .accEndToggle1 ∧
  decodeByte ⟨defaultParams, 3, false⟩ 0x03#8 = .accEndToggle0 ∧
  decodeByte ⟨defaultParams, 3, true⟩ 0x41#8 = .accOther 0x41#8 ∧
  decodeByte ⟨defaultParams, 4095, false⟩ 0x41#8 = .accOverflow 0x41#8 ∧
  decodeByte ⟨defaultParams, 4095, true⟩ 0x03#8 = .accEndToggle1 ∧
  frameKind defaultParams 0xF5#8 = .raw ∧ frameKind defaultParams 0xF7#8 = .eph ∧
  frameKind defaultParams 0xE5#8 = .bit ∧ frameKind defaultParams 0x4A#8 = .iono ∧
  frameKind defaultParams 0x4B#8 = .utc ∧ frameKind defaultParams 0x88#8 = .pvt ∧
  frameKind defaultParams 0x41#8 = .unrecognised

/-- R154 up to the dispatch: from Idle, every byte of `Frame(T, p)` but the last answers next with status 0 (whatever
prefix of them is fed), and the last one hands the dispatcher a state in Idle whose buffer holds `SYNC T p SYNC END`
and whose `len` is `4 + |p|`, every decoder register being as at the start. A frame too long for the buffer overflows at
its `MAX_FRAME`-th stored byte. -/
def Obligations.StuffedFrameRoundTrips : Prop :=
  ∀ (s : State) (ty : Byte) (payload : List Byte),
    s.par.ok = true → s.count = 0 → ty ≠ s.par.sync → ty ≠ s.par.endMark →
    (4 + payload.length ≤ s.par.maxFrame →
      ∃ t u : State,
        runBytes (frameBody s.par ty payload) s = .next t ∧
        exec (.byteIn s.par.endMark) t = dispatch u ∧
        u = { s with buf := u.buf, toggle := true, len := 4 + payload.length, out := Output.none } ∧
        holdsBytes u 0 (frameBuffer s.par ty payload) ∧
        (∀ j, 4 + payload.length ≤ j → bufByte u j = bufByte s j) ∧
        ∀ front b back, frameBody s.par ty payload = front ++ b :: back →
          ∃ v, runBytes (front ++ [b]) s = .next v ∧ v.out = answered .noMessage) ∧
    (s.par.maxFrame < 4 + payload.length →
      ∃ (front : List Byte) (b : Byte) (back : List Byte) (t v : State),
        frame s.par ty payload = front ++ b :: back ∧ runBytes front s = .next t ∧ t.count + 1 = s.par.maxFrame ∧
        exec (.byteIn b) t = .next v ∧ v.out = answered .error ∧ v.count = 0 ∧
        bufByte v t.count = some b)

/-! ### The transition rows: result and frame -/

/-- IDLE_SYNC. -/
def Obligations.IdleSyncStartsFrame : Prop :=
  ∀ s : State, s.count = 0 →
    ∃ t, exec .idleSync s = .next t ∧
      t = { s with buf := t.buf, count := 1, toggle := false, out := answered .noMessage } ∧
      storedByte s t 0 s.par.sync

/-- IDLE_OTHER. -/
def Obligations.IdleDiscardsOtherBytes : Prop :=
  ∀ (s : State) (b : Byte), s.count = 0 → b ≠ s.par.sync →
    exec (.idleOther b) s = .next { s with out := answered .noMessage }

/-- HDR_NOISE_SYNC, HDR_NOISE_END. -/
def Obligations.HeaderNoiseReturnsToIdle : Prop :=
  ∀ (s : State) (i : Instr), s.count = 1 → i = .hdrNoiseSync ∨ i = .hdrNoiseEnd →
    exec i s = .next { s with count := 0, toggle := false, out := answered .noMessage }

/-- HDR_TYPE. -/
def Obligations.HeaderStoresTypeByte : Prop :=
  ∀ (s : State) (b : Byte), s.count = 1 → b ≠ s.par.sync → b ≠ s.par.endMark →
    ∃ t, exec (.hdrType b) s = .next t ∧
      t = { s with buf := t.buf, count := 2, out := answered .noMessage } ∧ storedByte s t 1 b

/-- ACC_SYNC: stored when the flip makes the toggle odd, dropped when it makes it even. -/
def Obligations.AccSyncFlipsThenStoresIfOdd : Prop :=
  ∀ s : State, 2 ≤ s.count →
    (s.toggle = false → s.count + 1 ≠ s.par.maxFrame →
      ∃ t, exec .accSync s = .next t ∧
        t = { s with buf := t.buf, count := s.count + 1, toggle := true, out := answered .noMessage } ∧
        storedByte s t s.count s.par.sync) ∧
    (s.toggle = true → s.count ≠ s.par.maxFrame →
      exec .accSync s = .next { s with toggle := false, out := answered .noMessage })

/-- ACC_OTHER and ACC_END_TOGGLE0: stored, the toggle as it was. -/
def Obligations.PayloadBytesAreStored : Prop :=
  ∀ s : State, 2 ≤ s.count → s.count + 1 ≠ s.par.maxFrame →
    (∀ b, b ≠ s.par.sync → b ≠ s.par.endMark →
      ∃ t, exec (.accOther b) s = .next t ∧
        t = { s with buf := t.buf, count := s.count + 1, out := answered .noMessage } ∧
        storedByte s t s.count b) ∧
    (s.toggle = false →
      ∃ t, exec .accEndToggle0 s = .next t ∧
        t = { s with buf := t.buf, count := s.count + 1, out := answered .noMessage } ∧
        storedByte s t s.count s.par.endMark)

/-- ACC_END_TOGGLE1: the `END` is stored and counted in `len`, the synchronizer is Idle, the toggle stays odd, and the
row of the frame's type byte runs in the same step. -/
def Obligations.EndCompletesFrameAndDispatches : Prop :=
  ∀ (s : State) (ty : Byte), 2 ≤ s.count → s.toggle = true → bufByte s 1 = some ty →
    ∃ u : State,
      u = { s with buf := u.buf, len := s.count + 1, count := 0, out := Output.none } ∧
      storedByte s u s.count s.par.endMark ∧
      exec .accEndToggle1 s = exec (frameRow (frameKind s.par ty) (ephSystem u)) u

/-- ACC_END_TOGGLE1 of a frame of unrecognised type answers: no decoder state changes, status 0, the tag. -/
def Obligations.UnrecognisedFrameCompletes : Prop :=
  ∀ (s : State) (ty : Byte), 2 ≤ s.count → s.toggle = true → bufByte s 1 = some ty →
    frameKind s.par ty = .unrecognised →
    ∃ t, exec .accEndToggle1 s = .next t ∧
      t = { s with buf := t.buf, len := s.count + 1, count := 0,
                   out := answeredFrame .noMessage ty (s.count + 1) } ∧
      storedByte s t s.count s.par.endMark

/-- ACC_OVERFLOW: the byte that fills the buffer discards the frame. -/
def Obligations.OverflowDiscardsFrame : Prop :=
  ∀ (s : State) (b : Byte), 2 ≤ s.count → s.count + 1 = s.par.maxFrame →
    (b = s.par.sync → s.toggle = false) → (b = s.par.endMark → s.toggle = false) →
    ∃ t, exec (.accOverflow b) s = .next t ∧
      t = { s with buf := t.buf, count := 0, toggle := false, out := answered .error } ∧ storedByte s t s.count b

/-- `BYTE_IN` is the row its byte selects: R141 as a whole and R142–R152 line by line are the same step. -/
def Obligations.ByteInRunsSelectedRow : Prop :=
  ∀ (s : State) (b : Byte), s.par.ok = true → exec (.byteIn b) s = exec (decodeByte s.ctx b) s

/-- A `BYTE_IN` that does not complete a frame answers 0, or −1 where the byte overflows the frame, and writes only
`count`, `toggle` and `buf`; one that completes a frame answers no −2 either. -/
def Obligations.ByteInWithoutCompletion : Prop :=
  ∀ (s : State) (b : Byte), s.par.ok = true →
    (decodeByte s.ctx b ≠ .accEndToggle1 →
      ∃ t, exec (.byteIn b) s = .next t ∧
        t = { s with buf := t.buf, count := t.count, toggle := t.toggle, out := t.out } ∧
        t.out = answered (if decodeByte s.ctx b = .accOverflow b then .error else .noMessage) ∧
        ∀ j, j ≠ s.count → bufByte t j = bufByte s j) ∧
    ∀ t, exec (.byteIn b) s = .next t → t.out.status ≠ some .endOfInput

/-! ### The dispatcher and the attached decoders -/

/-- `Dispatch()` runs the row of the type byte in `buf[1]`. -/
def Obligations.DispatchRunsRowOfTypeByte : Prop :=
  ∀ (s : State) (ty : Byte), frameReady s ty →
    dispatch s = exec (frameRow (frameKind s.par ty) (ephSystem s)) s

/-- UNRECOGNISED: no state changes, status 0, the tag is still emitted. -/
def Obligations.UnrecognisedTypeIsNoOp : Prop :=
  ∀ (s : State) (ty : Byte), frameReady s ty → frameKind s.par ty = .unrecognised →
    exec .unrecognised s = .next { s with out := answeredFrame .noMessage ty s.len }

/-- No frame row writes `count`, `toggle`, `buf` or `len`, nor the configuration registers or the parameters. -/
def Obligations.DecodersLeaveSynchronizerAlone : Prop :=
  ∀ (s t : State) (k : FrameKind) (sys : EphSystem), exec (frameRow k sys) s = .next t →
    t = { s with lastEpoch := t.lastEpoch, obs := t.obs, halfc := t.halfc, aux := t.aux, draws := t.draws, out := t.out }

/-- An attached decoder writes `aux` only, and only with a positive status. -/
def Obligations.AttachedDecodersWriteOnlyAux : Prop :=
  ∀ (s t : State) (k : FrameKind) (sys : EphSystem), k ≠ .raw → exec (frameRow k sys) s = .next t →
    t = { s with aux := t.aux, draws := t.draws, out := t.out } ∧
    ∃ st, t.out.status = some st ∧ (st.code ≤ 0 → t.aux = s.aux)

/-- No attached decoder reads `obs` or `halfc`: two states that differ only in them get the same answer and `aux`. -/
def Obligations.AttachedDecodersIgnoreObservations : Prop :=
  ∀ (s t : State) (k : FrameKind) (sys : EphSystem) (o : List ObsEntry) (h : List Host.Cell), k ≠ .raw →
    exec (frameRow k sys) s = .next t →
    exec (frameRow k sys) { s with obs := o, halfc := h } = .next { t with obs := o, halfc := h }

/-- EPH_GPS on a completed frame: −1 only on a bad frame; 0 only without an established epoch, or on an unchanged issue
of data with accept-all off; in every other case 2, and then the satellite's stored ephemeris is replaced. Any other
status writes nothing. What the frame says is the answer drawn (log 12); that nothing else of `aux` is written is the
model's reading (log 13). -/
def Obligations.GpsEphemerisIsReplaced : Prop :=
  ∀ (s : State) (ty : Byte) (a : AttachedAnswer),
    frameReady s ty → frameKind s.par ty = .eph → ephSystem s = .gps →
    a = Config.attached .eph s.draws (attachedView s) →
    ∃ (t : State) (st : Status), exec .ephGps s = .next t ∧
      (st = .error ∧ a.bad = true ∨
        st = .noMessage ∧ (s.lastEpoch = none ∨ (a.unchanged = true ∧ s.optAcceptAll = false)) ∨
        st = .ephemeris ∧ a.bad = false ∧ s.lastEpoch ≠ none ∧ (a.unchanged = true → s.optAcceptAll = true)) ∧
      t = { s with aux := { s.aux with
                     gpsEph := if st = .ephemeris then tablePut none s.aux.gpsEph a.key a.data else s.aux.gpsEph },
                   draws := s.draws + 1, out := answeredFrame st ty s.len }

/-- EPH_GLO on a completed frame: as EPH_GPS, for the GLONASS ephemerides; an unchanged issue indicator may gate, whatever
the accept-all register says (A23 leaves it open; the answer drawn, log 12; nothing else of `aux`, log 13). -/
def Obligations.GlonassEphemerisIsReplaced : Prop :=
  ∀ (s : State) (ty : Byte) (a : AttachedAnswer),
    frameReady s ty → frameKind s.par ty = .eph → ephSystem s = .glonass →
    a = Config.attached .eph s.draws (attachedView s) →
    ∃ (t : State) (st : Status), exec .ephGlo s = .next t ∧
      (st = .error ∧ a.bad = true ∨
        st = .noMessage ∧ (s.lastEpoch = none ∨ a.unchanged = true) ∨
        st = .ephemeris ∧ a.bad = false ∧ s.lastEpoch ≠ none ∧ a.unchanged = false) ∧
      t = { s with aux := { s.aux with
                     gloEph := if st = .ephemeris then tablePut none s.aux.gloEph a.key a.data else s.aux.gloEph },
                   draws := s.draws + 1, out := answeredFrame st ty s.len }

/-- BIT on a completed frame: −1 only on a malformed frame; 3 only where an SBAS sub-block was decoded, and then its slot
is written; 0 where neither holds. A malformed frame with a decoded sub-block gives either of the two (A22). The answer is
drawn (log 12); nothing else of `aux` is written (log 13). -/
def Obligations.SbasBridgeForwardsDecodedBlock : Prop :=
  ∀ (s : State) (ty : Byte) (a : AttachedAnswer), frameReady s ty → frameKind s.par ty = .bit →
    a = Config.attached .bit s.draws (attachedView s) →
    ∃ st : Status, exec .bit s = .next
        { s with aux := { s.aux with sbas := if st = .sbas then a.data else s.aux.sbas },
                 draws := s.draws + 1, out := answeredFrame st ty s.len } ∧
      (st = .error ∧ a.bad = true ∨ st = .sbas ∧ a.sbasDecoded = true ∨
        st = .noMessage ∧ a.bad = false ∧ a.sbasDecoded = false)

/-- ALM on a completed frame: 0 for a frame that is too short, and for a GLONASS one with the capability off; otherwise 6,
and an entry is written. The answer is drawn (log 12); nothing else of `aux` is written (log 13). -/
def Obligations.AlmanacEntryIsWritten : Prop :=
  ∀ (s : State) (ty : Byte) (a : AttachedAnswer), frameReady s ty → frameKind s.par ty = .alm →
    a = Config.attached .alm s.draws (attachedView s) →
    exec .alm s = .next
      (if a.short = true ∨ (a.glonassAlm = true ∧ s.par.almGloEnabled = false) then
        { s with draws := s.draws + 1, out := answeredFrame .noMessage ty s.len }
      else
        { s with aux := { s.aux with alm := tablePut none s.aux.alm a.key a.data },
                 draws := s.draws + 1, out := answeredFrame .almanac ty s.len })

/-- IONO and UTC answer 9 on every completed frame of theirs that their layout fits: the one writes the ionosphere vector
of `aux`, the other the UTC terms and the leap seconds, as the answer drawn has them (log 12), and nothing else of it
(log 13). Where the host's decoder reads past a shorter frame it faults (R315; log 30). -/
def Obligations.IonoAndUtcAnswerNineOrFault : Prop :=
  ∀ (s : State) (ty : Byte) (a : AttachedAnswer), frameReady s ty →
    (frameKind s.par ty = .iono → a = Config.attached .iono s.draws (attachedView s) →
      ((∀ n, s.par.attachedReach.iono = some n → n ≤ s.len) →
        exec .iono s = .next { s with aux := { s.aux with ion := a.ion }, draws := s.draws + 1,
                                      out := answeredFrame .ionUtc ty s.len }) ∧
      ∀ n, s.par.attachedReach.iono = some n → s.len < n → exec .iono s = .fault .unwrittenBufferRead) ∧
    (frameKind s.par ty = .utc → a = Config.attached .utc s.draws (attachedView s) →
      ((∀ n, s.par.attachedReach.utc = some n → n ≤ s.len) →
        exec .utc s = .next { s with aux := { s.aux with utc := a.utc, leap := a.leap }, draws := s.draws + 1,
                                     out := answeredFrame .ionUtc ty s.len }) ∧
      ∀ n, s.par.attachedReach.utc = some n → s.len < n → exec .utc s = .fault .unwrittenBufferRead)

/-- PVT on a completed frame that its layout fits: −1 or 0 with a bad week, otherwise 4; with 4 the PVT record is written,
its five booleans being the bits 7, 6, 4, 3 and 2 of the status byte, each compared with zero. The answer is drawn
(log 12); nothing else of `aux` is written (log 13). Where the host's decoder reads past a shorter frame it faults, or a
bad week ended it first with −1 or 0 (R315; log 30). -/
def Obligations.PvtRecordTakesStatusBits : Prop :=
  ∀ (s : State) (ty : Byte) (a : AttachedAnswer), frameReady s ty → frameKind s.par ty = .pvt →
    a = Config.attached .pvt s.draws (attachedView s) →
    ((∀ n, s.par.attachedReach.pvt = some n → n ≤ s.len) →
      ∃ (t : State) (st : Status), exec .pvt s = .next t ∧
        (if a.bad = true then st = .error ∨ st = .noMessage else st = .pvt) ∧
        t = { s with aux := { s.aux with pvt := t.aux.pvt }, draws := s.draws + 1, out := answeredFrame st ty s.len } ∧
        (st ≠ .pvt → t.aux.pvt = s.aux.pvt) ∧
        (st = .pvt → t.aux.pvt.fixEpoch = a.fixEpoch ∧ t.aux.pvt.rest = a.data ∧
          (t.aux.pvt.flags.prevFixUsed = true ↔ (a.pvtStatus >>> 7) &&& 1#8 ≠ 0#8) ∧
          (t.aux.pvt.flags.twoD = true ↔ (a.pvtStatus >>> 6) &&& 1#8 ≠ 0#8) ∧
          (t.aux.pvt.flags.diffUsed = true ↔ (a.pvtStatus >>> 4) &&& 1#8 ≠ 0#8) ∧
          (t.aux.pvt.flags.raim = true ↔ (a.pvtStatus >>> 3) &&& 1#8 ≠ 0#8) ∧
          (t.aux.pvt.flags.differential = true ↔ (a.pvtStatus >>> 2) &&& 1#8 ≠ 0#8))) ∧
    ∀ n, s.par.attachedReach.pvt = some n → s.len < n →
      exec .pvt s = .fault .unwrittenBufferRead ∨
      (a.bad = true ∧ ∃ st : Status, (st = .error ∨ st = .noMessage) ∧
        exec .pvt s = .next { s with draws := s.draws + 1, out := answeredFrame st ty s.len })

/-! ### The raw-observation decoder -/

/-- RAW with a length that is not 31 + 30k: −1, no state written. -/
def Obligations.RawLengthErrorWritesNothing : Prop :=
  ∀ (s : State) (ty : Byte), frameReady s ty → frameKind s.par ty = .raw →
    (s.len < 31 ∨ (s.len - 31) % 30 ≠ 0) →
    exec .raw s = .next { s with out := answeredFrame .error ty s.len }

/-- RAW with a week of 4096 or more: 0, no state written. -/
def Obligations.RawWeekOutOfRangeIsDropped : Prop :=
  ∀ (s : State) (ty : Byte) (h : RawHeader), frameReady s ty → frameKind s.par ty = .raw →
    31 ≤ s.len → (s.len - 31) % 30 = 0 → readHeader s = .ok h → 4096 ≤ h.week.toNat →
    exec .raw s = .next { s with out := answeredFrame .noMessage ty s.len }

/-- RAW whose time of week is a NaN or an infinity: the model fault. -/
def Obligations.RawNonFiniteEpochFaults : Prop :=
  ∀ (s : State) (ty : Byte) (h : RawHeader), frameReady s ty → frameKind s.par ty = .raw →
    31 ≤ s.len → (s.len - 31) % 30 = 0 → readHeader s = .ok h → h.week.toNat < 4096 →
    fpFinite (fpAdd (fpOfBits h.tow) (fpOfBits h.gpsutc)) = false →
    exec .raw s = .fault .nonFiniteEpoch

/-- RAW more than 24 hours, or less than 1 ms, from the last accepted epoch: 0, no state written. -/
def Obligations.RawJumpOrDuplicateIsDropped : Prop :=
  ∀ (s : State) (ty : Byte) (h : RawHeader) (e : Epoch) (t0 : Time), frameReady s ty → frameKind s.par ty = .raw →
    31 ≤ s.len → (s.len - 31) % 30 = 0 → readHeader s = .ok h → h.week.toNat < 4096 →
    deriveEpoch (adjWeek s h.week.toNat) h s.optTadj = .ok e →
    s.lastEpoch = some t0 → (86400 < |e.t - t0| ∨ |e.t - t0| < 1 / 1000) →
    ∃ t, exec .raw s = .next t ∧ t = { s with draws := t.draws, out := answeredFrame .noMessage ty s.len }

/-- RAW, admitted, with a record of a defined signal code whose satellite does not resolve: −1, no state written. -/
def Obligations.RawUnresolvedSatelliteRejects : Prop :=
  ∀ (s : State) (ty : Byte) (h : RawHeader) (e : Epoch) (rs : List RawRecord),
    frameReady s ty → frameKind s.par ty = .raw →
    31 ≤ s.len → (s.len - 31) % 30 = 0 → readHeader s = .ok h → h.week.toNat < 4096 →
    deriveEpoch (adjWeek s h.week.toNat) h s.optTadj = .ok e →
    (∀ t0, s.lastEpoch = some t0 → |e.t - t0| ≤ 86400 ∧ 1 / 1000 ≤ |e.t - t0|) →
    readRecords s 29 ((s.len - 31) / 30) = .ok rs →
    (∃ r ∈ rs, ∃ g, signalOf s.par r.sig = some g ∧ satNo s.par g.sys (prnOf s.par g.sys r.prn) = none) →
    ∃ t, exec .raw s = .next t ∧ t = { s with draws := t.draws, out := answeredFrame .error ty s.len }

/-- RAW, admitted and validated: the epoch is committed, the observation set rebuilt from empty by the records in order,
status 1. With `last_epoch = None` every epoch is admitted. -/
def Obligations.RawAcceptedEpochIsCommitted : Prop :=
  ∀ (s : State) (ty : Byte) (h : RawHeader) (e : Epoch) (rs : List RawRecord),
    frameReady s ty → frameKind s.par ty = .raw →
    31 ≤ s.len → (s.len - 31) % 30 = 0 → readHeader s = .ok h → h.week.toNat < 4096 →
    deriveEpoch (adjWeek s h.week.toNat) h s.optTadj = .ok e →
    (∀ t0, s.lastEpoch = some t0 → |e.t - t0| ≤ 86400 ∧ 1 / 1000 ≤ |e.t - t0|) →
    readRecords s 29 ((s.len - 31) / 30) = .ok rs →
    (∀ r ∈ rs, ∀ g, signalOf s.par r.sig = some g → satNo s.par g.sys (prnOf s.par g.sys r.prn) ≠ none) →
    ∃ t, exec .raw s = .next t ∧
      t = { s with lastEpoch := some e.t,
                   obs := (rs.foldl (decodeRecord s.par e) ⟨[], s.halfc⟩).obs,
                   halfc := (rs.foldl (decodeRecord s.par e) ⟨[], s.halfc⟩).halfc,
                   draws := t.draws, out := answeredFrame .observation ty s.len }

/-- RAW: a status that is not 1 leaves `obs`, `last_epoch` and `halfc` as they were; status 1 leaves an observation set
of the epoch then held. -/
def Obligations.RawRejectionLeavesObservations : Prop :=
  ∀ (s t : State), exec .raw s = .next t →
    (t.out.status = some .observation →
      ∃ e, t.lastEpoch = some e ∧ ∀ x ∈ t.obs, x.time = e) ∧
    (t.out.status ≠ some .observation → t = { s with draws := t.draws, out := t.out })

/-- The week handed to the epoch arithmetic obeys `AdjWeek`'s law (R245), and where the host fixed `m`, as D16 allows
(DESIGN CHOICE, log 8), it is that one. -/
def Obligations.WeekAdjustmentLaw : Prop :=
  ∀ (s : State) (w : Nat), (∃ m, adjWeek s w = w + s.par.weekRoll * m) ∧
    ∀ m, s.par.weekCycle = some m → adjWeek s w = w + s.par.weekRoll * m

/-- The epoch of a finite time of week (R246 to R248): the snapped time of the adjusted week, taken exactly (D17; DEDUCED,
log 16), and the sub-tick remainder.
With smoothing off that is the epoch and no offset applies; with smoothing on the offset to the nearest multiple of the
interval is taken off, and an offset that is not finite faults. -/
def Obligations.EpochIsSnappedThenSmoothed : Prop :=
  ∀ (week : Nat) (h : RawHeader) (tadj : F64) (tow tick tn toff : Fp) (t0 : Time),
    tow = fpAdd (fpOfBits h.tow) (fpOfBits h.gpsutc) →
    tick = fpMul (fpOfRat 10) (fpFloor (fpAdd (fpDiv tow (fpOfRat 10)) (fpOfRat (1 / 2)))) →
    fpFinite tow = true → fpFinite tick = true →
    t0 = 604800 * week + fpRat (fpMul tick (fpOfRat (1 / 1000))) →
    tn = fpDiv (fpOfRat (t0 - 604800 * ⌊t0 / 604800⌋)) (fpOfBits tadj) →
    toff = fpMul (fpSub tn (fpFloor (fpAdd tn (fpOfRat (1 / 2))))) (fpOfBits tadj) →
    (fpPositive (fpOfBits tadj) = false → deriveEpoch week h tadj = .ok ⟨t0, fpSub tow tick, .fin false 0⟩) ∧
    (fpPositive (fpOfBits tadj) = true → fpFinite toff = true →
      deriveEpoch week h tadj = .ok ⟨t0 - fpRat toff, fpSub tow tick, toff⟩) ∧
    (fpPositive (fpOfBits tadj) = true → fpFinite toff = false →
      deriveEpoch week h tadj = .error .nonFiniteEpoch)

/-- A whole number of milliseconds, of less than 2^40, snaps to the nearest multiple of 10, a tie toward +∞. -/
def Obligations.SnapGoesToNearestTick : Prop :=
  ∀ (neg : Bool) (n : Nat), n < 2 ^ 40 →
    ∃ (neg' : Bool) (m : Rat), snapTow (.fin neg (n : Rat)) = .fin neg' m ∧
      signed neg' m = ((10 * (((if neg then -(n : Int) else (n : Int)) + 5) / 10) : Int) : Rat)

/-! ### Records -/

/-- A record is skipped, and writes nothing, for an undefined signal code, for a value out of range or a NaN, for a full
set that lacks its satellite, and for a civil code over a precise slot. -/
def Obligations.SkippedRecordWritesNothing : Prop :=
  ∀ (p : Params) (e : Epoch) (d : Decoded) (r : RawRecord),
    (signalOf p r.sig = none → decodeRecord p e d r = d) ∧
    (inRange r = false → decodeRecord p e d r = d) ∧
    (∀ g sat, signalOf p r.sig = some g → recordSat p g r = some sat →
      ((obsFind d.obs sat = none → d.obs.length = p.maxObsSats → decodeRecord p e d r = d) ∧
       ∀ x c, obsFind d.obs sat = some x → (x.slot g.slot).code = some c → c.cls = .precise → g.code.cls = .civil →
        decodeRecord p e d r = d))

/-- The range test: magnitudes at the bounds pass, a NaN or an infinity in any of the three fields fails. -/
def Obligations.RangeSanityBounds : Prop :=
  ∀ r : RawRecord, inRange r = true ↔
    ∃ n1 m1 n2 m2 n3 m3,
      fpOfBits r.phase = .fin n1 m1 ∧ m1 ≤ 10000000000 ∧ fpOfBits r.range = .fin n2 m2 ∧ m2 ≤ 10000000000 ∧
      fpOfBits r.dopp = .fin n3 m3 ∧ m3 ≤ 100000

/-- A record that is not skipped writes every field of its slot by R261 to R267, leaves the entry's other slots and time
and every other entry, and the order of the entries, a new one coming last; its flag byte is the half-cycle byte, and
every other half-cycle byte stays. With the default
carriers (PRESUMED, log 2) the carrier of R261 is that of the GLONASS channel, 1602 MHz and 0.5625 MHz a channel, or
1575.42 MHz. -/
def Obligations.RecordWritesItsSlotOnly : Prop :=
  ∀ (p : Params) (e : Epoch) (d : Decoded) (r : RawRecord) (g : SignalRow) (sat : Nat),
    halfcWf d.halfc = true →
    signalOf p r.sig = some g → recordSat p g r = some sat → inRange r = true →
    (obsFind d.obs sat = none → d.obs.length ≠ p.maxObsSats) →
    (∀ x, obsFind d.obs sat = some x → codeLoses (x.slot g.slot).code g.code = false) →
    (∃ x, obsFind (decodeRecord p e d r).obs sat = some x ∧ HoldsRecord p e g r (x.slot g.slot) ∧
      lliIsEdge (x.slot g.slot) r.flag (halfcGet d.halfc sat g.slot) ∧
      x.time = ((obsFind d.obs sat).getD (freshEntry sat e.t)).time ∧
      ∀ k, k ≠ g.slot → x.slot k = ((obsFind d.obs sat).getD (freshEntry sat e.t)).slot k) ∧
    (∀ sat', sat' ≠ sat → obsFind (decodeRecord p e d r).obs sat' = obsFind d.obs sat') ∧
    (decodeRecord p e d r).obs.map (·.sat) =
      d.obs.map (·.sat) ++ (if obsFind d.obs sat = none then [sat] else []) ∧
    halfcGet (decodeRecord p e d r).halfc sat g.slot = r.flag ∧
    (∀ sat' k, ¬(sat' = sat ∧ k = g.slot) →
      halfcGet (decodeRecord p e d r).halfc sat' k = halfcGet d.halfc sat' k) ∧
    (p.carrierTable = defaultCarriers → g.slot = 0 → -128 ≤ r.chan → r.chan ≤ 127 →
      (g.sys = .glonass → carrierFreq p g.sys g.slot r.chan = .fin false (1602000000 + 562500 * r.chan)) ∧
      (g.sys = .gps ∨ g.sys = .sbas → carrierFreq p g.sys g.slot r.chan = .fin false 1575420000))

/-- Two records of one satellite and slot, one civil and one precise, in either order: the slot ends with the precise
record. Precise first, the civil record writes nothing, and the loss-of-lock bit compares with the half-cycle byte held
before. Civil first, the precise record overwrites every field, and the bit compares with the civil record's flag byte, or
with the byte held before where a precise slot made the civil record write nothing. -/
def Obligations.PreciseCodeIsRetained : Prop :=
  ∀ (p : Params) (e : Epoch) (d : Decoded) (civ pre : RawRecord) (gc gp : SignalRow) (sat : Nat),
    halfcWf d.halfc = true →
    signalOf p civ.sig = some gc → signalOf p pre.sig = some gp → gc.slot = gp.slot →
    gc.code.cls = .civil → gp.code.cls = .precise →
    recordSat p gc civ = some sat → recordSat p gp pre = some sat → inRange civ = true → inRange pre = true →
    (obsFind d.obs sat = none → d.obs.length ≠ p.maxObsSats) →
    decodeRecord p e (decodeRecord p e d pre) civ = decodeRecord p e d pre ∧
    (∃ x, obsFind (decodeRecord p e d pre).obs sat = some x ∧ HoldsRecord p e gp pre (x.slot gp.slot) ∧
      lliIsEdge (x.slot gp.slot) pre.flag (halfcGet d.halfc sat gp.slot) ∧
      halfcGet (decodeRecord p e d pre).halfc sat gp.slot = pre.flag) ∧
    ∃ x, obsFind (decodeRecord p e (decodeRecord p e d civ) pre).obs sat = some x ∧
      HoldsRecord p e gp pre (x.slot gp.slot) ∧
      ((∀ y c, obsFind d.obs sat = some y → (y.slot gp.slot).code = some c → c.cls ≠ .precise) →
        lliIsEdge (x.slot gp.slot) pre.flag civ.flag) ∧
      (∀ y c, obsFind d.obs sat = some y → (y.slot gp.slot).code = some c → c.cls = .precise →
        lliIsEdge (x.slot gp.slot) pre.flag (halfcGet d.halfc sat gp.slot)) ∧
      halfcGet (decodeRecord p e (decodeRecord p e d civ) pre).halfc sat gp.slot = pre.flag

/-- Two records of one satellite and slot in one message, processed in order. Unless the second is civil over a precise
first it overwrites every field, its loss-of-lock bit computed against the first one's flag byte; a second that is civil
over a precise first writes nothing. -/
def Obligations.RepeatedRecordComparesWithFirst : Prop :=
  ∀ (p : Params) (e : Epoch) (d : Decoded) (r1 r2 : RawRecord) (g1 g2 : SignalRow) (sat : Nat),
    halfcWf d.halfc = true →
    signalOf p r1.sig = some g1 → signalOf p r2.sig = some g2 → g2.slot = g1.slot →
    recordSat p g1 r1 = some sat → recordSat p g2 r2 = some sat → inRange r1 = true → inRange r2 = true →
    (obsFind d.obs sat = none → d.obs.length ≠ p.maxObsSats) →
    (∀ x, obsFind d.obs sat = some x → codeLoses (x.slot g1.slot).code g1.code = false) →
    (¬(g1.code.cls = .precise ∧ g2.code.cls = .civil) →
      ∃ x, obsFind (decodeRecord p e (decodeRecord p e d r1) r2).obs sat = some x ∧
        HoldsRecord p e g2 r2 (x.slot g1.slot) ∧ lliIsEdge (x.slot g1.slot) r2.flag r1.flag ∧
        halfcGet (decodeRecord p e (decodeRecord p e d r1) r2).halfc sat g1.slot = r2.flag) ∧
    (g1.code.cls = .precise → g2.code.cls = .civil →
      decodeRecord p e (decodeRecord p e d r1) r2 = decodeRecord p e d r1)

/-- With smoothing off (`toff` is 0.0) the stored phase is the raw phase, whatever finite value the carrier frequency
has. -/
def Obligations.PhaseUnchangedWithoutSmoothing : Prop :=
  ∀ (p : Params) (e : Epoch) (g : SignalRow) (r : RawRecord) (n : Bool) (m : Rat),
    e.toff = .fin false 0 → fpOfBits r.phase = .fin n m → fpFinite (carrierFreq p g.sys g.slot r.chan) = true →
    ∃ n', fpOfBits (carrierPhase p e g r) = .fin n' m ∧ signed n' m = signed n m

/-- A binary64 pattern that is no NaN is what its own value rounds to: reading and storing keep every bit. -/
def Obligations.StoringAReadValueKeepsItsBits : Prop :=
  ∀ (w raw : F64), fpOfBits w ≠ .nan → fpToBits64 raw (fpOfBits w) = w

/-! ### Field reads -/

/-- Field reads take their bytes little-endian: `U1` is the byte, `I1` the byte sign-extended, `U2` and `R8` the byte at the
highest index first. The header's fields are read where the layout places them, a record's from its start on, and record
`i` starts at 29 + 30·i. With the default layout (PRESUMED, log 2) those are the places R107 and R108 list. -/
def Obligations.FieldReadsTakeTheirBytes : Prop :=
  ∀ s : State,
    (∀ a b, a + 1 ≤ s.len → bufByte s a = some b →
      readU1 s a = .ok b ∧ readI1 s a = .ok (if b.toNat < 128 then (b.toNat : Int) else b.toNat - 256)) ∧
    (∀ a lo hi, a + 2 ≤ s.len → holdsBytes s a [lo, hi] → readU2 s a = .ok (hi ++ lo)) ∧
    (∀ a b0 b1 b2 b3 b4 b5 b6 b7, a + 8 ≤ s.len → holdsBytes s a [b0, b1, b2, b3, b4, b5, b6, b7] →
      readR8 s a = .ok (b7 ++ b6 ++ b5 ++ b4 ++ b3 ++ b2 ++ b1 ++ b0)) ∧
    (∀ h, readHeader s = .ok h ↔
      readR8 s s.par.layout.tow = .ok h.tow ∧ readU2 s s.par.layout.week = .ok h.week ∧
      readR8 s s.par.layout.gpsutc = .ok h.gpsutc) ∧
    (∀ r x, readRecord s r = .ok x ↔
      readU1 s (r + s.par.layout.sig) = .ok x.sig ∧ readU1 s (r + s.par.layout.prn) = .ok x.prn ∧
      readI1 s (r + s.par.layout.chan) = .ok x.chan ∧ readU1 s (r + s.par.layout.snr) = .ok x.snr ∧
      readR8 s (r + s.par.layout.phase) = .ok x.phase ∧ readR8 s (r + s.par.layout.range) = .ok x.range ∧
      readR8 s (r + s.par.layout.dopp) = .ok x.dopp ∧ readU1 s (r + s.par.layout.flag) = .ok x.flag) ∧
    (∀ k rs, readRecords s 29 k = .ok rs ↔
      rs.length = k ∧ ∀ i x, rs[i]? = some x → readRecord s (29 + 30 * i) = .ok x) ∧
    (s.par.layout = defaultLayout →
      s.par.layout.tow = 2 ∧ s.par.layout.week = 10 ∧ s.par.layout.gpsutc = 12 ∧ s.par.layout.sig = 0 ∧
      s.par.layout.prn = 1 ∧ s.par.layout.chan = 2 ∧ s.par.layout.snr = 3 ∧ s.par.layout.phase = 4 ∧
      s.par.layout.range = 12 ∧ s.par.layout.dopp = 20 ∧ s.par.layout.flag = 28)

/-- A field read whose bytes are not all below `len` faults. -/
def Obligations.ReadBeyondFrameFaults : Prop :=
  ∀ (s : State) (a n : Nat), s.len < a + n → memRead s a n = .error .unwrittenBufferRead

/-! ### The file variant -/

/-- FILE_STEP on an exhausted source: −2; a partial frame is kept, or dropped, as the parameter says. -/
def Obligations.FileStepAtEndOfInput : Prop :=
  ∀ s : State,
    (s.par.eofDiscardsPartial = false →
      exec (.fileStep []) s = .next { s with out := ⟨some .endOfInput, none, some []⟩ }) ∧
    (s.par.eofDiscardsPartial = true →
      exec (.fileStep []) s =
        .next { s with count := 0, toggle := false, out := ⟨some .endOfInput, none, some []⟩ })

/-- The sync-search bound: `SYNC_SEARCH_LIMIT` bytes that start no accumulation end the call with 0 in Idle or Header, and
exactly they are consumed. They are bytes discarded in Idle, a `SYNC` that starts a frame, and Header noise; where none is
a `SYNC` and the search begins in Idle, nothing changes. -/
def Obligations.SyncSearchStopsAtLimit : Prop :=
  ∀ (s : State) (noise rest : List Byte), s.par.ok = true → noise.length = s.par.syncSearchLimit →
    (s.count = 0 → (∀ b ∈ noise, b ≠ s.par.sync) →
      exec (.fileStep (noise ++ rest)) s = .next { s with out := ⟨some .noMessage, none, some rest⟩ }) ∧
    ∀ inHeader, s.count ≤ 1 → searchEnds s.par (decide (s.count = 1)) noise = some inHeader →
      ∃ t, exec (.fileStep (noise ++ rest)) s = .next t ∧
        t = { s with buf := t.buf, toggle := t.toggle, count := if inHeader = true then 1 else 0,
                     out := ⟨some .noMessage, none, some rest⟩ } ∧
        (inHeader = true → bufByte t 0 = some s.par.sync) ∧
        (s.count = 1 ∨ s.par.sync ∈ noise → t.toggle = false) ∧
        ∀ j, j ≠ 0 → bufByte t j = bufByte s j

/-- A source that starts with `Frame(T, p)`: one FILE_STEP delivers exactly that frame to the dispatcher, as `BYTE_IN` of
its bytes would, and leaves what follows it unconsumed. An unrecognised frame answers 0 with its tag. -/
def Obligations.FileStepDeliversOneFrame : Prop :=
  ∀ (s : State) (ty : Byte) (payload rest : List Byte),
    s.par.ok = true → 2 ≤ s.par.syncSearchLimit → s.count = 0 → ty ≠ s.par.sync → ty ≠ s.par.endMark →
    4 + payload.length ≤ s.par.maxFrame →
    ∃ u : State,
      exec (.fileStep (frame s.par ty payload ++ rest)) s = mapNext (State.giveRest rest) (dispatch u) ∧
      u = { s with buf := u.buf, toggle := true, len := 4 + payload.length, out := Output.none } ∧
      holdsBytes u 0 (frameBuffer s.par ty payload) ∧
      (∀ j, 4 + payload.length ≤ j → bufByte u j = bufByte s j) ∧
      (frameKind s.par ty = .unrecognised →
        exec (.fileStep (frame s.par ty payload ++ rest)) s =
          .next { u with out := ⟨some .noMessage, some (ty, 4 + payload.length), some rest⟩ })

/-- One FILE_STEP consumes at most `SYNC_SEARCH_LIMIT + 2·MAX_FRAME` bytes, and gives back what it did not consume. -/
def Obligations.FileStepConsumesBoundedInput : Prop :=
  ∀ (s t : State) (src : List Byte), s.par.ok = true → Inv s → exec (.fileStep src) s = .next t →
    ∃ used rest, t.out.rest = some rest ∧ src = used ++ rest ∧
      used.length ≤ s.par.syncSearchLimit + 2 * s.par.maxFrame

/-- FILE_STEP is the same stuffing and toggle logic: unless it met the end of input, the bytes it consumed, given to
`BYTE_IN` one at a time, leave the same state and end with the same status and tag. Where it met the end of input, the
`BYTE_IN`s of the whole source leave the state it keeps, or whose partial frame it drops where `EOF_DISCARDS_PARTIAL` is
true; nothing is left unconsumed and no tag is answered. -/
def Obligations.FileStepRefinesByteIn : Prop :=
  ∀ (s t : State) (src : List Byte), exec (.fileStep src) s = .next t →
    (t.out.status ≠ some .endOfInput →
      ∃ used rest u, t.out.rest = some rest ∧ src = used ++ rest ∧ runBytes used s = .next u ∧
        t = { u with out := { u.out with rest := some rest } }) ∧
    (t.out.status = some .endOfInput →
      ∃ u, runBytes src s = .next u ∧
        (s.par.eofDiscardsPartial = false → t = { u with out := ⟨some .endOfInput, none, some []⟩ }) ∧
        (s.par.eofDiscardsPartial = true →
          t = { u with count := 0, toggle := false, out := ⟨some .endOfInput, none, some []⟩ }))

/-! ### RESET, CONFIGURE, the step -/

/-- RESET sets every component of the Receiver State. -/
def Obligations.ResetSetsEveryComponent : Prop :=
  ∀ s : State, ∃ t, exec .reset s = .next t ∧
    t.count = 0 ∧ t.toggle = false ∧ t.len = 0 ∧ (∀ j, bufByte t j = none) ∧ t.lastEpoch = none ∧ t.obs = [] ∧
    (∀ sat k, halfcGet t.halfc sat k = 0#8) ∧ t.optAcceptAll = false ∧ t.optTadj = 0#64 ∧ t.aux = s.par.auxInit ∧
    t.par = s.par ∧ t.input = s.input ∧ t.out.status = none

/-- The state a session starts in, with the parameters the model names (logs 2, 3, 4, 14, 25, 30). -/
def Obligations.ResetStateMatchesTable : Prop :=
  State.reset.count = 0 ∧ State.reset.toggle = false ∧ State.reset.len = 0 ∧ (∀ j, bufByte State.reset j = none) ∧
  State.reset.lastEpoch = none ∧ State.reset.obs = [] ∧ (∀ sat k, halfcGet State.reset.halfc sat k = 0#8) ∧
  State.reset.optAcceptAll = false ∧ State.reset.optTadj = 0#64 ∧ State.reset.aux = State.reset.par.auxInit

/-- CONFIGURE writes both registers with any value, and nothing else. -/
def Obligations.ConfigureWritesBothRegisters : Prop :=
  ∀ (s : State) (a : Bool) (x : F64),
    exec (.configure a x) s = .next { s with optAcceptAll := a, optTadj := x, out := Output.none }

/-- No operation and no row writes the parameters or the host's pending operations. -/
def Obligations.ParametersAreFixed : Prop :=
  ∀ (i : Instr) (s t : State), exec i s = .next t → t.par = s.par ∧ t.input = s.input

/-- `obs`, `last_epoch` and `halfc` change only in an operation that answers 1, or in RESET; and only RESET takes
`last_epoch` back to `None`. -/
def Obligations.ObservationsChangeOnlyWithStatusOne : Prop :=
  ∀ (i : Instr) (s t : State), exec i s = .next t → i ≠ .reset →
    (t.out.status ≠ some .observation → t.obs = s.obs ∧ t.lastEpoch = s.lastEpoch ∧ t.halfc = s.halfc) ∧
    (s.lastEpoch ≠ none → t.lastEpoch ≠ none)

/-- A step runs the host's oldest pending operation, on the state with that operation taken; with none pending the block
does nothing; a parameter set that breaks R7 is refused. The pending operations are the model's own (log 9), the refusal
is the model's choice (log 20). -/
def Obligations.StepRunsOldestOperation : Prop :=
  ∀ s : State,
    (∀ op rest, s.par.ok = true → s.input = op :: rest → step s = exec op.toInstr { s with input := rest }) ∧
    (s.par.ok = true → s.input = [] → step s = .next s) ∧
    (s.par.ok = false → step s = .refused .badParameters)

/-- The invariant holds after reset. -/
def Obligations.InvariantHoldsAtReset : Prop := Inv State.reset

/-- Every step keeps the invariant. -/
def Obligations.StepKeepsInvariant : Prop := ∀ s t : State, Inv s → step s = .next t → Inv t

/-- In every state of the invariant each host operation answers a next state, or completes a raw-observation frame and
faults on a non-finite epoch, or completes a frame shorter than the layout the host's parameter gives its attached decoder
and faults on the unwritten read (R315; log 30): the block itself never reads an unwritten byte, and no operation is
refused. That an attached decoder with no such layout never faults is the model's choice (DESIGN CHOICE, logs 12, 30). -/
def Obligations.HostOperationsAnswer : Prop :=
  ∀ (s : State) (op : HostOp), s.par.ok = true → Inv s →
    (∃ t, exec op.toInstr s = .next t) ∨
    (exec op.toInstr s = .fault .nonFiniteEpoch ∧
      ∃ ty n, completesFrame s op ty n ∧ frameKind s.par ty = .raw) ∨
    (exec op.toInstr s = .fault .unwrittenBufferRead ∧
      ∃ ty n m, completesFrame s op ty n ∧ s.par.attachedReach.layout (frameKind s.par ty) = some m ∧ n < m)
end

