-- ==== Sys2Proof/Laws/State.lean ====
section
/-! SUPPORT. One lemma per field per update of the state, each true by unfolding, so that no later proof unfolds a record
update. -/

namespace Sys2Proof.Machine

/-! `State.start` -/
@[simp] theorem State.start_count (s : State) : (s.start).count = s.count := rfl
@[simp] theorem State.start_toggle (s : State) : (s.start).toggle = s.toggle := rfl
@[simp] theorem State.start_buf (s : State) : (s.start).buf = s.buf := rfl
@[simp] theorem State.start_len (s : State) : (s.start).len = s.len := rfl
@[simp] theorem State.start_lastEpoch (s : State) : (s.start).lastEpoch = s.lastEpoch := rfl
@[simp] theorem State.start_obs (s : State) : (s.start).obs = s.obs := rfl
@[simp] theorem State.start_halfc (s : State) : (s.start).halfc = s.halfc := rfl
@[simp] theorem State.start_optAcceptAll (s : State) : (s.start).optAcceptAll = s.optAcceptAll := rfl
@[simp] theorem State.start_optTadj (s : State) : (s.start).optTadj = s.optTadj := rfl
@[simp] theorem State.start_aux (s : State) : (s.start).aux = s.aux := rfl
@[simp] theorem State.start_par (s : State) : (s.start).par = s.par := rfl
@[simp] theorem State.start_draws (s : State) : (s.start).draws = s.draws := rfl
@[simp] theorem State.start_input (s : State) : (s.start).input = s.input := rfl
@[simp] theorem State.start_out (s : State) : (s.start).out = Output.none := rfl


/-! `State.ret` -/
@[simp] theorem State.ret_count (st : Status) (s : State) : (s.ret st).count = s.count := rfl
@[simp] theorem State.ret_toggle (st : Status) (s : State) : (s.ret st).toggle = s.toggle := rfl
@[simp] theorem State.ret_buf (st : Status) (s : State) : (s.ret st).buf = s.buf := rfl
@[simp] theorem State.ret_len (st : Status) (s : State) : (s.ret st).len = s.len := rfl
@[simp] theorem State.ret_lastEpoch (st : Status) (s : State) : (s.ret st).lastEpoch = s.lastEpoch := rfl
@[simp] theorem State.ret_obs (st : Status) (s : State) : (s.ret st).obs = s.obs := rfl
@[simp] theorem State.ret_halfc (st : Status) (s : State) : (s.ret st).halfc = s.halfc := rfl
@[simp] theorem State.ret_optAcceptAll (st : Status) (s : State) : (s.ret st).optAcceptAll = s.optAcceptAll := rfl
@[simp] theorem State.ret_optTadj (st : Status) (s : State) : (s.ret st).optTadj = s.optTadj := rfl
@[simp] theorem State.ret_aux (st : Status) (s : State) : (s.ret st).aux = s.aux := rfl
@[simp] theorem State.ret_par (st : Status) (s : State) : (s.ret st).par = s.par := rfl
@[simp] theorem State.ret_draws (st : Status) (s : State) : (s.ret st).draws = s.draws := rfl
@[simp] theorem State.ret_input (st : Status) (s : State) : (s.ret st).input = s.input := rfl
@[simp] theorem State.ret_out (st : Status) (s : State) : (s.ret st).out = { s.out with status := some st } := rfl


/-! `State.emitTag` -/
@[simp] theorem State.emitTag_count (t : Byte) (s : State) : (s.emitTag t).count = s.count := rfl
@[simp] theorem State.emitTag_toggle (t : Byte) (s : State) : (s.emitTag t).toggle = s.toggle := rfl
@[simp] theorem State.emitTag_buf (t : Byte) (s : State) : (s.emitTag t).buf = s.buf := rfl
@[simp] theorem State.emitTag_len (t : Byte) (s : State) : (s.emitTag t).len = s.len := rfl
@[simp] theorem State.emitTag_lastEpoch (t : Byte) (s : State) : (s.emitTag t).lastEpoch = s.lastEpoch := rfl
@[simp] theorem State.emitTag_obs (t : Byte) (s : State) : (s.emitTag t).obs = s.obs := rfl
@[simp] theorem State.emitTag_halfc (t : Byte) (s : State) : (s.emitTag t).halfc = s.halfc := rfl
@[simp] theorem State.emitTag_optAcceptAll (t : Byte) (s : State) : (s.emitTag t).optAcceptAll = s.optAcceptAll := rfl
@[simp] theorem State.emitTag_optTadj (t : Byte) (s : State) : (s.emitTag t).optTadj = s.optTadj := rfl
@[simp] theorem State.emitTag_aux (t : Byte) (s : State) : (s.emitTag t).aux = s.aux := rfl
@[simp] theorem State.emitTag_par (t : Byte) (s : State) : (s.emitTag t).par = s.par := rfl
@[simp] theorem State.emitTag_draws (t : Byte) (s : State) : (s.emitTag t).draws = s.draws := rfl
@[simp] theorem State.emitTag_input (t : Byte) (s : State) : (s.emitTag t).input = s.input := rfl
@[simp] theorem State.emitTag_out (t : Byte) (s : State) : (s.emitTag t).out = ⟨none, some (t, s.len), none⟩ := rfl


/-! `State.giveRest` -/
@[simp] theorem State.giveRest_count (r : List Byte) (s : State) : (s.giveRest r).count = s.count := rfl
@[simp] theorem State.giveRest_toggle (r : List Byte) (s : State) : (s.giveRest r).toggle = s.toggle := rfl
@[simp] theorem State.giveRest_buf (r : List Byte) (s : State) : (s.giveRest r).buf = s.buf := rfl
@[simp] theorem State.giveRest_len (r : List Byte) (s : State) : (s.giveRest r).len = s.len := rfl
@[simp] theorem State.giveRest_lastEpoch (r : List Byte) (s : State) : (s.giveRest r).lastEpoch = s.lastEpoch := rfl
@[simp] theorem State.giveRest_obs (r : List Byte) (s : State) : (s.giveRest r).obs = s.obs := rfl
@[simp] theorem State.giveRest_halfc (r : List Byte) (s : State) : (s.giveRest r).halfc = s.halfc := rfl
@[simp] theorem State.giveRest_optAcceptAll (r : List Byte) (s : State) : (s.giveRest r).optAcceptAll = s.optAcceptAll := rfl
@[simp] theorem State.giveRest_optTadj (r : List Byte) (s : State) : (s.giveRest r).optTadj = s.optTadj := rfl
@[simp] theorem State.giveRest_aux (r : List Byte) (s : State) : (s.giveRest r).aux = s.aux := rfl
@[simp] theorem State.giveRest_par (r : List Byte) (s : State) : (s.giveRest r).par = s.par := rfl
@[simp] theorem State.giveRest_draws (r : List Byte) (s : State) : (s.giveRest r).draws = s.draws := rfl
@[simp] theorem State.giveRest_input (r : List Byte) (s : State) : (s.giveRest r).input = s.input := rfl
@[simp] theorem State.giveRest_out (r : List Byte) (s : State) : (s.giveRest r).out = { s.out with rest := some r } := rfl


/-! `State.startFrame` -/
@[simp] theorem State.startFrame_count (s : State) : (s.startFrame).count = 1 := rfl
@[simp] theorem State.startFrame_toggle (s : State) : (s.startFrame).toggle = false := rfl
@[simp] theorem State.startFrame_buf (s : State) : (s.startFrame).buf = bufPut s.buf 0 s.par.sync := rfl
@[simp] theorem State.startFrame_len (s : State) : (s.startFrame).len = s.len := rfl
@[simp] theorem State.startFrame_lastEpoch (s : State) : (s.startFrame).lastEpoch = s.lastEpoch := rfl
@[simp] theorem State.startFrame_obs (s : State) : (s.startFrame).obs = s.obs := rfl
@[simp] theorem State.startFrame_halfc (s : State) : (s.startFrame).halfc = s.halfc := rfl
@[simp] theorem State.startFrame_optAcceptAll (s : State) : (s.startFrame).optAcceptAll = s.optAcceptAll := rfl
@[simp] theorem State.startFrame_optTadj (s : State) : (s.startFrame).optTadj = s.optTadj := rfl
@[simp] theorem State.startFrame_aux (s : State) : (s.startFrame).aux = s.aux := rfl
@[simp] theorem State.startFrame_par (s : State) : (s.startFrame).par = s.par := rfl
@[simp] theorem State.startFrame_draws (s : State) : (s.startFrame).draws = s.draws := rfl
@[simp] theorem State.startFrame_input (s : State) : (s.startFrame).input = s.input := rfl
@[simp] theorem State.startFrame_out (s : State) : (s.startFrame).out = s.out := rfl


/-! `State.storeByte` -/
@[simp] theorem State.storeByte_count (b : Byte) (s : State) : (s.storeByte b).count = s.count + 1 := rfl
@[simp] theorem State.storeByte_toggle (b : Byte) (s : State) : (s.storeByte b).toggle = s.toggle := rfl
@[simp] theorem State.storeByte_buf (b : Byte) (s : State) : (s.storeByte b).buf = bufPut s.buf s.count b := rfl
@[simp] theorem State.storeByte_len (b : Byte) (s : State) : (s.storeByte b).len = s.len := rfl
@[simp] theorem State.storeByte_lastEpoch (b : Byte) (s : State) : (s.storeByte b).lastEpoch = s.lastEpoch := rfl
@[simp] theorem State.storeByte_obs (b : Byte) (s : State) : (s.storeByte b).obs = s.obs := rfl
@[simp] theorem State.storeByte_halfc (b : Byte) (s : State) : (s.storeByte b).halfc = s.halfc := rfl
@[simp] theorem State.storeByte_optAcceptAll (b : Byte) (s : State) : (s.storeByte b).optAcceptAll = s.optAcceptAll := rfl
@[simp] theorem State.storeByte_optTadj (b : Byte) (s : State) : (s.storeByte b).optTadj = s.optTadj := rfl
@[simp] theorem State.storeByte_aux (b : Byte) (s : State) : (s.storeByte b).aux = s.aux := rfl
@[simp] theorem State.storeByte_par (b : Byte) (s : State) : (s.storeByte b).par = s.par := rfl
@[simp] theorem State.storeByte_draws (b : Byte) (s : State) : (s.storeByte b).draws = s.draws := rfl
@[simp] theorem State.storeByte_input (b : Byte) (s : State) : (s.storeByte b).input = s.input := rfl
@[simp] theorem State.storeByte_out (b : Byte) (s : State) : (s.storeByte b).out = s.out := rfl


/-! `State.flipToggle` -/
@[simp] theorem State.flipToggle_count (s : State) : (s.flipToggle).count = s.count := rfl
@[simp] theorem State.flipToggle_toggle (s : State) : (s.flipToggle).toggle = !s.toggle := rfl
@[simp] theorem State.flipToggle_buf (s : State) : (s.flipToggle).buf = s.buf := rfl
@[simp] theorem State.flipToggle_len (s : State) : (s.flipToggle).len = s.len := rfl
@[simp] theorem State.flipToggle_lastEpoch (s : State) : (s.flipToggle).lastEpoch = s.lastEpoch := rfl
@[simp] theorem State.flipToggle_obs (s : State) : (s.flipToggle).obs = s.obs := rfl
@[simp] theorem State.flipToggle_halfc (s : State) : (s.flipToggle).halfc = s.halfc := rfl
@[simp] theorem State.flipToggle_optAcceptAll (s : State) : (s.flipToggle).optAcceptAll = s.optAcceptAll := rfl
@[simp] theorem State.flipToggle_optTadj (s : State) : (s.flipToggle).optTadj = s.optTadj := rfl
@[simp] theorem State.flipToggle_aux (s : State) : (s.flipToggle).aux = s.aux := rfl
@[simp] theorem State.flipToggle_par (s : State) : (s.flipToggle).par = s.par := rfl
@[simp] theorem State.flipToggle_draws (s : State) : (s.flipToggle).draws = s.draws := rfl
@[simp] theorem State.flipToggle_input (s : State) : (s.flipToggle).input = s.input := rfl
@[simp] theorem State.flipToggle_out (s : State) : (s.flipToggle).out = s.out := rfl


/-! `State.toIdle` -/
@[simp] theorem State.toIdle_count (s : State) : (s.toIdle).count = 0 := rfl
@[simp] theorem State.toIdle_toggle (s : State) : (s.toIdle).toggle = false := rfl
@[simp] theorem State.toIdle_buf (s : State) : (s.toIdle).buf = s.buf := rfl
@[simp] theorem State.toIdle_len (s : State) : (s.toIdle).len = s.len := rfl
@[simp] theorem State.toIdle_lastEpoch (s : State) : (s.toIdle).lastEpoch = s.lastEpoch := rfl
@[simp] theorem State.toIdle_obs (s : State) : (s.toIdle).obs = s.obs := rfl
@[simp] theorem State.toIdle_halfc (s : State) : (s.toIdle).halfc = s.halfc := rfl
@[simp] theorem State.toIdle_optAcceptAll (s : State) : (s.toIdle).optAcceptAll = s.optAcceptAll := rfl
@[simp] theorem State.toIdle_optTadj (s : State) : (s.toIdle).optTadj = s.optTadj := rfl
@[simp] theorem State.toIdle_aux (s : State) : (s.toIdle).aux = s.aux := rfl
@[simp] theorem State.toIdle_par (s : State) : (s.toIdle).par = s.par := rfl
@[simp] theorem State.toIdle_draws (s : State) : (s.toIdle).draws = s.draws := rfl
@[simp] theorem State.toIdle_input (s : State) : (s.toIdle).input = s.input := rfl
@[simp] theorem State.toIdle_out (s : State) : (s.toIdle).out = s.out := rfl


/-! `State.completeFrame` -/
@[simp] theorem State.completeFrame_count (s : State) : (s.completeFrame).count = 0 := rfl
@[simp] theorem State.completeFrame_toggle (s : State) : (s.completeFrame).toggle = s.toggle := rfl
@[simp] theorem State.completeFrame_buf (s : State) : (s.completeFrame).buf = s.buf := rfl
@[simp] theorem State.completeFrame_len (s : State) : (s.completeFrame).len = s.count := rfl
@[simp] theorem State.completeFrame_lastEpoch (s : State) : (s.completeFrame).lastEpoch = s.lastEpoch := rfl
@[simp] theorem State.completeFrame_obs (s : State) : (s.completeFrame).obs = s.obs := rfl
@[simp] theorem State.completeFrame_halfc (s : State) : (s.completeFrame).halfc = s.halfc := rfl
@[simp] theorem State.completeFrame_optAcceptAll (s : State) : (s.completeFrame).optAcceptAll = s.optAcceptAll := rfl
@[simp] theorem State.completeFrame_optTadj (s : State) : (s.completeFrame).optTadj = s.optTadj := rfl
@[simp] theorem State.completeFrame_aux (s : State) : (s.completeFrame).aux = s.aux := rfl
@[simp] theorem State.completeFrame_par (s : State) : (s.completeFrame).par = s.par := rfl
@[simp] theorem State.completeFrame_draws (s : State) : (s.completeFrame).draws = s.draws := rfl
@[simp] theorem State.completeFrame_input (s : State) : (s.completeFrame).input = s.input := rfl
@[simp] theorem State.completeFrame_out (s : State) : (s.completeFrame).out = s.out := rfl


/-! `State.drew` -/
@[simp] theorem State.drew_count (s : State) : (s.drew).count = s.count := rfl
@[simp] theorem State.drew_toggle (s : State) : (s.drew).toggle = s.toggle := rfl
@[simp] theorem State.drew_buf (s : State) : (s.drew).buf = s.buf := rfl
@[simp] theorem State.drew_len (s : State) : (s.drew).len = s.len := rfl
@[simp] theorem State.drew_lastEpoch (s : State) : (s.drew).lastEpoch = s.lastEpoch := rfl
@[simp] theorem State.drew_obs (s : State) : (s.drew).obs = s.obs := rfl
@[simp] theorem State.drew_halfc (s : State) : (s.drew).halfc = s.halfc := rfl
@[simp] theorem State.drew_optAcceptAll (s : State) : (s.drew).optAcceptAll = s.optAcceptAll := rfl
@[simp] theorem State.drew_optTadj (s : State) : (s.drew).optTadj = s.optTadj := rfl
@[simp] theorem State.drew_aux (s : State) : (s.drew).aux = s.aux := rfl
@[simp] theorem State.drew_par (s : State) : (s.drew).par = s.par := rfl
@[simp] theorem State.drew_draws (s : State) : (s.drew).draws = s.draws + 1 := rfl
@[simp] theorem State.drew_input (s : State) : (s.drew).input = s.input := rfl
@[simp] theorem State.drew_out (s : State) : (s.drew).out = s.out := rfl


/-! `State.attachedEnd` -/
@[simp] theorem State.attachedEnd_count (st : Status) (a : Aux) (s : State) : (s.attachedEnd st a).count = s.count := rfl
@[simp] theorem State.attachedEnd_toggle (st : Status) (a : Aux) (s : State) : (s.attachedEnd st a).toggle = s.toggle := rfl
@[simp] theorem State.attachedEnd_buf (st : Status) (a : Aux) (s : State) : (s.attachedEnd st a).buf = s.buf := rfl
@[simp] theorem State.attachedEnd_len (st : Status) (a : Aux) (s : State) : (s.attachedEnd st a).len = s.len := rfl
@[simp] theorem State.attachedEnd_lastEpoch (st : Status) (a : Aux) (s : State) : (s.attachedEnd st a).lastEpoch = s.lastEpoch := rfl
@[simp] theorem State.attachedEnd_obs (st : Status) (a : Aux) (s : State) : (s.attachedEnd st a).obs = s.obs := rfl
@[simp] theorem State.attachedEnd_halfc (st : Status) (a : Aux) (s : State) : (s.attachedEnd st a).halfc = s.halfc := rfl
@[simp] theorem State.attachedEnd_optAcceptAll (st : Status) (a : Aux) (s : State) : (s.attachedEnd st a).optAcceptAll = s.optAcceptAll := rfl
@[simp] theorem State.attachedEnd_optTadj (st : Status) (a : Aux) (s : State) : (s.attachedEnd st a).optTadj = s.optTadj := rfl
@[simp] theorem State.attachedEnd_aux (st : Status) (a : Aux) (s : State) : (s.attachedEnd st a).aux = a := rfl
@[simp] theorem State.attachedEnd_par (st : Status) (a : Aux) (s : State) : (s.attachedEnd st a).par = s.par := rfl
@[simp] theorem State.attachedEnd_draws (st : Status) (a : Aux) (s : State) : (s.attachedEnd st a).draws = s.draws + 1 := rfl
@[simp] theorem State.attachedEnd_input (st : Status) (a : Aux) (s : State) : (s.attachedEnd st a).input = s.input := rfl
@[simp] theorem State.attachedEnd_out (st : Status) (a : Aux) (s : State) : (s.attachedEnd st a).out = { s.out with status := some st } := rfl


/-! What selects a transition does not depend on the outputs. -/
@[simp] theorem State.start_ctx (s : State) : s.start.ctx = s.ctx := rfl
@[simp] theorem State.start_start (s : State) : s.start.start = s.start := rfl
theorem State.ctx_count (s : State) : s.ctx.count = s.count := rfl
theorem State.ctx_toggle (s : State) : s.ctx.toggle = s.toggle := rfl
theorem State.ctx_par (s : State) : s.ctx.par = s.par := rfl

end Sys2Proof.Machine
end

