-- ==== Sys2Proof/Laws/Attached.lean ====
section
/-! SUPPORT. What an attached decoder can do: it faults beyond a short frame, or ends with a status, writes `aux` only,
and only with a positive status; its answer does not depend on the outputs, `obs` or `halfc`. -/

namespace Sys2Proof.Machine

/-- The end of the attached decoder of a kind: `aux` by its status, one draw, the status answered; or, where the host's
parameter makes its layout longer than its frame, the fault of R87. -/
structure AttachedEnds (k : FrameKind) (s : State) (r : Result) (st : Status) : Prop where
  ends : (∃ new, r = .next (s.attachedEnd st (auxAfter st s.aux new))) ∨
    (r = .fault .unwrittenBufferRead ∧ ∃ n, s.par.attachedReach.layout k = some n ∧ s.len < n)

/-- What `withReach` does. -/
theorem withReach_cases (reach : Option Nat) (s : State) (r : Result) :
    withReach reach s r = r ∨
    (withReach reach s r = .fault .unwrittenBufferRead ∧ ∃ n, reach = some n ∧ s.len < n) := by
  cases reach with
  | none => exact .inl rfl
  | some n =>
    by_cases h : s.len < n
    · exact .inr ⟨by simp [withReach, readsBeyond, h], n, rfl, h⟩
    · exact .inl (by simp [withReach, readsBeyond, h])

/-- A layout that fits the frame is read without a fault. -/
theorem withReach_fits {reach : Option Nat} {s : State} (r : Result) (h : ∀ n, reach = some n → n ≤ s.len) :
    withReach reach s r = r := by
  rcases withReach_cases reach s r with e | ⟨_, n, hn, hl⟩
  · exact e
  · exact absurd (h n hn) (Nat.not_le.2 hl)

/-- A layout longer than the frame faults. -/
theorem withReach_beyond {n : Nat} {s : State} (r : Result) (h : s.len < n) :
    withReach (some n) s r = .fault .unwrittenBufferRead := by
  simp [withReach, readsBeyond, h]

/-- An outcome under `withReach` is an attached decoder's end where the outcome itself is. -/
theorem AttachedEnds.reach {k : FrameKind} {s : State} {r : Result} {st : Status} {reach : Option Nat}
    (h : AttachedEnds k s r st) (hr : ∀ n, reach = some n → s.par.attachedReach.layout k = some n) :
    AttachedEnds k s (withReach reach s r) st := by
  rcases withReach_cases reach s r with e | ⟨e, n, hn, hl⟩
  · rwa [e]
  · exact ⟨.inr ⟨e, n, hr n hn, hl⟩⟩

theorem auxAfter_of_not_pos {st : Status} (h : st.code ≤ 0) (old new : Aux) : auxAfter st old new = old := by
  simp [auxAfter, Int.not_lt.2 h]

theorem auxAfter_of_pos {st : Status} (h : 0 < st.code) (old new : Aux) : auxAfter st old new = new := by
  simp [auxAfter, h]

theorem attachedEphGps_ends (s : State) :
    AttachedEnds .eph s (attachedEphGps s) (ephGpsStatus s.lastEpoch s.optAcceptAll (attachedAnswer .eph s)) :=
  ⟨.inl ⟨_, rfl⟩⟩

theorem attachedEphGlo_ends (s : State) :
    AttachedEnds .eph s (attachedEphGlo s) (ephGloStatus s.lastEpoch (attachedAnswer .eph s)) := ⟨.inl ⟨_, rfl⟩⟩

theorem attachedBit_ends (s : State) : AttachedEnds .bit s (attachedBit s) (bitStatus (attachedAnswer .bit s)) :=
  ⟨.inl ⟨_, rfl⟩⟩

theorem attachedIono_ends (s : State) : AttachedEnds .iono s (attachedIono s) .ionUtc :=
  AttachedEnds.reach ⟨.inl ⟨_, by rw [auxAfter_of_pos (by decide)]⟩⟩ fun _ h => h

theorem attachedUtc_ends (s : State) : AttachedEnds .utc s (attachedUtc s) .ionUtc :=
  AttachedEnds.reach ⟨.inl ⟨_, by rw [auxAfter_of_pos (by decide)]⟩⟩ fun _ h => h

theorem attachedPvt_ends (s : State) : AttachedEnds .pvt s (attachedPvt s) (pvtStatus (attachedAnswer .pvt s)) := by
  refine AttachedEnds.reach ⟨.inl ⟨_, rfl⟩⟩ fun n h => ?_
  split at h
  · exact absurd h (by simp)
  · exact h

theorem attachedAlm_ends (s : State) :
    AttachedEnds .alm s (attachedAlm s) (almStatus s.par.almGloEnabled (attachedAnswer .alm s)) := ⟨.inl ⟨_, rfl⟩⟩

/-! ### The statuses (R213–R219) -/

theorem errorOrNoop_cases (err noop pick : Bool) :
    (errorOrNoop err noop pick = some .error ∧ err = true) ∨
    (errorOrNoop err noop pick = some .noMessage ∧ noop = true) ∨
    (errorOrNoop err noop pick = none ∧ err = false ∧ noop = false) := by
  cases err <;> cases noop <;> cases pick <;> simp [errorOrNoop]

/-- R213: the three statuses and the condition each needs. -/
theorem ephGpsStatus_cases (e : Option Time) (acc : Bool) (a : AttachedAnswer) :
    (ephGpsStatus e acc a = .error ∧ a.bad = true) ∨
    (ephGpsStatus e acc a = .noMessage ∧ (e = none ∨ (a.unchanged = true ∧ acc = false))) ∨
    (ephGpsStatus e acc a = .ephemeris ∧ a.bad = false ∧ e ≠ none ∧ (a.unchanged = true → acc = true)) := by
  unfold ephGpsStatus
  rcases errorOrNoop_cases a.bad (e.isNone || (a.unchanged && !acc)) a.pickError with ⟨h, h1⟩ | ⟨h, h1⟩ | ⟨h, h1, h2⟩
  · exact .inl ⟨by simp [h], h1⟩
  · refine .inr (.inl ⟨by simp [h], ?_⟩)
    simpa using h1
  · refine .inr (.inr ⟨by simp [h], h1, ?_⟩)
    simp only [Bool.or_eq_false_iff, Bool.and_eq_false_iff, Bool.not_eq_false'] at h2
    refine ⟨by intro he; simp [he] at h2, fun hu => ?_⟩
    simpa [hu] using h2.2

/-- R214: the three statuses and the condition each needs. -/
theorem ephGloStatus_cases (e : Option Time) (a : AttachedAnswer) :
    (ephGloStatus e a = .error ∧ a.bad = true) ∨
    (ephGloStatus e a = .noMessage ∧ (e = none ∨ a.unchanged = true)) ∨
    (ephGloStatus e a = .ephemeris ∧ a.bad = false ∧ e ≠ none) := by
  unfold ephGloStatus
  rcases errorOrNoop_cases a.bad (e.isNone || a.unchanged) a.pickError with ⟨h, h1⟩ | ⟨h, h1⟩ | ⟨h, h1, h2⟩
  · exact .inl ⟨by simp [h], h1⟩
  · refine .inr (.inl ⟨by simp [h], ?_⟩)
    simpa using h1
  · refine .inr (.inr ⟨by simp [h], h1, ?_⟩)
    intro he
    simp [he] at h2

theorem bitStatus_cases (a : AttachedAnswer) :
    bitStatus a = .error ∨ bitStatus a = .noMessage ∨ bitStatus a = .sbas := by
  unfold bitStatus
  split
  · exact .inr (.inr rfl)
  · split
    · exact .inl rfl
    · exact .inr (.inl rfl)

theorem pvtStatus_cases (a : AttachedAnswer) :
    pvtStatus a = .error ∨ pvtStatus a = .noMessage ∨ pvtStatus a = .pvt := by
  unfold pvtStatus
  split
  · split
    · exact .inl rfl
    · exact .inr (.inl rfl)
  · exact .inr (.inr rfl)

theorem almStatus_cases (g : Bool) (a : AttachedAnswer) : almStatus g a = .noMessage ∨ almStatus g a = .almanac := by
  unfold almStatus
  split
  · exact .inl rfl
  · exact .inr rfl

/-! ### What an attached decoder reads (R212) -/

theorem attachedView_congr {s t : State} (hb : t.buf = s.buf) (hl : t.len = s.len) (he : t.lastEpoch = s.lastEpoch)
    (ha : t.optAcceptAll = s.optAcceptAll) (hx : t.aux = s.aux) : attachedView t = attachedView s := by
  simp [attachedView, frameCells, hb, hl, he, ha, hx]

theorem attachedAnswer_congr {s t : State} (k : FrameKind) (hv : attachedView t = attachedView s)
    (hd : t.draws = s.draws) : attachedAnswer k t = attachedAnswer k s := by
  simp [attachedAnswer, hv, hd]

theorem ephSystem_congr {s t : State} (hb : t.buf = s.buf) (hl : t.len = s.len) (hp : t.par = s.par) :
    ephSystem t = ephSystem s := by
  simp [ephSystem, frameCells, hb, hl, hp]

@[simp] theorem attachedView_emitTag (b : Byte) (s : State) : attachedView (s.emitTag b) = attachedView s := rfl
@[simp] theorem attachedAnswer_emitTag (k : FrameKind) (b : Byte) (s : State) :
    attachedAnswer k (s.emitTag b) = attachedAnswer k s := rfl
@[simp] theorem ephSystem_emitTag (b : Byte) (s : State) : ephSystem (s.emitTag b) = ephSystem s := rfl

end Sys2Proof.Machine
end

