-- ==== Sys2Proof/Laws/Table.lean ====
section
/-! SUPPORT. Laws of the canonical tables: a read after a write, and that every write keeps the canonical form. -/

namespace Sys2Proof.Machine

variable {α : Type}

/-! ### Reads after writes -/

@[simp] theorem tableGet_insert_same (m : List (Nat × α)) (k : Nat) (v : α) :
    tableGet (tableInsert m k v) k = some v := by
  induction m with
  | nil => simp [tableInsert, tableGet]
  | cons c rest ih =>
    obtain ⟨a, w⟩ := c
    unfold tableInsert
    split
    · simp [tableGet]
    · split
      · simp [tableGet]
      · rename_i h
        simp [tableGet, h, ih]

theorem tableGet_insert_other (m : List (Nat × α)) (k j : Nat) (v : α) (h : j ≠ k) :
    tableGet (tableInsert m k v) j = tableGet m j := by
  induction m with
  | nil => simp [tableInsert, tableGet, Ne.symm h]
  | cons c rest ih =>
    obtain ⟨a, w⟩ := c
    unfold tableInsert
    split
    · simp [tableGet, Ne.symm h]
    · split
      · rename_i ha
        simp [tableGet, ha, Ne.symm h]
      · simp [tableGet, ih]

theorem tableGet_erase_other (m : List (Nat × α)) (k j : Nat) (h : j ≠ k) :
    tableGet (tableErase m k) j = tableGet m j := by
  induction m with
  | nil => rfl
  | cons c rest ih =>
    obtain ⟨a, w⟩ := c
    unfold tableErase
    split
    · rename_i ha
      simp [tableGet, ha, Ne.symm h]
    · simp [tableGet, ih]

theorem tableGet_none_of_lt (m : List (Nat × α)) (k : Nat) (h : ∀ c ∈ m, k < c.1) : tableGet m k = none := by
  induction m with
  | nil => rfl
  | cons c rest ih =>
    obtain ⟨a, w⟩ := c
    have ha : k < a := h (a, w) (by simp)
    simp only [tableGet]
    rw [if_neg (by omega)]
    exact ih (fun c hc => h c (by simp [hc]))

/-- Keys strictly rising, as a proposition over the list itself. -/
theorem rising_cons {a : Nat} {w : α} {rest : List (Nat × α)} :
    (((a, w) :: rest).map (·.1)).Pairwise (· < ·) ↔
      (∀ c ∈ rest, a < c.1) ∧ (rest.map (·.1)).Pairwise (· < ·) := by
  simp only [List.map_cons, List.pairwise_cons, List.mem_map, forall_exists_index, and_imp,
    forall_apply_eq_imp_iff₂]

theorem tableGet_erase_same (m : List (Nat × α)) (k : Nat) (h : (m.map (·.1)).Pairwise (· < ·)) :
    tableGet (tableErase m k) k = none := by
  induction m with
  | nil => rfl
  | cons c rest ih =>
    obtain ⟨a, w⟩ := c
    obtain ⟨h1, h2⟩ := rising_cons.1 h
    unfold tableErase
    split
    · rename_i ha
      exact tableGet_none_of_lt rest k (fun c hc => ha ▸ h1 c hc)
    · rename_i ha
      simp [tableGet, ha, ih h2]

/-! ### Members -/

theorem mem_tableInsert {m : List (Nat × α)} {k : Nat} {v : α} {c : Nat × α} (h : c ∈ tableInsert m k v) :
    c = (k, v) ∨ c ∈ m := by
  induction m with
  | nil => simpa [tableInsert] using h
  | cons d rest ih =>
    obtain ⟨a, w⟩ := d
    unfold tableInsert at h
    split at h
    · simpa using h
    · split at h
      · simp only [List.mem_cons] at h ⊢
        tauto
      · simp only [List.mem_cons] at h ⊢
        rcases h with h | h
        · exact .inr (.inl h)
        · rcases ih h with h | h
          · exact .inl h
          · exact .inr (.inr h)

theorem mem_tableErase {m : List (Nat × α)} {k : Nat} {c : Nat × α} (h : c ∈ tableErase m k) : c ∈ m := by
  induction m with
  | nil => exact h
  | cons d rest ih =>
    obtain ⟨a, w⟩ := d
    unfold tableErase at h
    split at h
    · exact List.mem_cons_of_mem _ h
    · simp only [List.mem_cons] at h ⊢
      rcases h with h | h
      · exact .inl h
      · exact .inr (ih h)

/-! ### The canonical form is kept -/

theorem rising_insert (m : List (Nat × α)) (k : Nat) (v : α) (h : (m.map (·.1)).Pairwise (· < ·)) :
    ((tableInsert m k v).map (·.1)).Pairwise (· < ·) := by
  induction m with
  | nil => simp [tableInsert]
  | cons c rest ih =>
    obtain ⟨a, w⟩ := c
    obtain ⟨h1, h2⟩ := rising_cons.1 h
    unfold tableInsert
    split
    · rename_i hk
      refine rising_cons.2 ⟨fun c hc => ?_, h⟩
      rcases List.mem_cons.1 hc with rfl | hc
      · exact hk
      · exact lt_trans hk (h1 c hc)
    · split
      · rename_i ha
        exact rising_cons.2 ⟨fun c hc => ha ▸ h1 c hc, h2⟩
      · rename_i hk ha
        refine rising_cons.2 ⟨fun c hc => ?_, ih h2⟩
        rcases mem_tableInsert hc with rfl | hc
        · simp only; omega
        · exact h1 c hc

theorem rising_erase (m : List (Nat × α)) (k : Nat) (h : (m.map (·.1)).Pairwise (· < ·)) :
    ((tableErase m k).map (·.1)).Pairwise (· < ·) := by
  induction m with
  | nil => exact h
  | cons c rest ih =>
    obtain ⟨a, w⟩ := c
    obtain ⟨h1, h2⟩ := rising_cons.1 h
    unfold tableErase
    split
    · exact h2
    · exact rising_cons.2 ⟨fun c hc => h1 c (mem_tableErase hc), ih h2⟩

variable [DecidableEq α]

theorem tableWf_iff {dflt : Option α} {m : List (Nat × α)} :
    tableWf dflt m = true ↔ (m.map (·.1)).Pairwise (· < ·) ∧ ∀ c ∈ m, dflt ≠ some c.2 := by
  simp only [tableWf, Bool.and_eq_true, decide_eq_true_eq, List.all_eq_true]

/-- Every write of a table keeps its canonical form. -/
theorem tableWf_put {dflt : Option α} {m : List (Nat × α)} (k : Nat) (v : α) (h : tableWf dflt m = true) :
    tableWf dflt (tablePut dflt m k v) = true := by
  rw [tableWf_iff] at h ⊢
  unfold tablePut
  split
  · exact ⟨rising_erase m k h.1, fun c hc => h.2 c (mem_tableErase hc)⟩
  · rename_i hv
    refine ⟨rising_insert m k v h.1, fun c hc => ?_⟩
    rcases mem_tableInsert hc with rfl | hc
    · exact hv
    · exact h.2 c hc

theorem mem_tablePut {dflt : Option α} {m : List (Nat × α)} {k : Nat} {v : α} {c : Nat × α}
    (h : c ∈ tablePut dflt m k v) : c = (k, v) ∨ c ∈ m := by
  unfold tablePut at h
  split at h
  · exact .inr (mem_tableErase h)
  · exact mem_tableInsert h

/-! ### The buffer and the half-cycle array -/

theorem bufPut_eq (m : List Host.Cell) (i : Nat) (b : Byte) : bufPut m i b = tableInsert m i b := by
  simp [bufPut, tablePut]

@[simp] theorem bufPut_get_same (m : List Host.Cell) (i : Nat) (b : Byte) : tableGet (bufPut m i b) i = some b := by
  rw [bufPut_eq]
  exact tableGet_insert_same m i b

theorem bufPut_get_other (m : List Host.Cell) (i j : Nat) (b : Byte) (h : j ≠ i) :
    tableGet (bufPut m i b) j = tableGet m j := by
  rw [bufPut_eq]
  exact tableGet_insert_other m i j b h

/-- A byte that was written stays written. -/
theorem bufPut_isSome {m : List Host.Cell} {i j : Nat} {b : Byte} (h : (tableGet m j).isSome = true) :
    (tableGet (bufPut m i b) j).isSome = true := by
  by_cases hj : j = i
  · subst hj; simp
  · rwa [bufPut_get_other m i j b hj]

theorem bufWf_put {m : List Host.Cell} (i : Nat) (b : Byte) (h : bufWf m = true) : bufWf (bufPut m i b) = true :=
  tableWf_put i b h

theorem halfcWf_put {m : List Host.Cell} (sat : Nat) (k : Fin 3) (b : Byte) (h : halfcWf m = true) :
    halfcWf (halfcPut m sat k b) = true :=
  tableWf_put _ b h

theorem halfcCell_inj {sat sat' : Nat} {k k' : Fin 3} (h : halfcCell sat k = halfcCell sat' k') :
    sat = sat' ∧ k = k' := by
  simp only [halfcCell, Config.nslot] at h
  have := k.isLt
  have := k'.isLt
  exact ⟨by omega, Fin.ext (by omega)⟩

theorem halfcPut_get_same {m : List Host.Cell} (sat : Nat) (k : Fin 3) (b : Byte) (h : halfcWf m = true) :
    halfcGet (halfcPut m sat k b) sat k = b := by
  unfold halfcGet halfcPut tablePut
  split
  · rename_i hb
    rw [tableGet_erase_same m _ (tableWf_iff.1 h).1]
    simpa using hb
  · simp

theorem halfcPut_get_other (m : List Host.Cell) {sat sat' : Nat} {k k' : Fin 3} (b : Byte)
    (h : ¬(sat' = sat ∧ k' = k)) : halfcGet (halfcPut m sat k b) sat' k' = halfcGet m sat' k' := by
  have hc : halfcCell sat' k' ≠ halfcCell sat k := fun e => h (halfcCell_inj e)
  unfold halfcGet halfcPut tablePut
  split
  · rw [tableGet_erase_other m _ _ hc]
  · rw [tableGet_insert_other m _ _ b hc]

end Sys2Proof.Machine
end

