-- ==== Sys2Proof/Laws/Sync.lean ====
section
/-! SUPPORT. What the synchronizer's step and the guards of its rows can do. -/

namespace Sys2Proof.Machine

/-! ### Parameters -/

theorem Params.ok_marks {p : Params} (h : p.ok = true) : p.marks.Nodup := by
  have distinct : ∀ l : List Byte, bytesDistinct l = true → l.Nodup := by
    intro l
    induction l with
    | nil => simp
    | cons b bs ih =>
      simp only [bytesDistinct, Bool.and_eq_true, Bool.not_eq_true', List.nodup_cons]
      rintro ⟨h1, h2⟩
      exact ⟨by simpa using h1, ih h2⟩
  simp only [Params.ok, Bool.and_eq_true] at h
  exact distinct _ h.1.1.1.1

theorem Params.ok_sync_ne_end {p : Params} (h : p.ok = true) : p.sync ≠ p.endMark := by
  have := Params.ok_marks h
  simp only [Params.marks, List.nodup_cons, List.mem_cons, List.not_mem_nil] at this
  tauto

theorem Params.ok_maxFrame {p : Params} (h : p.ok = true) : 31 ≤ p.maxFrame := by
  simp only [Params.ok, Bool.and_eq_true, decide_eq_true_eq] at h
  exact h.1.1.1.2

theorem Params.ok_limit {p : Params} (h : p.ok = true) : 1 ≤ p.syncSearchLimit := by
  simp only [Params.ok, Bool.and_eq_true, decide_eq_true_eq] at h
  exact h.1.1.2

theorem Params.ok_layout {p : Params} (h : p.ok = true) : p.layout.ok = true := by
  simp only [Params.ok, Bool.and_eq_true] at h
  exact h.2

/-! ### Phases -/

theorem phaseOf_idle {n : Nat} : phaseOf n = .idle ↔ n = 0 := by
  unfold phaseOf
  split
  · simp [*]
  · split <;> simp [*]

theorem phaseOf_header {n : Nat} : phaseOf n = .header ↔ n = 1 := by
  unfold phaseOf
  split
  · simp [*]
  · split <;> simp [*]

theorem phaseOf_accumulating {n : Nat} : phaseOf n = .accumulating ↔ 2 ≤ n := by
  unfold phaseOf
  split
  · simp [*]
  · split
    · simp [*]
    · simp only [true_iff]; omega

/-! ### The flip and the store (R147, R148) -/

theorem flipAndStore_payload {b : Byte} {s : State} (h : b ≠ s.par.sync) : flipAndStore b s = s.storeByte b := by
  simp [flipAndStore, h]

theorem flipAndStore_sync_even {s : State} (h : s.toggle = false) :
    flipAndStore s.par.sync s = s.flipToggle.storeByte s.par.sync := by
  simp [flipAndStore, h]

theorem flipAndStore_sync_odd {s : State} (h : s.toggle = true) : flipAndStore s.par.sync s = s.flipToggle := by
  simp [flipAndStore, h]

/-- Everything the flip and the store do: the byte is stored or not, and nothing but `buf`, `count`, `toggle` is
written. -/
theorem flipAndStore_cases (b : Byte) (s : State) :
    (s.ctx.stores b = true ∧ flipAndStore b s =
      { s with buf := bufPut s.buf s.count b, count := s.count + 1, toggle := s.ctx.toggleAfter b }) ∨
    (s.ctx.stores b = false ∧ b = s.par.sync ∧ s.toggle = true ∧ flipAndStore b s = { s with toggle := false }) := by
  by_cases hb : b = s.par.sync
  · subst hb
    cases ht : s.toggle
    · left
      refine ⟨by simp [SyncCtx.stores, SyncCtx.toggleAfter, State.ctx, ht], ?_⟩
      rw [flipAndStore_sync_even ht]
      simp [State.storeByte, State.flipToggle, SyncCtx.toggleAfter, State.ctx, ht]
    · right
      refine ⟨by simp [SyncCtx.stores, SyncCtx.toggleAfter, State.ctx, ht], rfl, rfl, ?_⟩
      rw [flipAndStore_sync_odd ht]
      simp [State.flipToggle, ht]
  · left
    refine ⟨by simp [SyncCtx.stores, State.ctx, hb], ?_⟩
    rw [flipAndStore_payload hb]
    simp [State.storeByte, SyncCtx.toggleAfter, State.ctx, hb]

@[simp] theorem flipAndStore_count (b : Byte) (s : State) : (flipAndStore b s).count = s.ctx.countAfter b := by
  rcases flipAndStore_cases b s with ⟨h, e⟩ | ⟨h, _, _, e⟩ <;> rw [e] <;> simp [SyncCtx.countAfter, h, State.ctx_count]

@[simp] theorem flipAndStore_toggle (b : Byte) (s : State) : (flipAndStore b s).toggle = s.ctx.toggleAfter b := by
  rcases flipAndStore_cases b s with ⟨_, e⟩ | ⟨_, hb, ht, e⟩ <;> rw [e]
  simp [SyncCtx.toggleAfter, State.ctx, hb, ht]

@[simp] theorem flipAndStore_par (b : Byte) (s : State) : (flipAndStore b s).par = s.par := by
  rcases flipAndStore_cases b s with ⟨_, e⟩ | ⟨_, _, _, e⟩ <;> rw [e]

/-! ### The body of `BYTE_IN` -/

/-- Everything the body of R141 can do with a byte, phase by phase. -/
theorem syncStep_cases (b : Byte) (s : State) :
    (s.count = 0 ∧ b = s.par.sync ∧ syncStep b s = .more s.startFrame) ∨
    (s.count = 0 ∧ b ≠ s.par.sync ∧ syncStep b s = .more s) ∨
    (s.count = 1 ∧ (b = s.par.sync ∨ b = s.par.endMark) ∧ syncStep b s = .more s.toIdle) ∨
    (s.count = 1 ∧ b ≠ s.par.sync ∧ b ≠ s.par.endMark ∧ syncStep b s = .more (s.storeByte b)) ∨
    (2 ≤ s.count ∧ s.ctx.toggleAfter b = true ∧ b = s.par.endMark ∧
      syncStep b s = .done (flipAndStore b s).completeFrame) ∨
    (2 ≤ s.count ∧ ¬(s.ctx.toggleAfter b = true ∧ b = s.par.endMark) ∧ s.ctx.countAfter b = s.par.maxFrame ∧
      syncStep b s = .overflow (flipAndStore b s).toIdle) ∨
    (2 ≤ s.count ∧ ¬(s.ctx.toggleAfter b = true ∧ b = s.par.endMark) ∧ s.ctx.countAfter b ≠ s.par.maxFrame ∧
      syncStep b s = .more (flipAndStore b s)) := by
  by_cases h0 : s.count = 0
  · by_cases hb : b = s.par.sync
    · exact .inl ⟨h0, hb, by simp [syncStep, h0, hb]⟩
    · exact .inr (.inl ⟨h0, hb, by simp [syncStep, h0, hb]⟩)
  · by_cases h1 : s.count = 1
    · by_cases hb : b = s.par.sync ∨ b = s.par.endMark
      · exact .inr (.inr (.inl ⟨h1, hb, by simp [syncStep, h1, hb]⟩))
      · have hb' := not_or.1 hb
        exact .inr (.inr (.inr (.inl ⟨h1, hb'.1, hb'.2, by simp [syncStep, h1, hb'.1, hb'.2]⟩)))
    · have h2 : 2 ≤ s.count := by omega
      by_cases hd : s.ctx.toggleAfter b = true ∧ b = s.par.endMark
      · exact .inr (.inr (.inr (.inr (.inl ⟨h2, hd.1, hd.2, by simp [syncStep, h0, h1, hd.1, ← hd.2]⟩))))
      · by_cases hm : s.ctx.countAfter b = s.par.maxFrame
        · exact .inr (.inr (.inr (.inr (.inr (.inl ⟨h2, hd, hm, by simp [syncStep, h0, h1, hd, hm]⟩)))))
        · exact .inr (.inr (.inr (.inr (.inr (.inr ⟨h2, hd, hm, by simp [syncStep, h0, h1, hd, hm]⟩)))))

/-- A byte that completes a frame: it is `END` over an odd toggle in Accumulating; it is stored at `count`, and `len` counts
it (R149). -/
theorem syncStep_done {b : Byte} {s t : State} (hok : s.par.ok = true) (h : syncStep b s = .done t) :
    b = s.par.endMark ∧ 2 ≤ s.count ∧ s.toggle = true ∧
    t = { s with buf := bufPut s.buf s.count b, len := s.count + 1, count := 0 } := by
  have hse := Params.ok_sync_ne_end hok
  rcases syncStep_cases b s with ⟨_, _, e⟩ | ⟨_, _, e⟩ | ⟨_, _, e⟩ | ⟨_, _, _, e⟩ | ⟨h2, ht, hb, e⟩ | ⟨_, _, _, e⟩ |
    ⟨_, _, _, e⟩ <;> rw [e] at h <;> cases h
  have e2 := (flipAndStore_cases b s).resolve_right (by rintro ⟨_, hx, _⟩; exact hse (hx.symm.trans hb))
  have htg : s.toggle = true := by subst hb; simpa [SyncCtx.toggleAfter, State.ctx, hse.symm] using ht
  refine ⟨hb, h2, htg, ?_⟩
  rw [e2.2]
  simp [State.completeFrame, ht, htg]

/-- The state a byte's body left, whichever `return` it took. -/
def SyncResult.state : SyncResult → State
  | .more s => s
  | .done s => s
  | .overflow s => s

/-- The body of R141 writes `count`, `toggle`, `buf` and `len` only (R204's other half: no decoder register). -/
theorem syncStep_frame (b : Byte) (s : State) :
    (syncStep b s).state = { s with
      count := (syncStep b s).state.count, toggle := (syncStep b s).state.toggle,
      buf := (syncStep b s).state.buf, len := (syncStep b s).state.len } := by
  rcases syncStep_cases b s with ⟨_, _, e⟩ | ⟨_, _, e⟩ | ⟨_, _, e⟩ | ⟨_, _, _, e⟩ | ⟨_, _, _, e⟩ | ⟨_, _, _, e⟩ |
    ⟨_, _, _, e⟩ <;> rw [e]
  · rfl
  · rfl
  · rfl
  · rfl
  all_goals
    rcases flipAndStore_cases b s with ⟨_, e⟩ | ⟨_, _, _, e⟩ <;> simp only [SyncResult.state, e] <;> rfl

/-! ### The guards of the rows -/

/-- A row that answers a next state was enabled. -/
theorem onRow_next {i : Instr} {body : State → Result} {s t : State} (h : onRow i body s = .next t) :
    rowEnabled s.ctx i = true ∧ body s.start = .next t := by
  unfold onRow at h
  split at h
  · exact ⟨by assumption, h⟩
  · exact absurd h (by simp)

theorem onRow_enabled {i : Instr} {body : State → Result} {s : State} (h : rowEnabled s.ctx i = true) :
    onRow i body s = body s.start := by
  simp [onRow, h]

theorem onRow_disabled {i : Instr} {body : State → Result} {s : State} (h : rowEnabled s.ctx i = false) :
    onRow i body s = .refused .rowNotSelected := by
  simp [onRow, h]

end Sys2Proof.Machine
end

