-- ==== Sys2Proof/Laws/Reads.lean ====
section
/-! SUPPORT. What the field reads answer, and that they depend on the buffer, `len` and the layout alone. -/

namespace Sys2Proof.Machine

/-! ### Bytes -/

theorem bytesAt_isSome {m : List Host.Cell} {a n : Nat} (h : ∀ i, a ≤ i → i < a + n → (tableGet m i).isSome = true) :
    ∃ bs, bytesAt m a n = some bs := by
  induction n generalizing a with
  | zero => exact ⟨[], rfl⟩
  | succ n ih =>
    obtain ⟨b, hb⟩ := Option.isSome_iff_exists.1 (h a (le_refl a) (by omega))
    obtain ⟨bs, hbs⟩ := ih (a := a + 1) (fun i h1 h2 => h i (by omega) (by omega))
    exact ⟨b :: bs, by simp [bytesAt, hb, hbs]⟩

theorem memRead_beyond {s : State} {a n : Nat} (h : s.len < a + n) : memRead s a n = .error .unwrittenBufferRead := by
  simp [memRead, h]

/-- A read below `len` assembles the bytes it finds (R82). -/
theorem memRead_eq {s : State} {a n : Nat} {bs : List Byte} (h : a + n ≤ s.len) (hb : bytesAt s.buf a n = some bs) :
    memRead s a n = .ok (BitVec.ofNat (8 * n) (leNat bs)) := by
  simp [memRead, Nat.not_lt.2 h, hb]

/-- A read below `len` of bytes that were written answers. -/
theorem memRead_ok {s : State} {a n : Nat} (h : a + n ≤ s.len)
    (hw : ∀ i < s.len, (tableGet s.buf i).isSome = true) : ∃ w, memRead s a n = .ok w := by
  obtain ⟨bs, hbs⟩ := bytesAt_isSome (m := s.buf) (a := a) (n := n) (fun i _ h2 => hw i (by omega))
  exact ⟨_, memRead_eq h hbs⟩

/-- The fault of a read is always the one of R87. -/
theorem memRead_error {s : State} {a n : Nat} {f : Fault} (h : memRead s a n = .error f) :
    f = .unwrittenBufferRead := by
  unfold memRead at h
  split at h
  · exact (Except.error.inj h).symm
  · split at h
    · exact absurd h (by simp)
    · exact (Except.error.inj h).symm

theorem readU1_eq {s : State} {a : Nat} {b : Byte} (h : a + 1 ≤ s.len) (hb : tableGet s.buf a = some b) :
    readU1 s a = .ok b := by
  simp [readU1, memRead, Nat.not_lt.2 h, bytesAt, hb, leNat]

theorem readU1_inv {s : State} {a : Nat} {b : Byte} (h : readU1 s a = .ok b) :
    a + 1 ≤ s.len ∧ tableGet s.buf a = some b := by
  unfold readU1 memRead at h
  split at h
  · exact absurd h (by simp)
  · rename_i hl
    split at h
    · rename_i bs hbs
      simp only [bytesAt] at hbs
      split at hbs
      · rename_i b' bs' hb' hbs'
        simp only [Option.some.injEq] at hbs' hbs
        subst hbs' hbs
        simp only [leNat, Nat.mul_zero, Nat.add_zero] at h
        refine ⟨by omega, ?_⟩
        rw [hb']
        simpa using h
      · exact absurd hbs (by simp)
      · exact absurd hbs (by simp)
    · exact absurd h (by simp)

/-! ### Reads see the buffer, `len` and the parameters only -/

theorem memRead_congr {s t : State} (hb : t.buf = s.buf) (hl : t.len = s.len) (a n : Nat) :
    memRead t a n = memRead s a n := by
  simp [memRead, hb, hl]

theorem readU1_congr {s t : State} (hb : t.buf = s.buf) (hl : t.len = s.len) (a : Nat) : readU1 t a = readU1 s a :=
  memRead_congr hb hl a 1

theorem readHeader_congr {s t : State} (hb : t.buf = s.buf) (hl : t.len = s.len) (hp : t.par = s.par) :
    readHeader t = readHeader s := by
  simp only [readHeader, readR8, readU2, hp, memRead_congr hb hl]

theorem readRecord_congr {s t : State} (hb : t.buf = s.buf) (hl : t.len = s.len) (hp : t.par = s.par) (r : Nat) :
    readRecord t r = readRecord s r := by
  simp only [readRecord, readU1, readR8, readI1, hp, memRead_congr hb hl]

theorem readRecords_congr {s t : State} (hb : t.buf = s.buf) (hl : t.len = s.len) (hp : t.par = s.par) (r k : Nat) :
    readRecords t r k = readRecords s r k := by
  induction k generalizing r with
  | zero => rfl
  | succ k ih => simp only [readRecords, readRecord_congr hb hl hp, ih]

/-! ### The raw-observation reads answer when the layout is within its bounds and the bytes were written (R243, R275) -/

theorem readHeader_ok {s : State} (hl : s.par.layout.ok = true) (h : 31 ≤ s.len)
    (hw : ∀ i < s.len, (tableGet s.buf i).isSome = true) : ∃ x, readHeader s = .ok x := by
  simp only [RawLayout.ok, Bool.and_eq_true, decide_eq_true_eq] at hl
  obtain ⟨t, ht⟩ := memRead_ok (s := s) (a := s.par.layout.tow) (n := 8) (by omega) hw
  obtain ⟨w, hw'⟩ := memRead_ok (s := s) (a := s.par.layout.week) (n := 2) (by omega) hw
  obtain ⟨g, hg⟩ := memRead_ok (s := s) (a := s.par.layout.gpsutc) (n := 8) (by omega) hw
  exact ⟨⟨t, w, g⟩, by simp [readHeader, readR8, readU2, ht, hw', hg]⟩

theorem readRecord_ok {s : State} (hl : s.par.layout.ok = true) {r : Nat} (h : r + 30 ≤ s.len)
    (hw : ∀ i < s.len, (tableGet s.buf i).isSome = true) : ∃ x, readRecord s r = .ok x := by
  simp only [RawLayout.ok, Bool.and_eq_true, decide_eq_true_eq] at hl
  obtain ⟨x1, h1⟩ := memRead_ok (s := s) (a := r + s.par.layout.sig) (n := 1) (by omega) hw
  obtain ⟨x2, h2⟩ := memRead_ok (s := s) (a := r + s.par.layout.prn) (n := 1) (by omega) hw
  obtain ⟨x3, h3⟩ := memRead_ok (s := s) (a := r + s.par.layout.chan) (n := 1) (by omega) hw
  obtain ⟨x4, h4⟩ := memRead_ok (s := s) (a := r + s.par.layout.snr) (n := 1) (by omega) hw
  obtain ⟨x5, h5⟩ := memRead_ok (s := s) (a := r + s.par.layout.phase) (n := 8) (by omega) hw
  obtain ⟨x6, h6⟩ := memRead_ok (s := s) (a := r + s.par.layout.range) (n := 8) (by omega) hw
  obtain ⟨x7, h7⟩ := memRead_ok (s := s) (a := r + s.par.layout.dopp) (n := 8) (by omega) hw
  obtain ⟨x8, h8⟩ := memRead_ok (s := s) (a := r + s.par.layout.flag) (n := 1) (by omega) hw
  exact ⟨⟨x1, x2, BitVec.toInt x3, x4, x5, x6, x7, x8⟩,
    by simp [readRecord, readU1, readI1, readR8, h1, h2, h3, h4, h5, h6, h7, h8]⟩

theorem readRecords_ok {s : State} (hl : s.par.layout.ok = true) {r k : Nat} (h : r + 30 * k ≤ s.len)
    (hw : ∀ i < s.len, (tableGet s.buf i).isSome = true) : ∃ xs, readRecords s r k = .ok xs := by
  induction k generalizing r with
  | zero => exact ⟨[], rfl⟩
  | succ k ih =>
    obtain ⟨x, hx⟩ := readRecord_ok hl (r := r) (by omega) hw
    obtain ⟨xs, hxs⟩ := ih (r := r + Config.rawRecLen) (by simp only [Config.rawRecLen]; omega)
    exact ⟨x :: xs, by simp [readRecords, hx, hxs]⟩

end Sys2Proof.Machine
end

