-- ==== Sys2Proof/Laws/RawObs.lean ====
section
/-! SUPPORT. What the raw-observation decoder can do: the three ways it ends, and what a record writes. -/

namespace Sys2Proof.Machine

/-! ### The three ways RAW ends (R241) -/

/-- Everything `RawObs()` can do: it stops with a fault, or answers −1 or 0 and writes nothing, or commits an epoch. -/
theorem rawObs_cases (s : State) :
    (∃ f, rawObs s = .fault f) ∨
    (∃ st d, rawObs s = .next ({ s with draws := d }.ret st) ∧ (st = .error ∨ st = .noMessage)) ∨
    (∃ e rs h, rawObs s = .next ((commitEpoch e rs s.drew).ret .observation) ∧ readHeader s = .ok h ∧
      deriveEpoch (adjWeek s h.week.toNat) h s.optTadj = .ok e ∧
      readRecords s Config.rawRecBase (rawRecordCount s.len) = .ok rs) := by
  unfold rawObs
  split
  · exact .inr (.inl ⟨.error, s.draws, rfl, .inl rfl⟩)
  · cases hh : readHeader s with
    | error f => exact .inl ⟨f, rfl⟩
    | ok h =>
      dsimp only
      split
      · exact .inr (.inl ⟨.noMessage, s.draws, rfl, .inr rfl⟩)
      · cases he : deriveEpoch (adjWeek s h.week.toNat) h s.optTadj with
        | error f => exact .inl ⟨f, rfl⟩
        | ok e =>
          dsimp only [admitEpoch]
          split
          · exact .inr (.inl ⟨.noMessage, s.draws + 1, rfl, .inr rfl⟩)
          · split
            · exact .inr (.inl ⟨.noMessage, s.draws + 1, rfl, .inr rfl⟩)
            · cases hr : readRecords s.drew Config.rawRecBase (rawRecordCount s.drew.len) with
              | error f => exact .inl ⟨f, rfl⟩
              | ok rs =>
                dsimp only
                split
                · exact .inr (.inl ⟨.error, s.draws + 1, rfl, .inl rfl⟩)
                · exact .inr (.inr ⟨e, rs, h, rfl, rfl, he,
                    by rw [← readRecords_congr (s := s) (t := s.drew) rfl rfl rfl]; exact hr⟩)

/-- The epoch arithmetic faults only as R247 and R248 say. -/
theorem deriveEpoch_error {week : Nat} {h : RawHeader} {tadj : F64} {f : Fault}
    (he : deriveEpoch week h tadj = .error f) : f = .nonFiniteEpoch := by
  unfold deriveEpoch at he
  dsimp only at he
  split at he
  · split at he
    · unfold smoothEpoch at he
      split at he
      · dsimp only at he
        split at he
        · exact absurd he (by simp)
        · exact (Except.error.inj he).symm
      · exact absurd he (by simp)
    · exact (Except.error.inj he).symm
  · exact (Except.error.inj he).symm

/-! ### Entries and slots -/

@[simp] theorem ObsEntry.setSlot_sat (x : ObsEntry) (k : Fin 3) (v : Slot) : (x.setSlot k v).sat = x.sat := by
  unfold ObsEntry.setSlot; split <;> rfl

@[simp] theorem ObsEntry.setSlot_time (x : ObsEntry) (k : Fin 3) (v : Slot) : (x.setSlot k v).time = x.time := by
  unfold ObsEntry.setSlot; split <;> rfl

@[simp] theorem ObsEntry.slot_setSlot_same (x : ObsEntry) (k : Fin 3) (v : Slot) : (x.setSlot k v).slot k = v := by
  fin_cases k <;> rfl

theorem ObsEntry.slot_setSlot_other (x : ObsEntry) {j k : Fin 3} (v : Slot) (h : j ≠ k) :
    (x.setSlot k v).slot j = x.slot j := by
  fin_cases k <;> fin_cases j <;> first | rfl | exact absurd rfl h

@[simp] theorem freshEntry_slot (sat : Nat) (t : Time) (k : Fin 3) : (freshEntry sat t).slot k = Slot.zero := by
  fin_cases k <;> rfl

/-! ### The observation set -/

theorem obsFind_sat {obs : List ObsEntry} {sat : Nat} {x : ObsEntry} (h : obsFind obs sat = some x) : x.sat = sat := by
  simpa using List.find?_some h

theorem obsSet_find_same {obs : List ObsEntry} {sat : Nat} {k : Fin 3} {v : Slot} {x : ObsEntry}
    (h : obsFind obs sat = some x) : obsFind (obsSet obs sat k v) sat = some (x.setSlot k v) := by
  induction obs with
  | nil => exact absurd h (by simp [obsFind])
  | cons y ys ih =>
    by_cases hy : y.sat = sat
    · simp only [obsFind, List.find?, hy, decide_true, Option.some.injEq] at h
      subst h
      simp [obsSet, hy, obsFind]
    · simp only [obsFind, List.find?, hy, decide_false] at h
      simp only [obsSet, hy, if_false, obsFind, List.find?, decide_false]
      exact ih h

theorem obsSet_find_other {obs : List ObsEntry} {sat sat' : Nat} {k : Fin 3} {v : Slot} (h : sat' ≠ sat) :
    obsFind (obsSet obs sat k v) sat' = obsFind obs sat' := by
  induction obs with
  | nil => rfl
  | cons y ys ih =>
    by_cases hy : y.sat = sat
    · have hy' : y.sat ≠ sat' := fun e => h (e.symm.trans hy)
      simp only [obsSet, hy, if_true, obsFind, List.find?, ObsEntry.setSlot_sat, Ne.symm h, decide_false]
    · simp only [obsSet, hy, if_false, obsFind, List.find?]
      split
      · rfl
      · exact ih

theorem obsSet_sats (obs : List ObsEntry) (sat : Nat) (k : Fin 3) (v : Slot) :
    (obsSet obs sat k v).map (·.sat) = obs.map (·.sat) := by
  induction obs with
  | nil => rfl
  | cons y ys ih =>
    unfold obsSet
    split
    · simp
    · simp [ih]

theorem obsSet_times (obs : List ObsEntry) (sat : Nat) (k : Fin 3) (v : Slot) :
    (obsSet obs sat k v).map (·.time) = obs.map (·.time) := by
  induction obs with
  | nil => rfl
  | cons y ys ih =>
    unfold obsSet
    split
    · simp
    · simp [ih]

/-- Making room for a satellite: its entry, old or fresh, and every other entry as it was (R258). -/
theorem obsWith_find {p : Params} {obs obs' : List ObsEntry} {sat : Nat} {t : Time}
    (h : obsWith p obs sat t = some obs') :
    obsFind obs' sat = some ((obsFind obs sat).getD (freshEntry sat t)) ∧
    ∀ sat', sat' ≠ sat → obsFind obs' sat' = obsFind obs sat' := by
  unfold obsWith at h
  split at h
  · rename_i x hx
    cases h
    exact ⟨by simp [hx], fun _ _ => rfl⟩
  · rename_i hx
    split at h
    · exact absurd h (by simp)
    · cases h
      refine ⟨?_, fun sat' hs => ?_⟩
      · simp only [obsFind] at hx ⊢
        simp [List.find?_append, hx, freshEntry]
      · simp [obsFind, List.find?_append, freshEntry, Ne.symm hs]

/-- There is room unless the set is full and lacks the satellite (R259). -/
theorem obsWith_isSome {p : Params} {obs : List ObsEntry} {sat : Nat} (t : Time)
    (h : obsFind obs sat = none → obs.length ≠ p.maxObsSats) : ∃ obs', obsWith p obs sat t = some obs' := by
  unfold obsWith
  split
  · exact ⟨_, rfl⟩
  · rename_i hx
    exact ⟨_, by rw [if_neg (h hx)]⟩

/-! ### A record -/

/-- A record that is not skipped (R258–R267). -/
theorem writeRecord_eq {p : Params} {e : Epoch} {g : SignalRow} {sat : Nat} {r : RawRecord} {d : Decoded}
    {obs : List ObsEntry} (ho : obsWith p d.obs sat e.t = some obs)
    (hc : codeLoses (((obsFind d.obs sat).getD (freshEntry sat e.t)).slot g.slot).code g.code = false) :
    writeRecord p e g sat r d =
      ⟨obsSet obs sat g.slot (newSlot p e g r (halfcGet d.halfc sat g.slot)), halfcPut d.halfc sat g.slot r.flag⟩ := by
  simp [writeRecord, ho, (obsWith_find ho).1, hc]

theorem decodeRecord_eq {p : Params} {e : Epoch} {g : SignalRow} {sat : Nat} {r : RawRecord} {d : Decoded}
    (hg : signalOf p r.sig = some g) (hs : recordSat p g r = some sat) (hr : inRange r = true) :
    decodeRecord p e d r = writeRecord p e g sat r d := by
  simp [decodeRecord, hg, hs, hr]

/-- A record in range of a resolved satellite, with room in the set and no precise slot it would lose to, is written. -/
theorem decodeRecord_writes {p : Params} {e : Epoch} {g : SignalRow} {sat : Nat} {r : RawRecord} {d : Decoded}
    (hg : signalOf p r.sig = some g) (hs : recordSat p g r = some sat) (hr : inRange r = true)
    (hf : obsFind d.obs sat = none → d.obs.length ≠ p.maxObsSats)
    (hc : ∀ x, obsFind d.obs sat = some x → codeLoses (x.slot g.slot).code g.code = false) :
    ∃ obs, obsWith p d.obs sat e.t = some obs ∧ decodeRecord p e d r =
      ⟨obsSet obs sat g.slot (newSlot p e g r (halfcGet d.halfc sat g.slot)), halfcPut d.halfc sat g.slot r.flag⟩ := by
  obtain ⟨obs, ho⟩ := obsWith_isSome e.t hf
  refine ⟨obs, ho, ?_⟩
  rw [decodeRecord_eq hg hs hr]
  refine writeRecord_eq ho ?_
  cases hx : obsFind d.obs sat with
  | none => simp [codeLoses, Slot.zero, isPrecise]
  | some x => exact hc x hx

/-- Everything a record can do: nothing, or what `writeRecord_eq` says. -/
theorem decodeRecord_cases (p : Params) (e : Epoch) (d : Decoded) (r : RawRecord) :
    decodeRecord p e d r = d ∨
    ∃ g sat obs, signalOf p r.sig = some g ∧ recordSat p g r = some sat ∧ obsWith p d.obs sat e.t = some obs ∧
      decodeRecord p e d r =
        ⟨obsSet obs sat g.slot (newSlot p e g r (halfcGet d.halfc sat g.slot)), halfcPut d.halfc sat g.slot r.flag⟩ := by
  cases hg : signalOf p r.sig with
  | none => exact .inl (by simp [decodeRecord, hg])
  | some g =>
    cases hs : recordSat p g r with
    | none => exact .inl (by simp [decodeRecord, hg, hs])
    | some sat =>
      cases hr : inRange r with
      | false => exact .inl (by simp [decodeRecord, hg, hs, hr])
      | true =>
        rw [decodeRecord_eq hg hs hr]
        cases ho : obsWith p d.obs sat e.t with
        | none => exact .inl (by simp [writeRecord, ho])
        | some obs =>
          cases hc : codeLoses (((obsFind d.obs sat).getD (freshEntry sat e.t)).slot g.slot).code g.code with
          | true => exact .inl (by simp [writeRecord, ho, (obsWith_find ho).1, hc])
          | false => exact .inr ⟨g, sat, obs, rfl, hs, ho, writeRecord_eq ho hc⟩

/-- A satellite a record resolves to is in 1..`NSAT` (R8). -/
theorem satNo_range {p : Params} {sys : Sys} {prn : Int} {sat : Nat} (h : satNo p sys prn = some sat) :
    1 ≤ sat ∧ sat ≤ p.nsat := by
  unfold satNo at h
  dsimp only at h
  split at h
  · split at h
    · simp_all
    · exact absurd h (by simp)
  · exact absurd h (by simp)

/-- The records keep what holds of an observation set and a half-cycle array between records. -/
structure DecodedInv (p : Params) (t : Time) (d : Decoded) : Prop where
  bounded : d.obs.length ≤ p.maxObsSats
  distinct : (d.obs.map (·.sat)).Nodup
  sats : ∀ n ∈ d.obs.map (·.sat), 1 ≤ n ∧ n ≤ p.nsat
  times : ∀ x ∈ d.obs.map (·.time), x = t
  canonical : halfcWf d.halfc = true
  inside : ∀ c ∈ d.halfc, Config.nslot ≤ c.1 ∧ c.1 < Config.nslot * (p.nsat + 1)

theorem obsWith_map {p : Params} {obs obs' : List ObsEntry} {sat : Nat} {t : Time}
    (h : obsWith p obs sat t = some obs') :
    obs' = obs ∨ (obs' = obs ++ [freshEntry sat t] ∧ obs.length ≠ p.maxObsSats ∧ obsFind obs sat = none) := by
  unfold obsWith at h
  split at h
  · exact .inl (Option.some.inj h).symm
  · rename_i hx
    split at h
    · exact absurd h (by simp)
    · rename_i hl
      exact .inr ⟨(Option.some.inj h).symm, hl, hx⟩

theorem halfcCell_range {p : Params} {sat : Nat} (k : Fin 3) (h1 : 1 ≤ sat) (h2 : sat ≤ p.nsat) :
    Config.nslot ≤ halfcCell sat k ∧ halfcCell sat k < Config.nslot * (p.nsat + 1) := by
  have := k.isLt
  simp only [halfcCell, Config.nslot]
  omega

theorem decodeRecord_inv {p : Params} {e : Epoch} {d : Decoded} (r : RawRecord) (h : DecodedInv p e.t d) :
    DecodedInv p e.t (decodeRecord p e d r) := by
  rcases decodeRecord_cases p e d r with hd | ⟨g, sat, obs, _, hs, ho, hd⟩
  · rwa [hd]
  · rw [hd]
    have hsat := satNo_range hs
    have hcell := halfcCell_range (p := p) g.slot hsat.1 hsat.2
    have hin : ∀ c ∈ halfcPut d.halfc sat g.slot r.flag,
        Config.nslot ≤ c.1 ∧ c.1 < Config.nslot * (p.nsat + 1) := by
      intro c hc
      rcases mem_tablePut hc with rfl | hc
      · exact hcell
      · exact h.inside c hc
    have hlen : ∀ (l : List ObsEntry) (v : Slot), (obsSet l sat g.slot v).length = l.length := fun l v => by
      simpa using congrArg List.length (obsSet_sats l sat g.slot v)
    rcases obsWith_map ho with rfl | ⟨rfl, hl, hx⟩
    · exact ⟨by simpa only [hlen] using h.bounded, by simpa [obsSet_sats] using h.distinct, by simpa [obsSet_sats] using h.sats,
        by simpa [obsSet_times] using h.times, halfcWf_put _ _ _ h.canonical, hin⟩
    · refine ⟨?_, ?_, ?_, ?_, halfcWf_put _ _ _ h.canonical, hin⟩
      · have hb := h.bounded
        simp only [hlen, List.length_append, List.length_singleton]
        omega
      · simp only [obsSet_sats, List.map_append, List.map_cons, List.map_nil, freshEntry]
        refine List.Nodup.append h.distinct (by simp) ?_
        simp only [List.disjoint_singleton, List.mem_map, not_exists, not_and]
        intro x hm hxs
        have := List.find?_eq_none.1 hx x hm
        exact absurd hxs (by simpa using this)
      · simp only [obsSet_sats, List.map_append, List.map_cons, List.map_nil, freshEntry]
        intro n hn
        rcases List.mem_append.1 hn with hn | hn
        · exact h.sats n hn
        · rw [List.mem_singleton.1 hn]; exact hsat
      · simp only [obsSet_times, List.map_append, List.map_cons, List.map_nil, freshEntry]
        intro x hm
        rcases List.mem_append.1 hm with hm | hm
        · exact h.times x hm
        · exact List.mem_singleton.1 hm

theorem decodeRecords_inv {p : Params} {e : Epoch} {d : Decoded} (rs : List RawRecord) (h : DecodedInv p e.t d) :
    DecodedInv p e.t (decodeRecords p e d rs) := by
  induction rs generalizing d with
  | nil => exact h
  | cons r rs ih => exact ih (decodeRecord_inv r h)

end Sys2Proof.Machine
end

