-- ==== Sys2Proof/Laws/Dispatcher.lean ====
section
/-! SUPPORT. What the dispatcher and the frame rows do on a completed frame, and when they answer. -/

namespace Sys2Proof.Machine

/-- The type byte of a completed frame is read without a fault (R201). -/
theorem frameReady_read {s : State} {ty : Byte} (h : frameReady s ty) : readU1 s 1 = .ok ty :=
  readU1_eq h.2.1 h.2.2

/-- A frame row on a completed frame of its kind: the tag is emitted and the decoder runs. -/
theorem onFrame_selected {s : State} {ty : Byte} {k : FrameKind} {body : State → Result} (h : frameReady s ty)
    (hk : frameKind s.par ty = k) : onFrame k body s = body (s.emitTag ty) := by
  simp [onFrame, frameReady_read h, h.1, hk]

/-- A frame row on a completed frame of another kind is not selected. -/
theorem onFrame_other {s : State} {ty : Byte} {k : FrameKind} {body : State → Result} (h : frameReady s ty)
    (hk : frameKind s.par ty ≠ k) : onFrame k body s = .refused .rowNotSelected := by
  simp [onFrame, frameReady_read h, hk]

/-- A frame row that answers a next state was selected. -/
theorem onFrame_next {k : FrameKind} {body : State → Result} {s t : State} (h : onFrame k body s = .next t) :
    ∃ ty, readU1 s 1 = .ok ty ∧ s.count = 0 ∧ frameKind s.par ty = k ∧ body (s.emitTag ty) = .next t := by
  unfold onFrame at h
  split at h
  · exact absurd h (by simp)
  · rename_i ty hty
    split at h
    · rename_i hc
      exact ⟨ty, hty, hc.1, hc.2, h⟩
    · exact absurd h (by simp)

/-- The decoder of a frame row. -/
def rowDecoder (k : FrameKind) (sys : EphSystem) : State → Result :=
  match k with
  | .raw => rawObs
  | .eph =>
    match sys with
    | .gps => attachedEphGps
    | .glonass => attachedEphGlo
  | .bit => attachedBit
  | .iono => attachedIono
  | .utc => attachedUtc
  | .pvt => attachedPvt
  | .alm => attachedAlm
  | .unrecognised => fun t => .next (t.ret .noMessage)

/-- A frame row that answers a next state: its decoder ran on the tagged state. -/
theorem frameRow_next {k : FrameKind} {sys : EphSystem} {s t : State} (h : exec (frameRow k sys) s = .next t) :
    ∃ ty, readU1 s 1 = .ok ty ∧ s.count = 0 ∧ frameKind s.par ty = k ∧
      rowDecoder k sys (s.emitTag ty) = .next t := by
  cases k with
  | eph =>
    cases sys with
    | gps =>
      simp only [frameRow, exec, execEphGps] at h
      split at h
      · exact onFrame_next h
      · exact absurd h (by simp)
    | glonass =>
      simp only [frameRow, exec, execEphGlo] at h
      split at h
      · exact onFrame_next h
      · exact absurd h (by simp)
  | _ => exact onFrame_next h

/-- A frame row on a completed frame of its kind, the ephemeris rows for the system the inner byte says. -/
theorem frameRow_selected {s : State} {ty : Byte} {k : FrameKind} (h : frameReady s ty) (hk : frameKind s.par ty = k) :
    exec (frameRow k (ephSystem s)) s = rowDecoder k (ephSystem s) (s.emitTag ty) := by
  cases k with
  | eph =>
    cases hs : ephSystem s with
    | gps => simp only [frameRow, exec, execEphGps, hs, if_true, rowDecoder, onFrame_selected h hk]
    | glonass => simp only [frameRow, exec, execEphGlo, hs, if_true, rowDecoder, onFrame_selected h hk]
  | unrecognised => simp only [frameRow, exec, execUnrecognised, rowDecoder, onFrame_selected h hk]
  | _ => exact onFrame_selected h hk

/-- The dispatcher's decoder is the frame row's. -/
theorem runDecoder_eq (k : FrameKind) (s : State) : runDecoder k s = rowDecoder k (ephSystem s) s := by
  cases k with
  | eph => simp only [runDecoder, attachedEph, rowDecoder]; split <;> simp [*]
  | _ => rfl

/-- Every decoder but RAW's ends as an attached decoder, or as the no-op of R202. -/
theorem rowDecoder_attached {k : FrameKind} (sys : EphSystem) (s : State) (hk : k ≠ .raw) :
    (k = .unrecognised ∧ rowDecoder k sys s = .next (s.ret .noMessage)) ∨
    ∃ st, AttachedEnds k s (rowDecoder k sys s) st ∧ st ∈ allowedStatuses k := by
  cases k with
  | raw => exact absurd rfl hk
  | eph =>
    cases sys with
    | gps =>
      refine .inr ⟨_, attachedEphGps_ends s, ?_⟩
      rcases ephGpsStatus_cases s.lastEpoch s.optAcceptAll (attachedAnswer .eph s) with h | h | h <;>
        simp [allowedStatuses, h.1]
    | glonass =>
      refine .inr ⟨_, attachedEphGlo_ends s, ?_⟩
      rcases ephGloStatus_cases s.lastEpoch (attachedAnswer .eph s) with h | h | h <;> simp [allowedStatuses, h.1]
  | bit =>
    refine .inr ⟨_, attachedBit_ends s, ?_⟩
    rcases bitStatus_cases (attachedAnswer .bit s) with h | h | h <;> simp [allowedStatuses, h]
  | iono => exact .inr ⟨_, attachedIono_ends s, by simp [allowedStatuses]⟩
  | utc => exact .inr ⟨_, attachedUtc_ends s, by simp [allowedStatuses]⟩
  | pvt =>
    refine .inr ⟨_, attachedPvt_ends s, ?_⟩
    rcases pvtStatus_cases (attachedAnswer .pvt s) with h | h | h <;> simp [allowedStatuses, h]
  | alm =>
    refine .inr ⟨_, attachedAlm_ends s, ?_⟩
    rcases almStatus_cases s.par.almGloEnabled (attachedAnswer .alm s) with h | h <;> simp [allowedStatuses, h]
  | unrecognised => exact .inl ⟨rfl, rfl⟩

/-! ### What any decoder leaves -/

/-- Everything a decoder's next state keeps and may change: it writes `lastEpoch`, `obs`, `halfc`, `aux`, the draw
counter and the outputs; it answers a status, never −2; the observations change only with status 1; an established
epoch stays one. -/
structure DecoderEnds (s t : State) : Prop where
  frame : t = { s with lastEpoch := t.lastEpoch, obs := t.obs, halfc := t.halfc, aux := t.aux, draws := t.draws,
                       out := t.out }
  status : ∃ st, t.out.status = some st ∧ st ≠ .endOfInput
  rest : t.out.rest = s.out.rest
  observations : t.out.status ≠ some .observation → t.obs = s.obs ∧ t.lastEpoch = s.lastEpoch ∧ t.halfc = s.halfc
  established : s.lastEpoch ≠ none → t.lastEpoch ≠ none

theorem rowDecoder_ends {k : FrameKind} {sys : EphSystem} {s t : State} (h : rowDecoder k sys s = .next t) :
    DecoderEnds s t := by
  by_cases hr : k = .raw
  · subst hr
    simp only [rowDecoder] at h
    rcases rawObs_cases s with ⟨f, e⟩ | ⟨st, d, e, hst⟩ | ⟨e, rs, _, e', _⟩
    · exact absurd (e.symm.trans h) (by simp)
    · cases e.symm.trans h
      exact ⟨rfl, ⟨st, rfl, by rcases hst with rfl | rfl <;> simp⟩, rfl, fun _ => ⟨rfl, rfl, rfl⟩, id⟩
    · cases e'.symm.trans h
      exact ⟨rfl, ⟨_, rfl, by simp⟩, rfl, fun h => absurd rfl h, fun _ => by simp [commitEpoch]⟩
  · rcases rowDecoder_attached (k := k) sys s hr with ⟨_, e⟩ | ⟨st, ⟨e⟩, hm⟩
    · cases e.symm.trans h
      exact ⟨rfl, ⟨_, rfl, by simp⟩, rfl, fun _ => ⟨rfl, rfl, rfl⟩, id⟩
    · rcases e with ⟨new, e⟩ | ⟨e, _⟩
      swap
      · exact absurd (e.symm.trans h) (by simp)
      cases e.symm.trans h
      refine ⟨rfl, ⟨st, rfl, ?_⟩, rfl, fun _ => ⟨rfl, rfl, rfl⟩, id⟩
      rintro rfl
      cases k <;> simp [allowedStatuses] at hm

/-- A dispatch that answers a next state: the tag was emitted and a decoder ended. -/
theorem dispatch_ends {s t : State} (h : dispatch s = .next t) :
    ∃ ty, readU1 s 1 = .ok ty ∧ DecoderEnds (s.emitTag ty) t := by
  unfold dispatch at h
  split at h
  · exact absurd h (by simp)
  · rename_i ty hty
    rw [runDecoder_eq] at h
    exact ⟨ty, hty, rowDecoder_ends h⟩

end Sys2Proof.Machine
end

