-- ==== Sys2Proof/Laws/Float.lean ====
section
/-! SUPPORT. Rounding: the exponent of a magnitude, what a rounded magnitude's pattern stands for, and that a value of
the format rounds to its own pattern. -/

namespace Sys2Proof.Machine

/-! ### Powers of two -/

theorem pow2_eq_zpow (e : Int) : pow2 e = (2 : Rat) ^ e := by
  unfold pow2
  split
  · rename_i h
    obtain ⟨n, rfl⟩ := Int.eq_ofNat_of_zero_le h
    simp
  · rename_i h
    obtain ⟨n, hn⟩ := Int.eq_ofNat_of_zero_le (a := -e) (by omega)
    have he : e = -(n : Int) := by omega
    subst he
    simp [zpow_neg]

theorem pow2_pos (e : Int) : 0 < pow2 e := by
  rw [pow2_eq_zpow]; positivity

theorem pow2_add (a b : Int) : pow2 (a + b) = pow2 a * pow2 b := by
  simp only [pow2_eq_zpow]; exact zpow_add₀ (by norm_num) a b

theorem pow2_natCast (n : Nat) : pow2 (n : Int) = ((2 ^ n : Nat) : Rat) := by
  simp [pow2]

theorem pow2_lt {a b : Int} : pow2 a < pow2 b ↔ a < b := by
  simp only [pow2_eq_zpow]; exact zpow_lt_zpow_iff_right₀ (by norm_num)

/-! ### The exponent of a magnitude -/

/-- `2^e ≤ m < 2^(e+1)` for `e = floorLog2 m`. -/
theorem floorLog2_spec {m : Rat} (h : 0 < m) : pow2 (floorLog2 m) ≤ m ∧ m < pow2 (floorLog2 m + 1) := by
  have hn : m.num.toNat ≠ 0 := by have := Rat.num_pos.2 h; omega
  have hd : m.den ≠ 0 := m.den_nz
  have n1 := Nat.log2_self_le hn
  have n2 := @Nat.lt_log2_self m.num.toNat
  have d1 := Nat.log2_self_le hd
  have d2 := @Nat.lt_log2_self m.den
  have hm : m = (m.num.toNat : Rat) / (m.den : Rat) := by
    have hc : ((m.num.toNat : Int) : Rat) = (m.num : Rat) := by
      congr 1; exact Int.toNat_of_nonneg (Rat.num_pos.2 h).le
    rw [← Int.cast_natCast (R := Rat) m.num.toNat, hc]
    exact (Rat.num_div_den m).symm
  generalize ha : Nat.log2 m.num.toNat = a at n1 n2
  generalize hb : Nat.log2 m.den = b at d1 d2
  have n1' : ((2 ^ a : Nat) : Rat) ≤ (m.num.toNat : Rat) := by exact_mod_cast n1
  have n2' : (m.num.toNat : Rat) < ((2 ^ (a + 1) : Nat) : Rat) := by exact_mod_cast n2
  have d1' : ((2 ^ b : Nat) : Rat) ≤ (m.den : Rat) := by exact_mod_cast d1
  have d2' : (m.den : Rat) < ((2 ^ (b + 1) : Nat) : Rat) := by exact_mod_cast d2
  have hdp : (0 : Rat) < (m.den : Rat) := by exact_mod_cast Nat.pos_of_ne_zero hd
  have hup : m < pow2 ((a : Int) - b + 1) := by
    have e : pow2 ((a : Int) - b + 1) * pow2 (b : Int) = pow2 ((a + 1 : Nat) : Int) := by
      rw [← pow2_add]; congr 1; push_cast; ring
    rw [pow2_natCast, pow2_natCast] at e
    rw [hm, div_lt_iff₀ hdp]
    calc (m.num.toNat : Rat) < ((2 ^ (a + 1) : Nat) : Rat) := n2'
      _ = pow2 ((a : Int) - b + 1) * ((2 ^ b : Nat) : Rat) := e.symm
      _ ≤ _ := by exact mul_le_mul_of_nonneg_left d1' (pow2_pos _).le
  have hlo : pow2 ((a : Int) - b - 1) ≤ m := by
    have e : pow2 ((a : Int) - b - 1) * pow2 ((b + 1 : Nat) : Int) = pow2 (a : Int) := by
      rw [← pow2_add]; congr 1; push_cast; ring
    rw [pow2_natCast, pow2_natCast] at e
    rw [hm, le_div_iff₀ hdp]
    calc pow2 ((a : Int) - b - 1) * (m.den : Rat) ≤ pow2 ((a : Int) - b - 1) * ((2 ^ (b + 1) : Nat) : Rat) :=
          mul_le_mul_of_nonneg_left d2'.le (pow2_pos _).le
      _ = ((2 ^ a : Nat) : Rat) := e
      _ ≤ _ := n1'
  unfold floorLog2
  dsimp only
  rw [ha, hb]
  split
  · rename_i hle
    exact ⟨by simpa using hle, by simpa using hup⟩
  · rename_i hlt
    exact ⟨by simpa using hlo, by simpa using not_le.1 hlt⟩

theorem floorLog2_eq {m : Rat} {e : Int} (h1 : pow2 e ≤ m) (h2 : m < pow2 (e + 1)) : floorLog2 m = e := by
  have hs := floorLog2_spec (lt_of_lt_of_le (pow2_pos e) h1)
  have a := pow2_lt.1 (lt_of_le_of_lt h1 hs.2)
  have b := pow2_lt.1 (lt_of_le_of_lt hs.1 h2)
  omega

/-! ### Rounding to a natural number -/

theorem roundHalfEven_natCast (n : Nat) : roundHalfEven (n : Rat) = n := by
  have : ((n : Rat).floor).toNat = n := by
    have h : (n : Rat).floor = (n : Int) := by simpa using Rat.floor_intCast (n : Int)
    simp [h]
  unfold roundHalfEven
  dsimp only
  rw [this]
  simp

/-- The rounded number is within a half. -/
theorem roundHalfEven_near {r : Rat} (h : 0 ≤ r) : |(roundHalfEven r : Rat) - r| ≤ 1 / 2 := by
  have f0 : 0 ≤ r.floor := Rat.le_floor_iff.2 (by simpa using h)
  have f1 : (r.floor.toNat : Rat) ≤ r := by
    have : ((r.floor.toNat : Int) : Rat) ≤ r := by rw [Int.toNat_of_nonneg f0]; exact Rat.floor_le r
    exact_mod_cast this
  have f2 : r < (r.floor.toNat : Rat) + 1 := by
    have : r < ((r.floor.toNat : Int) : Rat) + 1 := by rw [Int.toNat_of_nonneg f0]; exact_mod_cast Rat.lt_floor_add_one r
    exact_mod_cast this
  unfold roundHalfEven
  dsimp only
  rw [abs_le]
  split
  · constructor <;> linarith
  · split
    · push_cast; constructor <;> linarith
    · split
      · constructor <;> linarith
      · push_cast; constructor <;> linarith

/-- A natural bound survives the rounding. -/
theorem roundHalfEven_le {r : Rat} {n : Nat} (h0 : 0 ≤ r) (h : r ≤ n) : roundHalfEven r ≤ n := by
  have h1 := (abs_le.1 (roundHalfEven_near h0)).2
  have h2 : (roundHalfEven r : Rat) < ((n + 1 : Nat) : Rat) := by push_cast; linarith
  have := Nat.cast_lt.1 h2
  omega

theorem le_roundHalfEven {r : Rat} {n : Nat} (h : (n : Rat) ≤ r) : n ≤ roundHalfEven r := by
  have h0 : 0 ≤ r := le_trans (Nat.cast_nonneg n) h
  have h1 := (abs_le.1 (roundHalfEven_near h0)).1
  have h2 : (n : Rat) < ((roundHalfEven r + 1 : Nat) : Rat) := by push_cast; linarith
  have := Nat.cast_lt.1 h2
  omega

/-! ### Rounding to a format -/

/-- The exponent of the quantum a magnitude rounds in. -/
def FpFormat.quantum (f : FpFormat) (m : Rat) : Int := max (floorLog2 m - (f.fracBits : Int)) f.qmin

/-- The number of quanta a magnitude rounds to. -/
def FpFormat.quanta (f : FpFormat) (m : Rat) : Nat := roundHalfEven (m / pow2 (f.quantum m))

theorem FpFormat.quanta_le (f : FpFormat) {m : Rat} (h : 0 < m) : f.quanta m ≤ 2 ^ (f.fracBits + 1) := by
  apply roundHalfEven_le (div_nonneg h.le (pow2_pos _).le)
  rw [div_le_iff₀ (pow2_pos _), ← pow2_natCast, ← pow2_add]
  refine (floorLog2_spec h).2.le.trans ?_
  rcases le_or_gt (floorLog2 m + 1) (((f.fracBits + 1 : Nat) : Int) + f.quantum m) with hq | hq
  · rcases hq.eq_or_lt with hq | hq
    · rw [hq]
    · exact (pow2_lt.2 hq).le
  · have := le_max_left (floorLog2 m - (f.fracBits : Int)) f.qmin
    unfold FpFormat.quantum at hq
    push_cast at hq
    omega

theorem FpFormat.le_quanta (f : FpFormat) {m : Rat} (h : 0 < m) (hq : f.qmin < f.quantum m) :
    2 ^ f.fracBits ≤ f.quanta m := by
  apply le_roundHalfEven
  rw [le_div_iff₀ (pow2_pos _), ← pow2_natCast, ← pow2_add]
  have : f.quantum m = floorLog2 m - (f.fracBits : Int) := by
    unfold FpFormat.quantum at hq ⊢
    omega
  rw [this]
  have e : (f.fracBits : Int) + (floorLog2 m - (f.fracBits : Int)) = floorLog2 m := by ring
  rw [e]
  exact (floorLog2_spec h).1

/-- The value of the pattern a magnitude rounds to, below the infinity's: that many quanta. -/
theorem FpFormat.value_round (f : FpFormat) (neg : Bool) {m : Rat} (h : 0 < m)
    (ht : (f.quantum m - f.qmin).toNat * 2 ^ f.fracBits + f.quanta m < f.infPattern) :
    f.value neg (f.round m) = .fin neg ((f.quanta m : Rat) * pow2 (f.quantum m)) := by
  have hr : f.round m = (f.quantum m - f.qmin).toNat * 2 ^ f.fracBits + f.quanta m := by
    unfold FpFormat.round
    rw [if_neg h.ne']
    exact min_eq_left ht.le
  have hq : f.qmin ≤ f.quantum m := le_max_right _ _
  have hle := f.quanta_le h
  have hge := f.le_quanta h
  obtain ⟨d, hd⟩ := Int.eq_ofNat_of_zero_le (a := f.quantum m - f.qmin) (by omega)
  rw [hr]
  rw [hd] at ht ⊢
  have hqd : f.quantum m = f.qmin + (d : Int) := by omega
  generalize hN : f.quanta m = N at *
  generalize hk : 2 ^ f.fracBits = k at *
  have hkpos : 0 < k := by rw [← hk]; positivity
  have hk2 : 2 ^ (f.fracBits + 1) = 2 * k := by rw [pow_succ, hk, Nat.mul_comm]
  rw [hk2] at hle
  simp only [Int.toNat_natCast] at ht ⊢
  have htop : (d * k + N) / k < f.expTop := by
    rw [Nat.div_lt_iff_lt_mul hkpos]; simpa [FpFormat.infPattern, hk] using ht
  have hdiv : (d * k + N) / k = d + N / k := by
    rw [Nat.add_comm, Nat.add_mul_div_right _ _ hkpos, Nat.add_comm]
  have hmod : (d * k + N) % k = N % k := by rw [Nat.add_comm, Nat.add_mul_mod_self_right]
  unfold FpFormat.value
  simp only [hk, hdiv, hmod] at htop ⊢
  rw [if_neg (by omega)]
  rcases Nat.lt_or_ge N k with hlt | hge'
  · have hd0 : d = 0 := by
      by_contra hne
      have := hge (by omega)
      omega
    subst hd0
    rw [Nat.div_eq_of_lt hlt, Nat.mod_eq_of_lt hlt, if_pos rfl, hqd]
    simp
  · rcases hle.eq_or_lt with heq | hlt
    · subst heq
      have e1 : 2 * k / k = 2 := Nat.mul_div_cancel _ hkpos
      have e2 : 2 * k % k = 0 := Nat.mul_mod_left _ _
      rw [e1, e2, if_neg (by omega), hqd]
      have : f.qmin + ((d + 2 : Nat) : Int) - 1 = 1 + (f.qmin + (d : Int)) := by push_cast; ring
      rw [this, pow2_add]
      have p1 : pow2 1 = 2 := by simp [pow2]
      rw [p1]
      congr 1
      push_cast
      ring
    · have e1 : N / k = 1 := by
        rw [Nat.div_eq_iff hkpos]; omega
      have e2 : N % k = N - k := by
        rw [Nat.mod_eq_sub_mod hge', Nat.mod_eq_of_lt (by omega)]
      rw [e1, e2, if_neg (by omega), hqd]
      have : f.qmin + ((d + 1 : Nat) : Int) - 1 = f.qmin + (d : Int) := by push_cast; ring
      rw [this]
      congr 2
      have : k + (N - k) = N := by omega
      rw [this]

/-- The quanta are within half a quantum of the magnitude. -/
theorem FpFormat.quanta_near (f : FpFormat) {m : Rat} (h : 0 < m) :
    |(f.quanta m : Rat) * pow2 (f.quantum m) - m| ≤ pow2 (f.quantum m) / 2 := by
  have hp := pow2_pos (f.quantum m)
  have := roundHalfEven_near (div_nonneg h.le hp.le)
  have e : (f.quanta m : Rat) * pow2 (f.quantum m) - m =
      ((f.quanta m : Rat) - m / pow2 (f.quantum m)) * pow2 (f.quantum m) := by
    field_simp
  rw [e, abs_mul, abs_of_pos hp]
  calc |(f.quanta m : Rat) - m / pow2 (f.quantum m)| * pow2 (f.quantum m)
      ≤ 1 / 2 * pow2 (f.quantum m) := mul_le_mul_of_nonneg_right this hp.le
    _ = _ := by ring

/-- A multiple of a quantum that fits the fraction rounds to its own pattern. -/
theorem FpFormat.round_multiple (f : FpFormat) {n d : Nat} {m : Rat} (hm : m = (n : Rat) * pow2 (f.qmin + (d : Int)))
    (hn : 0 < n) (hlt : n < 2 ^ (f.fracBits + 1)) (hnorm : d = 0 ∨ 2 ^ f.fracBits ≤ n)
    (ht : d * 2 ^ f.fracBits + n < f.infPattern) : f.round m = d * 2 ^ f.fracBits + n := by
  have hpos : 0 < m := by rw [hm]; exact mul_pos (Nat.cast_pos.2 hn) (pow2_pos _)
  have hs := floorLog2_spec hpos
  have hlog : floorLog2 m ≤ (f.fracBits : Int) + (f.qmin + (d : Int)) := by
    have : pow2 (floorLog2 m) < pow2 (((f.fracBits + 1 : Nat) : Int) + (f.qmin + (d : Int))) := by
      refine lt_of_le_of_lt hs.1 ?_
      rw [pow2_add, pow2_natCast, hm]
      exact mul_lt_mul_of_pos_right (Nat.cast_lt.2 hlt) (pow2_pos _)
    have := pow2_lt.1 this
    push_cast at this
    omega
  have hq : f.quantum m = f.qmin + (d : Int) := by
    unfold FpFormat.quantum
    rcases hnorm with rfl | hge
    · simp only [Nat.cast_zero, add_zero] at hlog ⊢
      exact max_eq_right (by omega)
    · have : pow2 ((f.fracBits : Int) + (f.qmin + (d : Int))) < pow2 (floorLog2 m + 1) := by
        refine lt_of_le_of_lt ?_ hs.2
        rw [pow2_add, pow2_natCast, hm]
        exact mul_le_mul_of_nonneg_right (Nat.cast_le.2 hge) (pow2_pos _).le
      have := pow2_lt.1 this
      omega
  have hN : f.quanta m = n := by
    unfold FpFormat.quanta
    rw [hq, hm, mul_div_assoc, div_self (pow2_pos _).ne', mul_one, roundHalfEven_natCast]
  have hr : f.round m = min ((f.quantum m - f.qmin).toNat * 2 ^ f.fracBits + f.quanta m) f.infPattern := by
    unfold FpFormat.round
    rw [if_neg hpos.ne']
    rfl
  have hd : (f.qmin + (d : Int) - f.qmin).toNat = d := by omega
  rw [hr, hq, hN, hd]
  exact min_eq_left ht.le

/-- A value of the format rounds to its own pattern. -/
theorem FpFormat.round_value (f : FpFormat) {neg a : Bool} {pat : Nat} {m : Rat} (hp : pat < f.infPattern)
    (h : f.value neg pat = .fin a m) : a = neg ∧ f.round m = pat := by
  have hk : 0 < 2 ^ f.fracBits := by positivity
  have hdiv : pat / 2 ^ f.fracBits < f.expTop := by
    rw [Nat.div_lt_iff_lt_mul hk]; exact hp
  have hdm := Nat.div_add_mod pat (2 ^ f.fracBits)
  have hml := Nat.mod_lt pat hk
  unfold FpFormat.value at h
  dsimp only at h
  rw [if_neg (by omega)] at h
  split at h
  · rename_i he
    simp only [Fp.fin.injEq] at h
    obtain ⟨rfl, rfl⟩ := h
    refine ⟨rfl, ?_⟩
    rw [he, Nat.mul_zero, Nat.zero_add] at hdm
    rw [hdm]
    rcases Nat.eq_zero_or_pos pat with h0 | h0
    · subst h0; simp [FpFormat.round]
    · have := f.round_multiple (n := pat) (d := 0) (m := (pat : Rat) * pow2 f.qmin) (by simp) h0
        (by rw [pow_succ]; omega) (.inl rfl) (by simpa using hp)
      simpa using this
  · rename_i he
    simp only [Fp.fin.injEq] at h
    obtain ⟨rfl, rfl⟩ := h
    refine ⟨rfl, ?_⟩
    obtain ⟨e, he'⟩ := Nat.exists_eq_succ_of_ne_zero he
    rw [he'] at hdm hdiv ⊢
    have hx : f.qmin + ((e.succ : Nat) : Int) - 1 = f.qmin + (e : Int) := by push_cast; ring
    have hsum : e * 2 ^ f.fracBits + (2 ^ f.fracBits + pat % 2 ^ f.fracBits) = pat := by
      rw [Nat.mul_succ, Nat.mul_comm] at hdm; omega
    rw [hx, f.round_multiple (n := 2 ^ f.fracBits + pat % 2 ^ f.fracBits) (d := e) rfl (by omega)
      (by rw [pow_succ]; omega) (.inr (by omega)) (by rw [hsum]; exact hp), hsum]

/-! ### binary64 in the range of times and ranges -/

theorem binary64_below_inf {m : Rat} (h : 0 < m) (hb : m < pow2 53) :
    (binary64.quantum m - binary64.qmin).toNat * 2 ^ binary64.fracBits + binary64.quanta m < binary64.infPattern := by
  have hq : binary64.quantum m ≤ 0 := by
    have h1 := pow2_lt.1 (lt_of_le_of_lt (floorLog2_spec h).1 hb)
    unfold FpFormat.quantum
    simp only [binary64]
    omega
  have hN := binary64.quanta_le h
  have e : binary64.infPattern = 2047 * 4503599627370496 := by norm_num [FpFormat.infPattern, binary64]
  have e2 : 2 ^ (binary64.fracBits + 1) = 9007199254740992 := by norm_num [binary64]
  have e3 : 2 ^ binary64.fracBits = 4503599627370496 := by norm_num [binary64]
  have e4 : binary64.qmin = -1074 := rfl
  rw [e2] at hN
  rw [e, e3, e4]
  omega

/-- A magnitude below `2^b`, `b ≤ 53`, rounds to a finite number within `2^(b-54)` (the least quantum aside). -/
theorem binary64_near (neg : Bool) {m : Rat} (b : Int) (h : 0 ≤ m) (hb : m < pow2 b) (h1 : -1021 ≤ b) (h2 : b ≤ 53) :
    ∃ m', binary64.value neg (binary64.round m) = .fin neg m' ∧ 0 ≤ m' ∧ |m' - m| ≤ pow2 (b - 54) := by
  rcases h.eq_or_lt with rfl | h
  · refine ⟨0, ?_, le_refl 0, ?_⟩
    · simp [FpFormat.round, FpFormat.value, binary64]
    · simpa using (pow2_pos _).le
  · have hb53 : m < pow2 53 := by
      rcases h2.eq_or_lt with rfl | h2
      · exact hb
      · exact hb.trans (pow2_lt.2 h2)
    refine ⟨_, binary64.value_round neg h (binary64_below_inf h hb53), mul_nonneg (Nat.cast_nonneg _) (pow2_pos _).le,
      (binary64.quanta_near h).trans ?_⟩
    have hq : binary64.quantum m ≤ b - 53 := by
      have := pow2_lt.1 (lt_of_le_of_lt (floorLog2_spec h).1 hb)
      unfold FpFormat.quantum
      simp only [binary64]
      omega
    have e : pow2 (b - 54) = pow2 (b - 53) / 2 := by
      have p1 : pow2 (b - 53) = pow2 1 * pow2 (b - 54) := by rw [← pow2_add]; congr 1; ring
      have p2 : pow2 1 = 2 := by simp [pow2]
      rw [p1, p2]; ring
    rw [e]
    rcases hq.eq_or_lt with hq | hq
    · rw [hq]
    · have := pow2_lt.2 hq; linarith

/-- A natural number of at most 53 bits is exact. -/
theorem binary64_natCast (neg : Bool) {n : Nat} (h : n < 2 ^ 53) :
    binary64.value neg (binary64.round (n : Rat)) = .fin neg (n : Rat) := by
  rcases Nat.eq_zero_or_pos n with rfl | hn
  · simp [FpFormat.round, FpFormat.value, binary64]
  · have hp : (0 : Rat) < (n : Rat) := Nat.cast_pos.2 hn
    have hb : (n : Rat) < pow2 53 := by
      rw [show (53 : Int) = ((53 : Nat) : Int) by rfl, pow2_natCast]; exact Nat.cast_lt.2 h
    rw [binary64.value_round neg hp (binary64_below_inf hp hb)]
    have hq : binary64.quantum (n : Rat) ≤ 0 := by
      have h1 := pow2_lt.1 (lt_of_le_of_lt (floorLog2_spec hp).1 hb)
      unfold FpFormat.quantum
      simp only [binary64]
      omega
    obtain ⟨d, hd⟩ := Int.eq_ofNat_of_zero_le (a := -binary64.quantum (n : Rat)) (by omega)
    have hdiv : (n : Rat) / pow2 (binary64.quantum (n : Rat)) = ((n * 2 ^ d : Nat) : Rat) := by
      rw [div_eq_iff (pow2_pos _).ne', Nat.cast_mul, ← pow2_natCast, mul_assoc, ← pow2_add, ← hd]
      simp [pow2]
    have hN : binary64.quanta (n : Rat) = n * 2 ^ d := by
      unfold FpFormat.quanta
      rw [hdiv, roundHalfEven_natCast]
    congr 1
    rw [hN, ← hdiv, div_mul_cancel₀ _ (pow2_pos _).ne']

end Sys2Proof.Machine
end

