-- ==== Sys2Proof/Laws/Memory.lean ====
section
/-! SUPPORT. The buffer and the half-cycle array keep their canonical form under every operation that writes them, and
have it after reset. -/

namespace Sys2Proof.Machine

theorem reset_bufWf : bufWf State.reset.buf = true := by simp [State.reset, bufWf, tableWf]

theorem reset_halfcWf : halfcWf State.reset.halfc = true := by simp [State.reset, halfcWf, tableWf]

theorem startFrame_bufWf {s : State} (h : bufWf s.buf = true) : bufWf s.startFrame.buf = true := bufWf_put _ _ h

theorem storeByte_bufWf {s : State} (b : Byte) (h : bufWf s.buf = true) : bufWf (s.storeByte b).buf = true :=
  bufWf_put _ _ h

theorem flipAndStore_bufWf {s : State} (b : Byte) (h : bufWf s.buf = true) : bufWf (flipAndStore b s).buf = true := by
  rcases flipAndStore_cases b s with ⟨_, e⟩ | ⟨_, _, _, e⟩ <;> rw [e]
  · exact bufWf_put _ _ h
  · exact h

theorem syncStep_bufWf {s : State} (b : Byte) (h : bufWf s.buf = true) : bufWf (syncStep b s).state.buf = true := by
  rcases syncStep_cases b s with ⟨_, _, e⟩ | ⟨_, _, e⟩ | ⟨_, _, e⟩ | ⟨_, _, _, e⟩ | ⟨_, _, _, e⟩ | ⟨_, _, _, e⟩ |
    ⟨_, _, _, e⟩ <;> rw [e]
  · exact startFrame_bufWf h
  · exact h
  · exact h
  · exact storeByte_bufWf b h
  all_goals exact flipAndStore_bufWf b h

theorem decodeRecord_halfcWf {p : Params} {e : Epoch} {d : Decoded} (r : RawRecord) (h : halfcWf d.halfc = true) :
    halfcWf (decodeRecord p e d r).halfc = true := by
  rcases decodeRecord_cases p e d r with hd | ⟨_, _, _, _, _, _, hd⟩ <;> rw [hd]
  · exact h
  · exact halfcWf_put _ _ _ h

theorem decodeRecords_halfcWf {p : Params} {e : Epoch} {d : Decoded} (rs : List RawRecord)
    (h : halfcWf d.halfc = true) : halfcWf (decodeRecords p e d rs).halfc = true := by
  induction rs generalizing d with
  | nil => exact h
  | cons r rs ih => exact ih (decodeRecord_halfcWf r h)

end Sys2Proof.Machine
end

