-- ==== Sys2Proof/Laws/Invariant.lean ====
section
/-! SUPPORT. The synchronizer's part of the invariant under each update it makes, and under the body of a byte. -/

namespace Sys2Proof.Machine

/-- The synchronizer's part of the invariant. -/
structure SyncBufInv (s : State) : Prop where
  sync : SyncInv s
  buf : BufInv s

/-- It speaks of five fields. -/
theorem SyncBufInv.congr {s t : State} (h : SyncBufInv s) (hc : t.count = s.count) (ht : t.toggle = s.toggle)
    (hb : t.buf = s.buf) (hl : t.len = s.len) (hp : t.par = s.par) : SyncBufInv t := by
  refine ⟨⟨?_, ?_, ?_, ?_, ?_⟩, ⟨?_, ?_, ?_, ?_⟩⟩
  · rw [hc, hp]; exact h.sync.count_lt
  · rw [hc, hl, hb, hp]; exact h.sync.start_byte
  · rw [hc, hl, hb, hp]; exact h.sync.type_byte
  · rw [hc, ht]; exact h.sync.toggle_clear
  · rw [hl, hp]; exact h.sync.len_range
  · rw [hb]; exact h.buf.canonical
  · rw [hb, hp]; exact h.buf.inside
  · rw [hb, hc]; exact h.buf.partial_written
  · rw [hb, hl]; exact h.buf.frame_written

/-- A write keeps what the buffer part says of the other fields. -/
theorem bufPut_inside {s : State} {i : Nat} {b : Byte} (h : ∀ c ∈ s.buf, c.1 < s.par.maxFrame)
    (hi : i < s.par.maxFrame) : ∀ c ∈ bufPut s.buf i b, c.1 < s.par.maxFrame := by
  intro c hc
  rcases mem_tablePut hc with rfl | hc
  · exact hi
  · exact h c hc

theorem bufPut_written {m : List Host.Cell} {i n : Nat} {b : Byte} (h : ∀ j < n, (tableGet m j).isSome = true) :
    ∀ j < n, (tableGet (bufPut m i b) j).isSome = true := fun j hj => bufPut_isSome (h j hj)

theorem bufPut_written_next {m : List Host.Cell} {n : Nat} {b : Byte} (h : ∀ j < n, (tableGet m j).isSome = true) :
    ∀ j < n + 1, (tableGet (bufPut m n b) j).isSome = true := by
  intro j hj
  by_cases hjn : j = n
  · subst hjn; simp
  · exact bufPut_isSome (h j (by omega))

/-- Back to Idle, the frame dropped (R146, R151, R182). -/
theorem SyncBufInv.toIdle {s : State} (h : SyncBufInv s) (hp : 0 < s.par.maxFrame) : SyncBufInv s.toIdle := by
  refine ⟨⟨hp, fun hx => h.sync.start_byte (hx.imp (fun h => ?_) id), fun hx => h.sync.type_byte (hx.imp (fun h => ?_) id),
    fun _ => rfl, h.sync.len_range⟩, ⟨h.buf.canonical, h.buf.inside, fun i hi => absurd hi (Nat.not_lt_zero i),
    h.buf.frame_written⟩⟩ <;> exact absurd h (by simp)

/-- A frame is started (R142). -/
theorem SyncBufInv.startFrame {s : State} (h : SyncBufInv s) (hp : 1 < s.par.maxFrame) : SyncBufInv s.startFrame := by
  refine ⟨⟨hp, fun _ => bufPut_get_same _ _ _, fun hx => ?_, fun _ => rfl, h.sync.len_range⟩,
    ⟨bufWf_put _ _ h.buf.canonical, bufPut_inside h.buf.inside (by omega),
      bufPut_written_next (n := 0) (fun j hj => absurd hj (Nat.not_lt_zero j)), bufPut_written h.buf.frame_written⟩⟩
  have := h.sync.type_byte (hx.imp (fun h => absurd h (by simp)) id)
  simpa only [State.startFrame, bufPut_get_other _ 0 1 _ (by omega)] using this

/-- A byte is stored, the frame going on (R144, R148). -/
theorem SyncBufInv.store {s : State} {b : Byte} {flip : Bool} (h : SyncBufInv s) (h1 : 1 ≤ s.count)
    (hlt : s.count + 1 < s.par.maxFrame) (ht : s.count = 1 → b ≠ s.par.sync ∧ b ≠ s.par.endMark ∧ flip = false) :
    SyncBufInv { s with buf := bufPut s.buf s.count b, count := s.count + 1, toggle := flip } := by
  refine ⟨⟨hlt, fun _ => ?_, fun _ => ?_, fun hx => ?_, h.sync.len_range⟩,
    ⟨bufWf_put _ _ h.buf.canonical, bufPut_inside h.buf.inside h.sync.count_lt,
      bufPut_written_next h.buf.partial_written, bufPut_written h.buf.frame_written⟩⟩
  · exact (bufPut_get_other _ _ _ _ (by omega)).trans (h.sync.start_byte (.inl h1))
  · by_cases hc : s.count = 1
    · exact ⟨b, by rw [hc]; exact bufPut_get_same _ _ _, (ht hc).1, (ht hc).2.1⟩
    · obtain ⟨t, h2, h3⟩ := h.sync.type_byte (.inl (by omega))
      exact ⟨t, (bufPut_get_other _ _ _ _ (by omega)).trans h2, h3⟩
  · refine (ht ?_).2.2
    rcases hx with hx | hx
    · have : s.count + 1 = 1 := hx
      omega
    · have : s.count + 1 = 2 := hx
      omega

/-- A byte is stored and the frame is complete (R149). -/
theorem SyncBufInv.complete {s : State} {b : Byte} {flip : Bool} (h : SyncBufInv s) (h3 : 3 ≤ s.count) :
    SyncBufInv { s with buf := bufPut s.buf s.count b, count := 0, len := s.count + 1, toggle := flip } := by
  have hlt := h.sync.count_lt
  refine ⟨⟨Nat.lt_of_le_of_lt (Nat.zero_le _) hlt, fun _ => ?_, fun _ => ?_, fun hx => ?_, .inr ⟨by simp only; omega, hlt⟩⟩,
    ⟨bufWf_put _ _ h.buf.canonical, bufPut_inside h.buf.inside hlt, fun i hi => absurd hi (Nat.not_lt_zero i),
      bufPut_written_next h.buf.partial_written⟩⟩
  · exact (bufPut_get_other _ _ _ _ (by omega)).trans (h.sync.start_byte (.inl (by omega)))
  · obtain ⟨t, h4, h5⟩ := h.sync.type_byte (.inl (by omega))
    exact ⟨t, (bufPut_get_other _ _ _ _ (by omega)).trans h4, h5⟩
  · exact absurd hx (by simp)

/-- A byte is stored and the frame is dropped (R151). -/
theorem SyncBufInv.overflow {s : State} {b : Byte} (h : SyncBufInv s) (h2 : 2 ≤ s.count) :
    SyncBufInv { s with buf := bufPut s.buf s.count b, count := 0, toggle := false } := by
  have hlt := h.sync.count_lt
  refine ⟨⟨Nat.lt_of_le_of_lt (Nat.zero_le _) hlt, fun _ => ?_, fun _ => ?_, fun _ => rfl, h.sync.len_range⟩,
    ⟨bufWf_put _ _ h.buf.canonical, bufPut_inside h.buf.inside hlt, fun i hi => absurd hi (Nat.not_lt_zero i),
      bufPut_written h.buf.frame_written⟩⟩
  · exact (bufPut_get_other _ _ _ _ (by omega)).trans (h.sync.start_byte (.inl (by omega)))
  · obtain ⟨t, h4, h5⟩ := h.sync.type_byte (.inl (by omega))
    exact ⟨t, (bufPut_get_other _ _ _ _ (by omega)).trans h4, h5⟩

/-- The body of a byte keeps it; a completed frame has at least 4 bytes, and its type byte was written (R156, R201). -/
theorem SyncBufInv.syncStep {s : State} (b : Byte) (hok : s.par.ok = true) (h : SyncBufInv s) :
    SyncBufInv (syncStep b s).state ∧
    ∀ t, syncStep b s = .done t → t.count = 0 ∧ 4 ≤ t.len ∧ ∃ ty, tableGet t.buf 1 = some ty := by
  have hmf := Params.ok_maxFrame hok
  have hse := Params.ok_sync_ne_end hok
  rcases syncStep_cases b s with ⟨h0, hb, e⟩ | ⟨h0, hb, e⟩ | ⟨h0, hb, e⟩ | ⟨h0, hb, hb2, e⟩ | ⟨h0, ht, hb, e⟩ |
    ⟨h0, hd, hm, e⟩ | ⟨h0, hd, hm, e⟩ <;> rw [e]
  · exact ⟨h.startFrame (by omega), fun _ he => SyncResult.noConfusion he⟩
  · exact ⟨h, fun _ he => SyncResult.noConfusion he⟩
  · exact ⟨h.toIdle (by omega), fun _ he => SyncResult.noConfusion he⟩
  · exact ⟨h.store (by omega) (by omega) (fun _ => ⟨hb, hb2, h.sync.toggle_clear (.inl h0)⟩),
      fun _ he => SyncResult.noConfusion he⟩
  · have e2 := (flipAndStore_cases b s).resolve_right (by rintro ⟨_, hx, _⟩; exact hse (hx.symm.trans hb))
    have htg : s.toggle = true := by
      subst hb; simpa [SyncCtx.toggleAfter, State.ctx, hse.symm] using ht
    have h3 : 3 ≤ s.count := by
      by_contra hx
      have := h.sync.toggle_clear (.inr (by omega))
      rw [htg] at this
      exact absurd this (by simp)
    have sb := h.complete (b := b) (flip := s.ctx.toggleAfter b) h3
    rw [e2.2]
    refine ⟨sb, fun t he => ?_⟩
    cases he
    obtain ⟨ty, h4, _⟩ := sb.sync.type_byte (.inr (by simp only; omega))
    exact ⟨rfl, by simp only [State.completeFrame]; omega, ty, h4⟩
  · refine ⟨?_, fun _ he => SyncResult.noConfusion he⟩
    rcases flipAndStore_cases b s with ⟨_, e2⟩ | ⟨_, _, _, e2⟩ <;> rw [e2]
    · exact h.overflow h0
    · exact h.toIdle (by omega)
  · refine ⟨?_, fun _ he => SyncResult.noConfusion he⟩
    rcases flipAndStore_cases b s with ⟨hs, e2⟩ | ⟨_, _, _, e2⟩ <;> rw [e2]
    · have hlt := h.sync.count_lt
      have : s.ctx.countAfter b = s.count + 1 := by simp [SyncCtx.countAfter, hs, State.ctx_count]
      exact h.store (by omega) (by omega) (fun hx => by omega)
    · exact ⟨⟨h.sync.count_lt, h.sync.start_byte, h.sync.type_byte, fun _ => rfl, h.sync.len_range⟩,
        ⟨h.buf.canonical, h.buf.inside, h.buf.partial_written, h.buf.frame_written⟩⟩

end Sys2Proof.Machine
end

