-- ==== Sys2Proof/Laws/PerInstr.lean ====
section
/-! SUPPORT. One fact per instruction: a transition row that a byte can select takes exactly one byte, of its class
(R100, R140); a host operation or a frame row is selected by no byte. -/

namespace Sys2Proof.Laws.RowEncoding

/-- What is said of an instruction. -/
def Statement (i : Instr) : Prop :=
  ∀ c : SyncCtx, rowEnabled c i = true → i.wellFormed c.par = true ∧ (encode c.par i).length = 1

theorem byteIn (b : Byte) : Statement (.byteIn b) :=
  fun _ h => absurd h (by simp [rowEnabled])

theorem fileStep (src : List Byte) : Statement (.fileStep src) :=
  fun _ h => absurd h (by simp [rowEnabled])

theorem reset : Statement (.reset) :=
  fun _ h => absurd h (by simp [rowEnabled])

theorem configure (a : Bool) (x : F64) : Statement (.configure a x) :=
  fun _ h => absurd h (by simp [rowEnabled])

theorem idleSync : Statement (.idleSync) :=
  fun _ _ => ⟨rfl, rfl⟩

theorem idleOther (b : Byte) : Statement (.idleOther b) :=
  fun _ h => ⟨by simp only [rowEnabled, Bool.and_eq_true] at h; simp [Instr.wellFormed, h], rfl⟩

theorem hdrNoiseSync : Statement (.hdrNoiseSync) :=
  fun _ _ => ⟨rfl, rfl⟩

theorem hdrNoiseEnd : Statement (.hdrNoiseEnd) :=
  fun _ _ => ⟨rfl, rfl⟩

theorem hdrType (b : Byte) : Statement (.hdrType b) :=
  fun _ h => ⟨by simp only [rowEnabled, Bool.and_eq_true] at h; simp [Instr.wellFormed, h], rfl⟩

theorem accSync : Statement (.accSync) :=
  fun _ _ => ⟨rfl, rfl⟩

theorem accEndToggle1 : Statement (.accEndToggle1) :=
  fun _ _ => ⟨rfl, rfl⟩

theorem accEndToggle0 : Statement (.accEndToggle0) :=
  fun _ _ => ⟨rfl, rfl⟩

theorem accOther (b : Byte) : Statement (.accOther b) :=
  fun _ h => ⟨by simp only [rowEnabled, Bool.and_eq_true] at h; simp [Instr.wellFormed, h], rfl⟩

theorem accOverflow (b : Byte) : Statement (.accOverflow b) :=
  fun _ _ => ⟨rfl, rfl⟩

theorem raw : Statement (.raw) :=
  fun _ h => absurd h (by simp [rowEnabled])

theorem ephGps : Statement (.ephGps) :=
  fun _ h => absurd h (by simp [rowEnabled])

theorem ephGlo : Statement (.ephGlo) :=
  fun _ h => absurd h (by simp [rowEnabled])

theorem bit : Statement (.bit) :=
  fun _ h => absurd h (by simp [rowEnabled])

theorem iono : Statement (.iono) :=
  fun _ h => absurd h (by simp [rowEnabled])

theorem utc : Statement (.utc) :=
  fun _ h => absurd h (by simp [rowEnabled])

theorem pvt : Statement (.pvt) :=
  fun _ h => absurd h (by simp [rowEnabled])

theorem alm : Statement (.alm) :=
  fun _ h => absurd h (by simp [rowEnabled])

theorem unrecognised : Statement (.unrecognised) :=
  fun _ h => absurd h (by simp [rowEnabled])

end Sys2Proof.Laws.RowEncoding
end

