-- ==== Sys2Proof/Tests/Slice0.lean ====
section
/-! SUPPORT. Tests: ill-formed terms that the checks refuse, bytes written out from the spec's encodings, single steps
against the worked examples of 95_test_vectors.md and R158, and for every statement with hypotheses a state and operands
that meet them. -/

namespace Sys2Proof.Tests

open Sys2Proof.Machine

set_option Elab.async false

/-! ### The test setting of 95_test_vectors.md L0 -/

/-- The parameters of L0; the inner system byte of an ephemeris frame, which L0 leaves open, is taken at index 2. -/
def testParams : Params := { defaultParams with
  satTable := some [⟨.gps, 1, 32, 1⟩, ⟨.glonass, 1, 27, 33⟩, ⟨.sbas, 120, 158, 60⟩]
  snrTable := List.range 256
  weekCycle := some 2
  signalTable := defaultSignals ++ [⟨0x08#8, .gps, 0, ⟨.l1p, .precise⟩⟩]
  ephInner := some ⟨2, 0x01#8, 0x02#8⟩ }

/-- The state after RESET with those parameters. -/
def fresh : State := { State.reset with par := testParams }

/-- A partial frame of type `ty`: `count` bytes stored, of which the first two matter. -/
def partialFrame (ty : Byte) (count : Nat) (toggle : Bool) : State :=
  { fresh with buf := [(0, 0x10#8), (1, ty)], count := count, toggle := toggle }

/-- A completed frame in the buffer. -/
def framed (bytes : List Byte) : State :=
  { fresh with buf := (List.range bytes.length).zip bytes, len := bytes.length, toggle := true }

/-- Raw-observation header fields of L0: week 272 (week 2320), `gpsutc` 18000.0, the unused fields zero. -/
def week272 : List Byte := [0x10#8, 0x01#8]
def week4096 : List Byte := [0x00#8, 0x10#8]
def gpsutc18000 : List Byte := [0#8, 0#8, 0#8, 0#8, 0x00#8, 0x94#8, 0xD1#8, 0x40#8]
/-- R8 345600003.0 -/
def tow345600003 : List Byte := [0x00#8, 0x00#8, 0x00#8, 0x03#8, 0x70#8, 0x99#8, 0xB4#8, 0x41#8]
/-- R8 +∞ -/
def towInfinite : List Byte := [0#8, 0#8, 0#8, 0#8, 0#8, 0#8, 0xF0#8, 0x7F#8]

/-- A completed raw-observation frame. -/
def rawFrame (tow week : List Byte) (recs : List Byte) : State :=
  framed ([0x10#8, 0xF5#8] ++ tow ++ week ++ gpsutc18000 ++ List.replicate 9 0#8 ++ recs ++ [0x10#8, 0x03#8])

/-- `Rec(sig, prn, 0, 45, 1.2e8, 70.0, −1234.5, flag)` of L0. -/
def record (sig prn flag : Byte) : List Byte :=
  [sig, prn, 0x00#8, 0x2D#8, 0x00#8, 0x00#8, 0x00#8, 0x00#8, 0x38#8, 0x9C#8, 0x9C#8, 0x41#8] ++
  [0x00#8, 0x00#8, 0x00#8, 0x00#8, 0x00#8, 0x80#8, 0x51#8, 0x40#8] ++
  [0x00#8, 0x00#8, 0x00#8, 0x00#8, 0x00#8, 0x4A#8, 0x93#8, 0xC0#8] ++ [flag, 0x00#8]

/-- The same record as its fields. -/
def recordOf (sig prn flag : Byte) : RawRecord :=
  ⟨sig, prn, 0, 0x2D#8, 0x419C9C3800000000#64, 0x4051800000000000#64, 0xC0934A0000000000#64, flag⟩

/-- The header `rawFrame` of time of week 345600003.0 ms and week 272 holds. -/
def header272 : RawHeader := ⟨0x41B4997003000000#64, 272#16, 0x40D1940000000000#64⟩

/-- Its epoch (V-RO-2): `frac` is 3.0 ms and `t` is 1403481618 s. -/
def epoch2320 : Epoch := ⟨1403481618, .fin false 3, .fin false 0⟩

/-- The parameters with the three layouts that may read past a short frame at `n` bytes. -/
def shortLayouts (n : Nat) : Params := { testParams with attachedReach := ⟨some n, some n, some n⟩ }

/-- What an outcome says of its next state. -/
def nextHas (r : Result) (p : State → Bool) : Bool :=
  match r with
  | .next t => p t
  | .fault _ => false
  | .refused _ => false

/-- The fault of an outcome. -/
def faultOf (r : Result) : Option Fault :=
  match r with
  | .fault f => some f
  | .next _ => none
  | .refused _ => none

/-- The refusal of an outcome. -/
def refusalOf (r : Result) : Option Refusal :=
  match r with
  | .refused f => some f
  | .next _ => none
  | .fault _ => none

/-! ### Well-formedness: one ill-formed term for each check (R7, R100) -/

theorem test_wf_default_params_ok : defaultParams.ok = true := by decide
theorem test_wf_repeated_type_byte : { defaultParams with typeAlm := 0xF5#8 }.ok = false := by decide
theorem test_wf_sync_equals_end : { defaultParams with endMark := 0x10#8 }.ok = false := by decide
theorem test_wf_max_frame_30 : { defaultParams with maxFrame := 30 }.ok = false := by decide
theorem test_wf_zero_search_limit : { defaultParams with syncSearchLimit := 0 }.ok = false := by decide
theorem test_wf_zero_obs_sats : { defaultParams with maxObsSats := 0 }.ok = false := by decide
theorem test_wf_header_fields : ({ defaultLayout with tow := 1 }.ok || { defaultLayout with tow := 22 }.ok ||
    { defaultLayout with week := 1 }.ok || { defaultLayout with week := 28 }.ok ||
    { defaultLayout with gpsutc := 1 }.ok || { defaultLayout with gpsutc := 22 }.ok) = false := by decide
theorem test_wf_record_fields : ({ defaultLayout with sig := 30 }.ok || { defaultLayout with prn := 30 }.ok ||
    { defaultLayout with chan := 30 }.ok || { defaultLayout with snr := 30 }.ok ||
    { defaultLayout with phase := 23 }.ok || { defaultLayout with range := 23 }.ok ||
    { defaultLayout with dopp := 23 }.ok || { defaultLayout with flag := 30 }.ok) = false := by decide
theorem test_wf_idle_other_sync : Instr.wellFormed defaultParams (.idleOther 0x10#8) = false := by decide
theorem test_wf_hdr_type_marks : (Instr.wellFormed defaultParams (.hdrType 0x10#8) ||
    Instr.wellFormed defaultParams (.hdrType 0x03#8)) = false := by decide
theorem test_wf_acc_other_marks : (Instr.wellFormed defaultParams (.accOther 0x10#8) ||
    Instr.wellFormed defaultParams (.accOther 0x03#8)) = false := by decide

/-! ### Decoding: bytes written out from the spec's encodings (R100, R104, R109, R116) -/

theorem test_decode_idle : decodeByte fresh.ctx 0x10#8 = .idleSync ∧ decodeByte fresh.ctx 0x55#8 = .idleOther 0x55#8 := by
  decide
theorem test_decode_header : decodeByte ⟨testParams, 1, false⟩ 0x10#8 = .hdrNoiseSync ∧
    decodeByte ⟨testParams, 1, false⟩ 0x03#8 = .hdrNoiseEnd ∧
    decodeByte ⟨testParams, 1, false⟩ 0x88#8 = .hdrType 0x88#8 := by decide
theorem test_decode_accumulating : decodeByte ⟨testParams, 2, false⟩ 0x10#8 = .accSync ∧
    decodeByte ⟨testParams, 3, true⟩ 0x03#8 = .accEndToggle1 ∧
    decodeByte ⟨testParams, 2, false⟩ 0x03#8 = .accEndToggle0 ∧
    decodeByte ⟨testParams, 2, false⟩ 0x00#8 = .accOther 0x00#8 := by decide
/-- R151, R152: at `count` 4095 a byte that is stored overflows, `END` with an odd toggle completes, and a `SYNC` that
is dropped does neither. -/
theorem test_decode_last_index : decodeByte ⟨testParams, 4095, false⟩ 0x41#8 = .accOverflow 0x41#8 ∧
    decodeByte ⟨testParams, 4095, false⟩ 0x10#8 = .accOverflow 0x10#8 ∧
    decodeByte ⟨testParams, 4095, false⟩ 0x03#8 = .accOverflow 0x03#8 ∧
    decodeByte ⟨testParams, 4095, true⟩ 0x03#8 = .accEndToggle1 ∧
    decodeByte ⟨testParams, 4095, true⟩ 0x10#8 = .accSync := by decide
/-- R104: the default type bytes. -/
theorem test_decode_type_bytes : [0xF5#8, 0xF7#8, 0xE5#8, 0x4A#8, 0x4B#8, 0x88#8, 0x41#8].map (frameKind testParams) =
    [.raw, .eph, .bit, .iono, .utc, .pvt, .unrecognised] := by decide
/-- R109, R110: the default signal rows; an unmapped code is `UNDEF`. -/
theorem test_decode_signals : (signalOf defaultParams 0x01#8).map (·.sys) = some .glonass ∧
    (signalOf defaultParams 0x02#8).map (·.sys) = some .gps ∧ (signalOf defaultParams 0x04#8).map (·.sys) = some .sbas ∧
    signalOf defaultParams 0x77#8 = none := by decide
theorem test_decode_rejects : decode fresh.ctx [] = .error .noByte ∧
    decode ⟨{ testParams with maxFrame := 30 }, 0, false⟩ [0x10#8] = .error .badParameters := ⟨rfl, by decide⟩
theorem test_decode_table_word : decodeTableWord 8 0x10 = some (.byteIn 0x10#8) ∧ decodeTableWord 8 256 = none := by
  decide
/-- L1-1: the wire form of the payload `10 03`. -/
theorem test_encode_frame : frame testParams 0x41#8 [0x10#8, 0x03#8] =
    [0x10#8, 0x41#8, 0x10#8, 0x10#8, 0x03#8, 0x10#8, 0x03#8] := by decide
/-- R112: the SBAS bias. -/
theorem test_sbas_prn : prnOf testParams .sbas 39#8 = 159 ∧ prnOf testParams .gps 39#8 = 39 ∧
    prnOf { testParams with sbasPrnBias := -40 } .sbas 39#8 = -1 := by decide

/-! ### Single steps (R158, 95_test_vectors.md) -/

theorem test_step_first_instruction :
    step (State.reset.withFetchWord 8 0x10) = exec (.byteIn 0x10#8) State.reset := by rfl
theorem test_step_idle_input : step fresh = .next fresh := by rfl
theorem test_step_bad_parameters : step { fresh with par := { testParams with maxFrame := 30 } } =
    .refused .badParameters := by rfl
/-- R158: `41 10` from Idle ends in Header with `buf[0]` = 10. -/
theorem test_byte_in_starts_frame : nextHas (exec (.byteIn 0x10#8) fresh)
    (fun t => t.count = 1 && t.buf = [(0, 0x10#8)] && t.out = answered .noMessage) = true := by decide +kernel
/-- R158: in Header a `SYNC` is noise. -/
theorem test_byte_in_header_noise : nextHas (exec (.byteIn 0x10#8) (partialFrame 0x41#8 1 false))
    (fun t => t.count = 0 && !t.toggle && t.out = answered .noMessage) = true := by decide +kernel
/-- R158: Accumulating, `count` = 4095, `41` gives −1 and Idle. -/
theorem test_byte_in_overflow : nextHas (exec (.byteIn 0x41#8) (partialFrame 0x41#8 4095 false))
    (fun t => t.count = 0 && !t.toggle && t.len = 0 && t.out.status.map Status.code = some (-1)) = true := by
  decide +kernel
/-- R158: Accumulating, `count` = 4095, `toggle` = 1, `03` completes with `len` = 4096 (type 0x41: status 0). -/
theorem test_byte_in_exact_fit : nextHas (exec (.byteIn 0x03#8) (partialFrame 0x41#8 4095 true))
    (fun t => t.count = 0 && t.toggle && t.len = 4096 && t.out = answeredFrame .noMessage 0x41#8 4096) = true := by
  decide +kernel
/-- V-BI-7: the second lone `SYNC` clears the toggle and is dropped. -/
theorem test_acc_sync_drops_even : nextHas (exec .accSync (partialFrame 0x41#8 5 true))
    (fun t => t.count = 5 && !t.toggle) = true := by decide +kernel
/-- V-BI-8: `10 F5 10 03` is a raw-observation frame of length 4: −1. -/
theorem test_raw_format_error : nextHas (exec .accEndToggle1 (partialFrame 0xF5#8 3 true))
    (fun t => t.len = 4 && t.out.status.map Status.code = some (-1)) = true := by decide +kernel
/-- V-FS-2, V-FS-3: end of input keeps the partial frame, or drops it. -/
theorem test_file_step_end_of_input : nextHas (exec (.fileStep [0x10#8, 0xF5#8]) fresh)
      (fun t => t.count = 2 && t.out = ⟨some .endOfInput, none, some []⟩) = true ∧
    nextHas (exec (.fileStep [0x10#8, 0xF5#8]) { fresh with par := { testParams with eofDiscardsPartial := true } })
      (fun t => t.count = 0 && t.out.status.map Status.code = some (-2)) = true := by decide +kernel
/-- V-FS-6: one frame, 5 bytes consumed, the next frame left in the source. -/
theorem test_file_step_one_frame :
    nextHas (exec (.fileStep [0x41#8, 0x10#8, 0x41#8, 0x10#8, 0x03#8, 0x10#8, 0x41#8, 0x10#8, 0x03#8]) fresh)
      (fun t => t.count = 0 && t.len = 4 &&
        t.out = ⟨some .noMessage, some (0x41#8, 4), some [0x10#8, 0x41#8, 0x10#8, 0x03#8]⟩) = true := by decide +kernel
/-- A row no byte selects there is not run. -/
theorem test_row_not_selected : refusalOf (exec .accSync fresh) = some .rowNotSelected ∧
    refusalOf (exec .raw (framed [0x10#8, 0x41#8, 0x10#8, 0x03#8])) = some .rowNotSelected := by decide +kernel
/-- V-DI-1: an unrecognised frame. -/
theorem test_unrecognised : nextHas (exec .unrecognised (framed [0x10#8, 0x41#8, 0x10#8, 0x03#8]))
    (fun t => t.out = answeredFrame .noMessage 0x41#8 4) = true := by decide +kernel
/-- R218: the status byte 0x90 says previous fix used and differential used, 0x4C the other three. -/
theorem test_pvt_flags : pvtFlags 0x90#8 = ⟨true, false, true, false, false⟩ ∧
    pvtFlags 0x4C#8 = ⟨false, true, false, true, true⟩ := by decide
/-- R215, R308, A22: a malformed frame with a decoded sub-block gives −1 or 3; without one, −1; a good frame without one, 0. -/
theorem test_bit_status (a : AttachedAnswer) :
    bitStatus { a with bad := true, sbasDecoded := true, pickError := true } = .error ∧
    bitStatus { a with bad := true, sbasDecoded := true, pickError := false } = .sbas ∧
    bitStatus { a with bad := true, sbasDecoded := false } = .error ∧
    bitStatus { a with bad := false, sbasDecoded := false } = .noMessage := by simp [bitStatus]
/-- R87, R315, C10: a UTC layout of 6 bytes reads past a frame of 5; one of 5 does not. -/
theorem test_attached_reads_beyond :
    faultOf (exec .utc { framed [0x10#8, 0x4B#8, 0x00#8, 0x10#8, 0x03#8] with par := shortLayouts 6 }) =
      some .unwrittenBufferRead ∧
    (∃ t, exec .utc { framed [0x10#8, 0x4B#8, 0x00#8, 0x10#8, 0x03#8] with par := shortLayouts 5 } = .next t) :=
  ⟨by decide +kernel, _, rfl⟩
/-- R213, R214: without an epoch nothing is applied. -/
theorem test_ephemeris_without_epoch (a : AttachedAnswer) : ephGpsStatus none true a ≠ .ephemeris ∧
    ephGloStatus none a ≠ .ephemeris := by
  constructor
  · rcases ephGpsStatus_cases none true a with h | h | h <;> simp_all
  · rcases ephGloStatus_cases none a with h | h | h <;> simp_all
/-- V-RS-1: RESET from a state with everything set. -/
theorem test_reset : nextHas (exec .reset { rawFrame tow345600003 week272 [] with
      count := 3, lastEpoch := some 5, halfc := [(48, 8#8)], optAcceptAll := true, optTadj := 1#64 })
    (fun t => t = { fresh with out := Output.none }) = true := by decide +kernel
/-- V-RS: CONFIGURE takes any pattern, a NaN included. -/
theorem test_configure : nextHas (exec (.configure true 0x7FF8000000000000#64) fresh)
    (fun t => t.optAcceptAll && t.optTadj = 0x7FF8000000000000#64) = true := by decide +kernel

/-! ### RAW -/

/-- V-RO-2: no records; status 1, an empty set, the epoch 1403481618 s. -/
theorem test_raw_no_records : nextHas (exec .raw (rawFrame tow345600003 week272 []))
    (fun t => t.obs = [] && t.lastEpoch = some 1403481618 && t.out = answeredFrame .observation 0xF5#8 31) = true := by
  decide +kernel
/-- V-RO-5: week 4096 gives 0. -/
theorem test_raw_week_4096 : nextHas (exec .raw (rawFrame tow345600003 week4096 []))
    (fun t => t.lastEpoch = none && t.out = answeredFrame .noMessage 0xF5#8 31) = true := by decide +kernel
/-- V-RO-13: an infinite time of week faults. -/
theorem test_raw_infinite_epoch : faultOf (exec .raw (rawFrame towInfinite week272 [])) = some .nonFiniteEpoch := by
  decide +kernel
/-- V-RO-45, V-RO-47, V-RO-51 and L1-5: the slot of one record, and its half-cycle byte. -/
theorem test_raw_one_record : nextHas (exec .raw (rawFrame tow345600003 week272 (record 0x02#8 16#8 0x08#8)))
    (fun t => (t.obs.map (fun x => (x.sat, x.slot0.P, x.slot0.L))) =
        [(16, 0x417327D4EAF9DB23#64, 0x419C9C3800000000#64)] &&
      (t.obs.map (fun x => (x.slot0.snr, x.slot0.lli, x.slot1))) = [(45, true, Slot.zero)] &&
      t.halfc = [(48, 0x08#8)]) = true := by decide +kernel
/-- R252: an unresolved satellite rejects the message. -/
theorem test_raw_unresolved : nextHas (exec .raw (rawFrame tow345600003 week272 (record 0x02#8 33#8 0x08#8)))
    (fun t => t.lastEpoch = none && t.out.status.map Status.code = some (-1)) = true := by decide +kernel
/-- V-RO-6, V-RO-7, V-RO-8, V-RO-12: snapping, ties toward +∞. -/
theorem test_snap : snapTow (.fin false 345618003) = .fin false 345618000 ∧
    snapTow (.fin false 345618005) = .fin false 345618010 ∧ snapTow (.fin false 345617995) = .fin false 345618000 ∧
    snapTow (.fin true 5) = .fin false 0 := by decide +kernel
/-- V-RO-15: `tow_int` 345618500.0 with `opt_tadj` 1.0: `toff` −0.5, the epoch 345619 s of week 2320. -/
theorem test_smoothing_tie : smoothEpoch (1403136000 + 345618 + 1 / 2) (.fin false 0) 0x3FF0000000000000#64 =
    .ok ⟨1403136000 + 345619, .fin false 0, .fin true (1 / 2)⟩ := by decide +kernel
/-- V-RO-48: −1234.567 to binary32 is −1234.5670166015625. -/
theorem test_doppler : doppler { recordOf 2#8 16#8 0#8 with dopp := 0xC0934A449BA5E354#64 } = 0xC49A5225#32 := by
  decide +kernel
/-- V-RO-50: chan byte FD is −3; GLONASS channel −3 is 1600312500.0 Hz. -/
theorem test_glonass_carrier : (0xFD#8).toInt = -3 ∧
    carrierFreq testParams .glonass 0 (-3) = .fin false 1600312500 := by decide +kernel
/-- R257: 1e10 passes, the next binary64 does not, a NaN does not; Doppler −100000 passes. -/
theorem test_range_bounds : inRange { recordOf 2#8 1#8 0#8 with phase := 0x4202A05F20000000#64 } = true ∧
    inRange { recordOf 2#8 1#8 0#8 with phase := 0x4202A05F20000001#64 } = false ∧
    inRange { recordOf 2#8 1#8 0#8 with range := 0x7FF8000000000000#64 } = false ∧
    inRange { recordOf 2#8 1#8 0#8 with dopp := 0xC0F86A0000000000#64 } = true := by decide +kernel
/-- V-RO-43: two records of one slot: the first one's loss of lock is lost. -/
theorem test_repeated_record : ((decodeRecords testParams epoch2320 ⟨[], []⟩
    [recordOf 2#8 16#8 8#8, recordOf 2#8 16#8 8#8]).obs.map (·.slot0.lli)) = [false] := by decide +kernel
/-- V-RO-41: precise then civil keeps the precise code and its flag byte. -/
theorem test_precise_then_civil : ((decodeRecords testParams epoch2320 ⟨[], []⟩
      [recordOf 8#8 16#8 8#8, recordOf 2#8 16#8 0#8]).obs.map (·.slot0.code)) = [some ⟨.l1p, .precise⟩] ∧
    halfcGet (decodeRecords testParams epoch2320 ⟨[], []⟩
      [recordOf 8#8 16#8 8#8, recordOf 2#8 16#8 0#8]).halfc 16 0 = 8#8 := by decide +kernel

/-! ### Witnesses: a state and operands that meet each statement's hypotheses -/

/-- R154's premises, for an empty payload and for one that fills the buffer. -/
theorem test_witness_stuffed_frame : fresh.par.ok = true ∧ fresh.count = 0 ∧ 0xF5#8 ≠ fresh.par.sync ∧
    0xF5#8 ≠ fresh.par.endMark ∧ 4 + ([] : List Byte).length ≤ fresh.par.maxFrame ∧
    4 + (List.replicate 4092 0x10#8).length ≤ fresh.par.maxFrame :=
  ⟨by decide, rfl, by decide, by decide, by decide, by rw [List.length_replicate]; decide⟩

/-- Each transition row is enabled and well formed somewhere. -/
theorem test_witness_rows_enabled : testParams.ok = true ∧
    rowEnabled ⟨testParams, 0, false⟩ .idleSync = true ∧ rowEnabled ⟨testParams, 0, true⟩ (.idleOther 3#8) = true ∧
    rowEnabled ⟨testParams, 1, false⟩ .hdrNoiseSync = true ∧ rowEnabled ⟨testParams, 1, false⟩ .hdrNoiseEnd = true ∧
    rowEnabled ⟨testParams, 1, false⟩ (.hdrType 0xF5#8) = true ∧ rowEnabled ⟨testParams, 4095, true⟩ .accSync = true ∧
    rowEnabled ⟨testParams, 4095, true⟩ .accEndToggle1 = true ∧
    rowEnabled ⟨testParams, 4094, false⟩ .accEndToggle0 = true ∧
    rowEnabled ⟨testParams, 4094, true⟩ (.accOther 0x41#8) = true ∧
    rowEnabled ⟨testParams, 4095, false⟩ (.accOverflow 0x10#8) = true := by decide

/-- The other premise of the two encoding statements about a row. -/
theorem test_witness_rows_well_formed : Instr.wellFormed testParams (.idleOther 3#8) = true ∧
    Instr.wellFormed testParams (.accOverflow 0x10#8) = true ∧ encode testParams .accSync = [0x10#8] := by decide

theorem test_witness_type_bytes : testParams.ok = true ∧ typeByte testParams .pvt = some 0x88#8 ∧
    ∀ k, typeByte testParams k ≠ some 0x41#8 := by
  refine ⟨by decide, by decide, fun k => ?_⟩
  cases k <;> decide

/-- Idle and Header rows. -/
theorem test_witness_idle_and_header : fresh.count = 0 ∧ 0x03#8 ≠ fresh.par.sync ∧
    (partialFrame 0#8 1 false).count = 1 ∧ 0x00#8 ≠ (partialFrame 0#8 1 false).par.sync ∧
    0x00#8 ≠ (partialFrame 0#8 1 false).par.endMark := by decide

/-- ACC_SYNC: both clauses, at the last index too. -/
theorem test_witness_acc_sync :
    (2 ≤ (partialFrame 0x41#8 4094 false).count ∧ (partialFrame 0x41#8 4094 false).toggle = false ∧
      (partialFrame 0x41#8 4094 false).count + 1 ≠ (partialFrame 0x41#8 4094 false).par.maxFrame) ∧
    (2 ≤ (partialFrame 0x41#8 4095 true).count ∧ (partialFrame 0x41#8 4095 true).toggle = true ∧
      (partialFrame 0x41#8 4095 true).count ≠ (partialFrame 0x41#8 4095 true).par.maxFrame) := by decide

/-- ACC_OTHER and ACC_END_TOGGLE0. -/
theorem test_witness_payload_bytes : 2 ≤ (partialFrame 0x41#8 2 false).count ∧
    (partialFrame 0x41#8 2 false).count + 1 ≠ (partialFrame 0x41#8 2 false).par.maxFrame ∧
    0xFF#8 ≠ (partialFrame 0x41#8 2 false).par.sync ∧ 0xFF#8 ≠ (partialFrame 0x41#8 2 false).par.endMark ∧
    (partialFrame 0x41#8 2 false).toggle = false := by decide

/-- ACC_END_TOGGLE1, for a raw frame and for an unrecognised one. -/
theorem test_witness_completion : 2 ≤ (partialFrame 0x41#8 4095 true).count ∧
    (partialFrame 0x41#8 4095 true).toggle = true ∧ bufByte (partialFrame 0x41#8 4095 true) 1 = some 0x41#8 ∧
    frameKind (partialFrame 0x41#8 4095 true).par 0x41#8 = .unrecognised := by decide

/-- ACC_OVERFLOW: a byte of each class. -/
theorem test_witness_overflow : 2 ≤ (partialFrame 0x41#8 4095 false).count ∧
    (partialFrame 0x41#8 4095 false).count + 1 = (partialFrame 0x41#8 4095 false).par.maxFrame ∧
    ∀ b : Byte, (b = (partialFrame 0x41#8 4095 false).par.sync → (partialFrame 0x41#8 4095 false).toggle = false) ∧
      (b = (partialFrame 0x41#8 4095 false).par.endMark → (partialFrame 0x41#8 4095 false).toggle = false) :=
  ⟨by decide, by decide, fun _ => ⟨fun _ => rfl, fun _ => rfl⟩⟩

/-- A byte that completes nothing, and one after which a next state stands. -/
theorem test_witness_without_completion : decodeByte fresh.ctx 0x10#8 ≠ .accEndToggle1 ∧
    (∃ t, exec (.byteIn 0x03#8) (partialFrame 0x41#8 3 true) = .next t) := ⟨by decide, _, rfl⟩

/-- A completed frame of each kind. -/
theorem test_witness_frame_ready (ty b : Byte) : frameReady (framed [0x10#8, ty, b, 0x10#8, 0x03#8]) ty :=
  ⟨rfl, by simp [framed], rfl⟩

theorem test_witness_frame_kinds : [0xF5#8, 0xF7#8, 0xE5#8, 0x4A#8, 0x4B#8, 0x88#8, 0x40#8, 0x41#8].map
    (frameKind (framed []).par) = [.raw, .eph, .bit, .iono, .utc, .pvt, .alm, .unrecognised] := by decide

/-- The inner system byte says GPS, or GLONASS; the answer drawn is one. -/
theorem test_witness_ephemeris_system :
    ephSystem (framed [0x10#8, 0xF7#8, 0x01#8, 0x10#8, 0x03#8]) = .gps ∧
    ephSystem (framed [0x10#8, 0xF7#8, 0x02#8, 0x10#8, 0x03#8]) = .glonass ∧
    ∃ a, a = Config.attached .eph 0 (attachedView (framed [0x10#8, 0xF7#8, 0x02#8, 0x10#8, 0x03#8])) :=
  ⟨by decide, by decide, _, rfl⟩

/-- A frame row that answers a next state, of RAW and of an attached decoder. -/
theorem test_witness_row_answers :
    (∃ t, exec (frameRow .raw .gps) (framed [0x10#8, 0xF5#8, 0x00#8, 0x10#8, 0x03#8]) = .next t) ∧
    (∃ t, exec (frameRow .iono .gps) (framed [0x10#8, 0x4A#8, 0x00#8, 0x10#8, 0x03#8]) = .next t) :=
  ⟨⟨_, rfl⟩, ⟨_, rfl⟩⟩

/-- A layout that fits the frame exactly, one that is a byte longer, and none. -/
theorem test_witness_attached_reach :
    (∀ n, (shortLayouts 5).attachedReach.iono = some n → n ≤ (framed [0x10#8, 0x4A#8, 0x00#8, 0x10#8, 0x03#8]).len) ∧
    (shortLayouts 6).attachedReach.pvt = some 6 ∧ (framed [0x10#8, 0x88#8, 0x00#8, 0x10#8, 0x03#8]).len < 6 ∧
    testParams.attachedReach.utc = none := by
  refine ⟨fun n h => ?_, rfl, by decide, rfl⟩
  cases h
  decide

/-- A length that is not 31 + 30k: below 31, and above it. -/
theorem test_witness_raw_length : (framed [0x10#8, 0xF5#8, 0x00#8, 0x10#8, 0x03#8]).len < 31 ∧
    ((rawFrame tow345600003 week272 [0#8]).len - 31) % 30 ≠ 0 := by decide

/-- The premises the RAW statements share. -/
theorem test_witness_raw_header : frameReady (rawFrame tow345600003 week272 []) 0xF5#8 ∧
    frameKind (rawFrame tow345600003 week272 []).par 0xF5#8 = .raw ∧ 31 ≤ (rawFrame tow345600003 week272 []).len ∧
    ((rawFrame tow345600003 week272 []).len - 31) % 30 = 0 ∧
    readHeader (rawFrame tow345600003 week272 []) = .ok header272 ∧ header272.week.toNat < 4096 :=
  ⟨⟨rfl, by decide, rfl⟩, by decide, by decide, by decide, by decide +kernel, by decide⟩

theorem test_witness_raw_week : readHeader (rawFrame tow345600003 week4096 []) = .ok { header272 with week := 4096#16 } ∧
    4096 ≤ ({ header272 with week := 4096#16 } : RawHeader).week.toNat := ⟨by decide +kernel, by decide⟩

theorem test_witness_raw_non_finite :
    readHeader (rawFrame towInfinite week272 []) = .ok { header272 with tow := 0x7FF0000000000000#64 } ∧
    fpFinite (fpAdd (fpOfBits 0x7FF0000000000000#64) (fpOfBits header272.gpsutc)) = false := by decide +kernel

theorem test_witness_raw_epoch : deriveEpoch (adjWeek (rawFrame tow345600003 week272 []) header272.week.toNat) header272
    (rawFrame tow345600003 week272 []).optTadj = .ok epoch2320 := by decide +kernel

/-- A jump and a duplicate; and at the bounds neither (R249, R250). -/
theorem test_witness_raw_gaps : 86400 < |epoch2320.t - 1403395217| ∧ |epoch2320.t - 1403481618| < 1 / 1000 ∧
    (|epoch2320.t - 1403395218| ≤ 86400 ∧ 1 / 1000 ≤ |epoch2320.t - 1403395218|) ∧
    (|epoch2320.t - (1403481618 - 1 / 1000)| ≤ 86400 ∧ 1 / 1000 ≤ |epoch2320.t - (1403481618 - 1 / 1000)|) := by
  norm_num [epoch2320]

/-- Admitted records, without a previous epoch: the second satellite does not resolve. -/
theorem test_witness_raw_records : (rawFrame tow345600003 week272 (record 2#8 16#8 8#8)).lastEpoch = none ∧
    readRecords (rawFrame tow345600003 week272 (record 2#8 16#8 8#8)) 29
      (((rawFrame tow345600003 week272 (record 2#8 16#8 8#8)).len - 31) / 30) = .ok [recordOf 2#8 16#8 8#8] ∧
    satNo testParams .gps (prnOf testParams .gps 16#8) = some 16 ∧
    readRecords (rawFrame tow345600003 week272 (record 2#8 33#8 8#8)) 29
      (((rawFrame tow345600003 week272 (record 2#8 33#8 8#8)).len - 31) / 30) = .ok [recordOf 2#8 33#8 8#8] ∧
    satNo testParams .gps (prnOf testParams .gps 33#8) = none := by decide +kernel

/-- RAW with status 1, and with another status. -/
theorem test_witness_raw_statuses :
    nextHas (exec .raw (rawFrame tow345600003 week272 [])) (fun t => t.out.status = some .observation) = true ∧
    nextHas (exec .raw (rawFrame tow345600003 week4096 [])) (fun t => t.out.status ≠ some .observation) = true := by
  decide +kernel

theorem test_witness_week_cycle : fresh.par.weekCycle = some 2 := rfl

/-- The epoch arithmetic: a finite time of week, smoothing off, on with a finite offset, on with one that is not. -/
theorem test_witness_smoothing : fpFinite (fpAdd (fpOfBits header272.tow) (fpOfBits header272.gpsutc)) = true ∧
    fpFinite (snapTow (fpAdd (fpOfBits header272.tow) (fpOfBits header272.gpsutc))) = true ∧
    fpPositive (fpOfBits 0#64) = false ∧ fpPositive (fpOfBits 0x3FF0000000000000#64) = true ∧
    fpFinite (smoothOffset 1403481618 (fpOfBits 0x3FF0000000000000#64)) = true ∧
    fpPositive (fpOfBits 1#64) = true ∧ fpFinite (smoothOffset 1403481618 (fpOfBits 1#64)) = false := by decide +kernel

/-- The four ways a record is skipped. -/
theorem test_witness_skipped_record : signalOf testParams 0x77#8 = none ∧
    inRange { recordOf 2#8 1#8 0#8 with range := 0x7FF0000000000000#64 } = false ∧
    (obsFind [] 16 = none ∧ ([] : List ObsEntry).length = { testParams with maxObsSats := 0 }.maxObsSats) ∧
    (obsFind (decodeRecord testParams epoch2320 ⟨[], []⟩ (recordOf 8#8 16#8 8#8)).obs 16).map
      (fun x => (x.slot 0).code) = some (some ⟨.l1p, .precise⟩) := by decide +kernel

/-- The premises of the record statements, from an empty set. -/
theorem test_witness_record : halfcWf [] = true ∧ (signalOf testParams 2#8).map (·.slot) = some 0 ∧
    (signalOf testParams 8#8).map (·.slot) = some 0 ∧ (signalOf testParams 2#8).map (·.code.cls) = some .civil ∧
    (signalOf testParams 8#8).map (·.code.cls) = some .precise ∧
    (signalOf testParams 2#8).map (fun g => recordSat testParams g (recordOf 2#8 16#8 8#8)) = some (some 16) ∧
    (signalOf testParams 8#8).map (fun g => recordSat testParams g (recordOf 8#8 16#8 8#8)) = some (some 16) ∧
    inRange (recordOf 2#8 16#8 8#8) = true ∧ inRange (recordOf 8#8 16#8 8#8) = true ∧
    ([] : List ObsEntry).length ≠ testParams.maxObsSats := by decide +kernel

theorem test_witness_record_finds_nothing (x : ObsEntry) : obsFind [] 16 ≠ some x := by simp [obsFind]

/-- Smoothing off: the stored phase statement's premises. -/
theorem test_witness_phase : epoch2320.toff = .fin false 0 ∧ fpOfBits 0x419C9C3800000000#64 = .fin false 120000000 ∧
    fpFinite (carrierFreq testParams .gps 0 0) = true := by decide +kernel

theorem test_witness_not_nan : fpOfBits 0xFFF0000000000000#64 ≠ .nan ∧ fpOfBits 0x8000000000000000#64 ≠ .nan ∧
    fpOfBits 0x0000000000000001#64 ≠ .nan := by decide +kernel

/-- The default carriers, a channel at each end of its range, and a slot that holds a precise code. -/
theorem test_witness_carriers_and_precise_slot : testParams.carrierTable = defaultCarriers ∧
    (-128 : Int) ≤ (0x80#8).toInt ∧ (0x7F#8).toInt ≤ 127 ∧
    (obsFind (decodeRecord testParams epoch2320 ⟨[], []⟩ (recordOf 8#8 16#8 8#8)).obs 16).map
      (fun x => (x.slot 0).code.map (·.cls)) = some (some .precise) := by decide +kernel

/-- The bytes of the field reads, at the ends of a frame; records of the default layout. -/
theorem test_witness_field_reads :
    holdsBytes (framed [0x10#8, 0x41#8, 0x00#8, 0x10#8, 0x03#8]) 3 [0x10#8, 0x03#8] ∧
    holdsBytes (rawFrame tow345600003 week272 []) 2 tow345600003 ∧ 2 + 8 ≤ (rawFrame tow345600003 week272 []).len ∧
    (rawFrame tow345600003 week272 []).par.layout = defaultLayout := by
  refine ⟨⟨rfl, rfl, trivial⟩, ⟨rfl, rfl, rfl, rfl, rfl, rfl, rfl, rfl, trivial⟩, by decide, rfl⟩

/-- `U2` at the last two bytes of a frame, and a read one byte beyond it. -/
theorem test_witness_reads : 3 + 2 ≤ (framed [0x10#8, 0x41#8, 0x00#8, 0x10#8, 0x03#8]).len ∧
    bufByte (framed [0x10#8, 0x41#8, 0x00#8, 0x10#8, 0x03#8]) 3 = some 0x10#8 ∧
    bufByte (framed [0x10#8, 0x41#8, 0x00#8, 0x10#8, 0x03#8]) 4 = some 0x03#8 ∧
    (framed [0x10#8, 0x41#8, 0x00#8, 0x10#8, 0x03#8]).len < 4 + 2 := by decide

/-- A sync search that stops at a limit of 2. -/
theorem test_witness_search_limit : { testParams with syncSearchLimit := 2 }.ok = true ∧
    ([0x41#8, 0x03#8] : List Byte).length = 2 ∧ ∀ b ∈ ([0x41#8, 0x03#8] : List Byte), b ≠ testParams.sync := by decide

/-- R183: searches of two bytes that end in Header and in Idle, begun in either. -/
theorem test_witness_search_ends : searchEnds testParams false [0x41#8, 0x10#8] = some true ∧
    searchEnds testParams false [0x10#8, 0x03#8] = some false ∧ searchEnds testParams true [0x10#8, 0x10#8] = some true ∧
    searchEnds testParams true [0x10#8, 0x41#8] = some false ∧ searchEnds testParams true [0x41#8] = none := by decide

/-- The premise of R154's file form that the byte form lacks, at its bound. -/
theorem test_witness_file_frame : 2 ≤ { testParams with syncSearchLimit := 2 }.syncSearchLimit ∧
    frameKind fresh.par 0x41#8 = .unrecognised ∧ fresh.par.eofDiscardsPartial = false ∧
    { testParams with eofDiscardsPartial := true }.eofDiscardsPartial = true := by decide

/-- A partial frame meets the invariant. -/
theorem test_witness_invariant : Inv (partialFrame 0x41#8 2 false) := by
  refine ⟨⟨?_, ?_, ?_, ?_, ?_⟩, ⟨?_, ?_, ?_, ?_⟩, ⟨?_, ?_, ?_, ?_⟩, ⟨?_, ?_⟩, ⟨?_, ?_, ?_⟩, ⟨?_, ?_, ?_⟩⟩
  · decide
  · intro _; rfl
  · intro _; exact ⟨0x41#8, rfl, by decide, by decide⟩
  · intro _; rfl
  · exact .inl rfl
  · decide
  · decide
  · intro i hi
    have : i < 2 := hi
    interval_cases i <;> rfl
  · intro i hi; exact absurd hi (Nat.not_lt_zero i)
  · decide
  · decide
  · intro x hx; exact absurd hx (by simp [partialFrame, fresh, State.reset])
  · intro x hx; exact absurd hx (by simp [partialFrame, fresh, State.reset])
  · decide
  · intro c hc; exact absurd hc (by simp [partialFrame, fresh, State.reset])
  all_goals decide

/-- It steps, on an operation of the host and without one. -/
theorem test_witness_step : (∃ t, step (partialFrame 0x41#8 2 false) = .next t) ∧
    (∃ t, step { partialFrame 0x41#8 2 false with input := [.byteIn 0x10#8] } = .next t) ∧
    (∃ t, exec (.fileStep [0x10#8]) (partialFrame 0x41#8 2 false) = .next t) := ⟨⟨_, rfl⟩, ⟨_, rfl⟩, ⟨_, rfl⟩⟩

/-- FILE_STEP that does not meet the end of input. -/
theorem test_witness_file_step : nextHas (exec (.fileStep [0x10#8, 0x03#8]) (partialFrame 0x41#8 2 false))
    (fun t => t.out.status ≠ some .endOfInput) = true := by decide +kernel

/-- An operation that leaves an established epoch as it is. -/
theorem test_witness_epoch_kept : (∃ t, exec (.byteIn 0x00#8) { fresh with lastEpoch := some 0 } = .next t) ∧
    ({ fresh with lastEpoch := some 0 } : State).lastEpoch ≠ none := ⟨⟨_, rfl⟩, by decide⟩

end Sys2Proof.Tests
end

/-! SUPPORT and PROOFS. Reading a binary64 field and storing its value (R12, R85): which pattern without its sign stands
for a finite value or an infinity, and how a pattern is put together again from its sign and that pattern. -/

namespace Sys2Proof.Machine

/-! ### A pattern without its sign, from what it stands for -/

/-- Only patterns below the infinity's stand for finite values. -/
theorem FpFormat.lt_infPattern_of_value_fin (f : FpFormat) {neg a : Bool} {pat : Nat} {m : Rat}
    (hexp : pat / 2 ^ f.fracBits ≤ f.expTop) (h : f.value neg pat = .fin a m) : pat < f.infPattern := by
  have hne : pat / 2 ^ f.fracBits ≠ f.expTop := by
    intro he
    unfold FpFormat.value at h
    simp only [he, if_true] at h
    split at h <;> cases h
  exact (Nat.div_lt_iff_lt_mul (by positivity)).1 (lt_of_le_of_ne hexp hne)

/-- Only the infinity's pattern stands for an infinity, and the infinity has the given sign. -/
theorem FpFormat.eq_infPattern_of_value_inf (f : FpFormat) {neg a : Bool} {pat : Nat}
    (h : f.value neg pat = .inf a) : a = neg ∧ pat = f.infPattern := by
  unfold FpFormat.value at h
  dsimp only at h
  split at h
  · next he =>
    split at h
    · next hf =>
      have hdm := Nat.div_add_mod pat (2 ^ f.fracBits)
      rw [he, hf, Nat.add_zero, Nat.mul_comm] at hdm
      exact ⟨(Fp.inf.inj h).symm, hdm.symm⟩
    · cases h
  · split at h <;> cases h

/-! ### A word from its sign and its magnitude -/

/-- The sign bit's word has the top bit alone. -/
theorem getLsbD_signBit (n i : Nat) (neg : Bool) :
    (signBit (n + 1) neg).getLsbD i = (neg && decide (n = i)) := by
  cases neg with
  | false => simp [signBit]
  | true =>
    change (BitVec.ofNat (n + 1) (2 ^ n)).getLsbD i = _
    rw [BitVec.getLsbD_ofNat, Nat.testBit_two_pow]
    by_cases h : n = i <;> simp [h]

/-- The top bit and the bits below it make the word. -/
theorem signBit_or_magnitude {n : Nat} (w : BitVec (n + 1)) :
    signBit (n + 1) (w.getLsbD n) ||| BitVec.ofNat (n + 1) (w.toNat % 2 ^ n) = w := by
  apply BitVec.eq_of_getLsbD_eq
  intro i hi
  rw [BitVec.getLsbD_or, getLsbD_signBit, BitVec.getLsbD_ofNat, Nat.testBit_mod_two_pow, BitVec.testBit_toNat]
  rcases Nat.lt_succ_iff_lt_or_eq.1 hi with hlt | rfl
  · simp only [hi, hlt, hlt.ne', decide_true, decide_false, Bool.and_false, Bool.true_and, Bool.false_or]
  · simp only [lt_irrefl, decide_true, decide_false, Bool.and_true, Bool.false_and, Bool.and_false, Bool.or_false]

/-! ### The obligation -/

/-- The exponent field of a binary64 pattern is at most the infinities'. -/
theorem binary64_exponent_le (w : F64) : w.toNat % 2 ^ 63 / 2 ^ binary64.fracBits ≤ binary64.expTop := by
  simp only [binary64]
  omega

/-- Settles O44: the value's case tells the pattern without its sign. A finite value rounds to its own pattern, an
infinity has only one, and either keeps the sign. -/
theorem storingAReadValueKeepsItsBits : Obligations.StoringAReadValueKeepsItsBits := by
  intro w raw hnan
  cases hv : fpOfBits w with
  | nan => exact absurd hv hnan
  | inf a =>
    obtain ⟨rfl, hpat⟩ := binary64.eq_infPattern_of_value_inf hv
    have h := signBit_or_magnitude (n := 63) w
    rwa [hpat] at h
  | fin a m =>
    have hlt := binary64.lt_infPattern_of_value_fin (binary64_exponent_le w) hv
    obtain ⟨rfl, hround⟩ := binary64.round_value hlt hv
    have h := signBit_or_magnitude (n := 63) w
    rwa [← hround] at h

end Sys2Proof.Machine

/-! SUPPORT and PROOFS. The invariant of R59: what it speaks of, that the state after reset meets it, and that the body of
a byte, the decoders, the dispatcher, each operation of the host and so every step keep it. -/

namespace Sys2Proof.Machine

/-! ### The decoders' part of the invariant -/

/-- The part of the invariant that the synchronizer does not write. -/
structure DecoderInv (s : State) : Prop where
  obs : ObsInv s
  halfc : HalfcInv s
  aux : AuxInv s.aux
  auxInit : AuxInv s.par.auxInit

/-- It speaks of five fields, of `aux` only that its tables are canonical. -/
theorem DecoderInv.congr {s t : State} (h : DecoderInv s) (ho : t.obs = s.obs) (he : t.lastEpoch = s.lastEpoch)
    (hh : t.halfc = s.halfc) (hp : t.par = s.par) (ha : AuxInv t.aux) : DecoderInv t := by
  refine ⟨⟨?_, ?_, ?_, ?_⟩, ⟨?_, ?_⟩, ha, ?_⟩
  · rw [ho, hp]; exact h.obs.bounded
  · rw [ho]; exact h.obs.distinct
  · rw [ho, hp]; exact h.obs.sats
  · rw [ho, he]; exact h.obs.times
  · rw [hh]; exact h.halfc.canonical
  · rw [hh, hp]; exact h.halfc.inside
  · rw [hp]; exact h.auxInit

/-- The invariant is the synchronizer's part and the decoders' part. -/
theorem inv_iff {s : State} : Inv s ↔ SyncBufInv s ∧ DecoderInv s :=
  ⟨fun h => ⟨⟨h.sync, h.buf⟩, ⟨h.obs, h.halfc, h.aux, h.auxInit⟩⟩,
    fun ⟨h, hd⟩ => ⟨h.sync, h.buf, hd.obs, hd.halfc, hd.aux, hd.auxInit⟩⟩

/-! ### Updates the invariant does not speak of -/

/-- It does not speak of the outputs, the pending operations, the draw counter or the configuration registers. -/
theorem Inv.set_unconstrained {s : State} (h : Inv s) (acceptAll : Bool) (tadj : F64) (draws : Nat)
    (input : List HostOp) (out : Output) :
    Inv { s with optAcceptAll := acceptAll, optTadj := tadj, draws := draws, input := input, out := out } := by
  obtain ⟨hs, hd⟩ := inv_iff.1 h
  exact inv_iff.2 ⟨hs.congr rfl rfl rfl rfl rfl, hd.congr rfl rfl rfl rfl hd.aux⟩

theorem Inv.start {s : State} (h : Inv s) : Inv s.start := h.set_unconstrained _ _ _ _ _

theorem Inv.ret {s : State} (h : Inv s) (st : Status) : Inv (s.ret st) := h.set_unconstrained _ _ _ _ _

theorem Inv.emitTag {s : State} (h : Inv s) (ty : Byte) : Inv (s.emitTag ty) := h.set_unconstrained _ _ _ _ _

theorem Inv.giveRest {s : State} (h : Inv s) (rest : List Byte) : Inv (s.giveRest rest) :=
  h.set_unconstrained _ _ _ _ _

theorem Inv.drew {s : State} (h : Inv s) : Inv s.drew := h.set_unconstrained _ _ _ _ _

/-! ### Cleared states (R56, R340) -/

/-- A state with nothing stored meets the invariant where `aux` and its initial value are canonical. -/
theorem Inv.of_cleared {s : State} (hp : 0 < s.par.maxFrame) (hc : s.count = 0) (hl : s.len = 0) (hb : s.buf = [])
    (ho : s.obs = []) (hh : s.halfc = []) (ha : AuxInv s.aux) (hi : AuxInv s.par.auxInit) : Inv s where
  sync := ⟨hc ▸ hp, by simp [hc, hl], by simp [hc, hl], by simp [hc], .inl hl⟩
  buf := ⟨by rw [hb]; exact reset_bufWf, by simp [hb], by simp [hc], by simp [hl]⟩
  obs := ⟨by simp [ho], by simp [ho], by simp [ho], by simp [ho]⟩
  halfc := ⟨by rw [hh]; exact reset_halfcWf, by simp [hh]⟩
  aux := ha
  auxInit := hi

theorem emptyAux_inv : AuxInv emptyAux := ⟨by decide, by decide, by decide⟩

/-! ### The synchronizer -/

theorem syncStep_par (b : Byte) (s : State) : (syncStep b s).state.par = s.par := by
  rw [syncStep_frame]

/-- The body of a byte keeps the invariant, whichever `return` it takes (R141). -/
theorem syncStep_inv {s : State} (b : Byte) (hok : s.par.ok = true) (h : Inv s) : Inv (syncStep b s).state := by
  obtain ⟨hs, hd⟩ := inv_iff.1 h
  refine inv_iff.2 ⟨(hs.syncStep b hok).1, ?_⟩
  rw [syncStep_frame]
  exact hd.congr rfl rfl rfl rfl hd.aux

theorem Inv.toIdle {s : State} (hok : s.par.ok = true) (h : Inv s) : Inv s.toIdle := by
  have hmf := Params.ok_maxFrame hok
  obtain ⟨hs, hd⟩ := inv_iff.1 h
  exact inv_iff.2 ⟨hs.toIdle (by omega), hd.congr rfl rfl rfl rfl hd.aux⟩

/-! ### The attached decoders (R212) -/

/-- `aux` after an attached decoder is the old one or what it would write. -/
theorem AuxInv.auxAfter {old new : Aux} (st : Status) (ho : AuxInv old) (hn : AuxInv new) :
    AuxInv (auxAfter st old new) := by
  unfold Machine.auxAfter
  split
  · exact hn
  · exact ho

/-- The end of an attached decoder that leaves `aux` canonical keeps the invariant. -/
theorem Inv.attachedEnd {s : State} (h : Inv s) (st : Status) {a : Aux} (ha : AuxInv a) :
    Inv (s.attachedEnd st a) := by
  obtain ⟨hs, hd⟩ := inv_iff.1 h
  exact inv_iff.2 ⟨hs.congr rfl rfl rfl rfl rfl, hd.congr rfl rfl rfl rfl ha⟩

/-- An outcome under `withReach` that is a next state is the outcome itself. -/
theorem withReach_next {reach : Option Nat} {s t : State} {r : Result} (h : withReach reach s r = .next t) :
    r = .next t := by
  rcases withReach_cases reach s r with e | ⟨e, _⟩
  · exact e.symm.trans h
  · exact absurd (e.symm.trans h) (by simp)

/-! ### The raw-observation decoder (R241) -/

/-- The records begin with an empty set and the half-cycle array held (R253, R254). -/
theorem DecoderInv.decodedInv_empty {s : State} (h : DecoderInv s) (t : Time) : DecodedInv s.par t ⟨[], s.halfc⟩ :=
  ⟨Nat.zero_le _, List.nodup_nil, by simp, by simp, h.halfc.canonical, h.halfc.inside⟩

/-- Committing an epoch with its records keeps the invariant. -/
theorem Inv.commitEpoch {s : State} (h : Inv s) (e : Epoch) (rs : List RawRecord) : Inv (commitEpoch e rs s) := by
  obtain ⟨hs, hd⟩ := inv_iff.1 h
  have hr := decodeRecords_inv rs (hd.decodedInv_empty e.t)
  refine inv_iff.2 ⟨hs.congr rfl rfl rfl rfl rfl, ⟨⟨hr.bounded, hr.distinct, fun x hx => ?_, fun x hx => ?_⟩,
    ⟨hr.canonical, hr.inside⟩, hd.aux, hd.auxInit⟩⟩
  · exact hr.sats x.sat (List.mem_map_of_mem hx)
  · exact congrArg some (hr.times x.time (List.mem_map_of_mem hx)).symm

theorem rawObs_inv {s t : State} (hi : Inv s) (h : rawObs s = .next t) : Inv t := by
  rcases rawObs_cases s with ⟨f, e⟩ | ⟨st, d, e, _⟩ | ⟨ep, rs, _, e, _⟩
  · exact absurd (e.symm.trans h) (by simp)
  · cases e.symm.trans h
    exact hi.set_unconstrained _ _ _ _ _
  · cases e.symm.trans h
    exact (hi.drew.commitEpoch ep rs).ret _

/-! ### The dispatcher (R200) -/

/-- Every decoder keeps the invariant: an attached one writes a canonical table, or no table at all. -/
theorem rowDecoder_inv {k : FrameKind} {sys : EphSystem} {s t : State} (hi : Inv s)
    (h : rowDecoder k sys s = .next t) : Inv t := by
  obtain ⟨hgps, hglo, halm⟩ := hi.aux
  cases k with
  | raw => exact rawObs_inv hi h
  | eph =>
    cases sys with
    | gps => cases h; exact hi.attachedEnd _ (hi.aux.auxAfter _ ⟨tableWf_put _ _ hgps, hglo, halm⟩)
    | glonass => cases h; exact hi.attachedEnd _ (hi.aux.auxAfter _ ⟨hgps, tableWf_put _ _ hglo, halm⟩)
  | bit => cases h; exact hi.attachedEnd _ (hi.aux.auxAfter _ ⟨hgps, hglo, halm⟩)
  | iono => cases withReach_next h; exact hi.attachedEnd _ ⟨hgps, hglo, halm⟩
  | utc => cases withReach_next h; exact hi.attachedEnd _ ⟨hgps, hglo, halm⟩
  | pvt => cases withReach_next h; exact hi.attachedEnd _ (hi.aux.auxAfter _ ⟨hgps, hglo, halm⟩)
  | alm => cases h; exact hi.attachedEnd _ (hi.aux.auxAfter _ ⟨hgps, hglo, tableWf_put _ _ halm⟩)
  | unrecognised => cases h; exact hi.ret _

/-- A dispatch that answers a next state ran a decoder on the tagged state. -/
theorem dispatch_next {s t : State} (h : dispatch s = .next t) :
    ∃ ty, readU1 s 1 = .ok ty ∧ rowDecoder (frameKind s.par ty) (ephSystem s) (s.emitTag ty) = .next t := by
  unfold dispatch at h
  split at h
  · exact absurd h (by simp)
  · next ty hty => exact ⟨ty, hty, by rwa [runDecoder_eq] at h⟩

theorem dispatch_inv {s t : State} (hi : Inv s) (h : dispatch s = .next t) : Inv t := by
  obtain ⟨ty, _, hd⟩ := dispatch_next h
  exact rowDecoder_inv (hi.emitTag ty) hd

/-! ### The operations of the host -/

theorem execByteIn_inv {b : Byte} {s t : State} (hok : s.par.ok = true) (hi : Inv s)
    (h : execByteIn b s = .next t) : Inv t := by
  have hb : Inv (syncStep b s.start).state := syncStep_inv b hok hi.start
  unfold execByteIn at h
  cases e : syncStep b s.start with
  | more u => rw [e] at h hb; cases h; exact hb.ret _
  | overflow u => rw [e] at h hb; cases h; exact hb.ret _
  | done u => rw [e] at h hb; exact dispatch_inv hb h

theorem endOfInput_inv {s : State} (hok : s.par.ok = true) (hi : Inv s) : Inv (endOfInput s) := by
  unfold endOfInput
  split
  · exact ((hi.toIdle hok).giveRest _).ret _
  · exact (hi.giveRest _).ret _

/-- A next state under `mapNext` is the update of a next state. -/
theorem mapNext_next {f : State → State} {r : Result} {t : State} (h : mapNext f r = .next t) :
    ∃ u, r = .next u ∧ t = f u := by
  cases r with
  | next u => cases h; exact ⟨u, rfl, rfl⟩
  | fault e => cases h
  | refused e => cases h

/-- The loop of R181 keeps the invariant, by induction on the source. -/
theorem fileLoop_inv {src : List Byte} {idle : Nat} {s t : State} (hok : s.par.ok = true) (hi : Inv s)
    (h : fileLoop src idle s = .next t) : Inv t := by
  induction src generalizing idle s with
  | nil => cases h; exact endOfInput_inv hok hi
  | cons b rest ih =>
    have hb := syncStep_inv b hok hi
    have hp := syncStep_par b s
    unfold fileLoop at h
    cases e : syncStep b s with
    | done u =>
      rw [e] at h hb
      obtain ⟨v, hv, rfl⟩ := mapNext_next h
      exact (dispatch_inv hb hv).giveRest rest
    | overflow u => rw [e] at h hb; cases h; exact (hb.giveRest rest).ret _
    | more u =>
      rw [e] at h hb hp
      have hok' : u.par.ok = true := hp ▸ hok
      dsimp only at h
      split at h
      · split at h
        · cases h; exact (hb.giveRest rest).ret _
        · exact ih hok' hb h
      · exact ih hok' hb h

theorem execReset_inv {s t : State} (hok : s.par.ok = true) (hi : Inv s) (h : execReset s = .next t) : Inv t := by
  have hmf := Params.ok_maxFrame hok
  cases h
  exact Inv.of_cleared (by simp only [State.start_par]; omega) rfl rfl rfl rfl rfl hi.auxInit hi.auxInit

theorem execConfigure_inv {a : Bool} {x : F64} {s t : State} (hi : Inv s) (h : execConfigure a x s = .next t) :
    Inv t := by
  cases h
  exact hi.start.set_unconstrained _ _ _ _ _

theorem exec_hostOp_inv {op : HostOp} {s t : State} (hok : s.par.ok = true) (hi : Inv s)
    (h : exec op.toInstr s = .next t) : Inv t := by
  cases op with
  | byteIn b => exact execByteIn_inv hok hi h
  | fileStep src => exact fileLoop_inv (s := s.start) hok hi.start h
  | reset => exact execReset_inv hok hi h
  | configure a x => exact execConfigure_inv hi h

/-! ### The step -/

/-- A step that answers a next state: the parameters are within R7, and nothing happened or a pending operation ran. -/
theorem step_next {s t : State} (h : step s = .next t) :
    s.par.ok = true ∧ (t = s ∨ ∃ (op : HostOp) (rest : List HostOp),
      exec op.toInstr { s with input := rest } = .next t) := by
  unfold step at h
  split at h
  · next hok =>
    refine ⟨hok, ?_⟩
    split at h
    · cases h; exact .inl rfl
    · next op rest _ => exact .inr ⟨op, rest, h⟩
  · cases h

/-- Settles O59: a step does nothing or runs an operation of the host, and each of those keeps the invariant. -/
theorem stepKeepsInvariant : Obligations.StepKeepsInvariant := by
  intro s t hi h
  obtain ⟨hok, rfl | ⟨op, rest, hop⟩⟩ := step_next h
  · exact hi
  · exact exec_hostOp_inv (s := { s with input := rest }) hok (hi.set_unconstrained _ _ _ _ _) hop

/-- Settles O58: after reset nothing is stored, and the empty `aux` is canonical. -/
theorem invariantHoldsAtReset : Obligations.InvariantHoldsAtReset :=
  Inv.of_cleared (by decide) rfl rfl rfl rfl rfl emptyAux_inv emptyAux_inv

/-! ### RESET and CONFIGURE (R56, R58, R340) -/

/-- Settles O52: RESET's next state has the components listed, and empty tables read as R56 says. -/
theorem resetSetsEveryComponent : Obligations.ResetSetsEveryComponent :=
  fun _ => ⟨_, rfl, rfl, rfl, rfl, fun _ => rfl, rfl, rfl, fun _ _ => rfl, rfl, rfl, rfl, rfl, rfl, rfl⟩

/-- Settles O53: the state a session starts in has the same components. -/
theorem resetStateMatchesTable : Obligations.ResetStateMatchesTable :=
  ⟨rfl, rfl, rfl, fun _ => rfl, rfl, rfl, fun _ _ => rfl, rfl, rfl, rfl⟩

/-- Settles O54: CONFIGURE has no other branch than the write of its two registers. -/
theorem configureWritesBothRegisters : Obligations.ConfigureWritesBothRegisters :=
  fun _ _ _ => rfl

end Sys2Proof.Machine

/-! SUPPORT and PROOFS. What one record writes (R258–R267): its slot, its entry, the observation set, its half-cycle byte;
and the carrier frequencies of the default table (R261, D30). -/

namespace Sys2Proof.Machine

/-! ### The default carriers (D30) -/

/-- A natural number of at most 53 bits rounds to itself. -/
theorem fpOfRat_natCast {n : Nat} (h : n < 2 ^ 53) : fpOfRat (n : Rat) = .fin false (n : Rat) := by
  have hn : ¬ (n : Rat) < 0 := not_lt.2 (Nat.cast_nonneg n)
  simp only [fpOfRat, hn, if_false, decide_false]
  exact binary64_natCast false h

theorem carrierFreq_default_glonass {p : Params} {chan : Int} (hp : p.carrierTable = defaultCarriers)
    (h1 : -128 ≤ chan) (h2 : chan ≤ 127) :
    carrierFreq p .glonass 0 chan = .fin false (1602000000 + 562500 * chan) := by
  obtain ⟨n, hn⟩ := Int.eq_ofNat_of_zero_le (a := 1602000000 + chan * 562500) (by omega)
  have hc : (1602000000 + (chan : Rat) * 562500) = (n : Rat) := by exact_mod_cast hn
  have e : carrierFreq p .glonass 0 chan = fpOfRat (1602000000 + (chan : Rat) * 562500) := by
    unfold carrierFreq; rw [hp]; rfl
  rw [e, mul_comm (562500 : Rat), hc, fpOfRat_natCast (by omega)]

theorem carrierFreq_default_gps_sbas {p : Params} {sys : Sys} (chan : Int) (hp : p.carrierTable = defaultCarriers)
    (hs : sys = .gps ∨ sys = .sbas) : carrierFreq p sys 0 chan = .fin false 1575420000 := by
  have e : carrierFreq p sys 0 chan = fpOfRat (1575420000 + (chan : Rat) * 0) := by
    unfold carrierFreq
    rw [hp]
    rcases hs with rfl | rfl <;> rfl
  rw [e, mul_zero, add_zero]
  exact_mod_cast fpOfRat_natCast (n := 1575420000) (by omega)

/-! ### The slot and the set -/

/-- The slot a record writes holds the record (R261–R264, R267). -/
theorem newSlot_holdsRecord (p : Params) (e : Epoch) (g : SignalRow) (r : RawRecord) (prev : Byte) :
    HoldsRecord p e g r (newSlot p e g r prev) := ⟨rfl, rfl, rfl, rfl, rfl⟩

/-- Its loss-of-lock bit is the edge of the validity bit (R265). -/
theorem newSlot_lliIsEdge (p : Params) (e : Epoch) (g : SignalRow) (r : RawRecord) (prev : Byte) :
    lliIsEdge (newSlot p e g r prev) r.flag prev := by
  simp [lliIsEdge, newSlot, lossOfLock, phaseValid]

/-- Making room appends the satellite where it had no entry (R258). -/
theorem obsWith_sats {p : Params} {obs obs' : List ObsEntry} {sat : Nat} {t : Time}
    (h : obsWith p obs sat t = some obs') :
    obs'.map (·.sat) = obs.map (·.sat) ++ (if obsFind obs sat = none then [sat] else []) := by
  cases hx : obsFind obs sat with
  | some x =>
    simp only [obsWith, hx, Option.some.injEq] at h
    simp [h]
  | none =>
    simp only [obsWith, hx] at h
    split at h
    · cases h
    · cases h; simp [freshEntry]

/-- Settles O40: a record that is not skipped makes room for its satellite, replaces the slot of that entry and puts its
flag byte; the rules of the set and of the half-cycle array say what is read back. -/
theorem recordWritesItsSlotOnly : Obligations.RecordWritesItsSlotOnly := by
  intro p e d r g sat hwf hg hs hr hroom hcode
  obtain ⟨obs, ho, hd⟩ := decodeRecord_writes (e := e) hg hs hr hroom hcode
  obtain ⟨hfind, hother⟩ := obsWith_find ho
  rw [hd]
  refine ⟨⟨_, obsSet_find_same hfind, ?_, ?_, ObsEntry.setSlot_time _ _ _,
    fun k hk => ObsEntry.slot_setSlot_other _ _ hk⟩, fun sat' h => (obsSet_find_other h).trans (hother sat' h),
    (obsSet_sats _ _ _ _).trans (obsWith_sats ho), halfcPut_get_same _ _ _ hwf,
    fun sat' k h => halfcPut_get_other _ _ h, fun hp hslot h1 h2 => ⟨fun hsys => ?_, fun hsys => ?_⟩⟩
  · rw [ObsEntry.slot_setSlot_same]; exact newSlot_holdsRecord _ _ _ _ _
  · rw [ObsEntry.slot_setSlot_same]; exact newSlot_lliIsEdge _ _ _ _ _
  · rw [hsys, hslot]; exact carrierFreq_default_glonass hp h1 h2
  · rw [hslot]; exact carrierFreq_default_gps_sbas _ hp hsys

end Sys2Proof.Machine

/-! SUPPORT and PROOFS. Field reads (R81–R87, R106–R113): which bytes a read assembles and where the header's and a
record's fields are read; one step of the host's list of operations (R88); and that every operation of the host answers,
or faults on a frame it completes (R315). -/

namespace Sys2Proof.Machine

/-! ### Little-endian reads (R81–R85) -/

/-- A byte appended on the right is the least significant one. -/
theorem toNat_append_byte {n : Nat} (w : BitVec n) (b : Byte) : (w ++ b).toNat = b.toNat + 256 * w.toNat := by
  rw [BitVec.toNat_append, ← Nat.shiftLeft_add_eq_or_of_lt b.isLt, Nat.shiftLeft_eq]
  omega

theorem bytesAt_of_holdsBytes {s : State} {a : Nat} {bs : List Byte} (h : holdsBytes s a bs) :
    bytesAt s.buf a bs.length = some bs := by
  induction bs generalizing a with
  | nil => rfl
  | cons b bs ih =>
    obtain ⟨hb, hbs⟩ := h
    have hb' : tableGet s.buf a = some b := hb
    simp [bytesAt, hb', ih hbs]

/-- A read of bytes the buffer holds is the word that has their little-endian value. -/
theorem memRead_of_holdsBytes {s : State} {a : Nat} {bs : List Byte} {w : BitVec (8 * bs.length)}
    (hl : a + bs.length ≤ s.len) (h : holdsBytes s a bs) (hw : w.toNat = leNat bs) :
    memRead s a bs.length = .ok w := by
  rw [memRead_eq hl (bytesAt_of_holdsBytes h), ← hw, BitVec.ofNat_toNat, BitVec.setWidth_eq]

theorem readI1_of_readU1 {s : State} {a : Nat} {b : Byte} (h : readU1 s a = .ok b) :
    readI1 s a = .ok (if b.toNat < 128 then (b.toNat : Int) else b.toNat - 256) := by
  simp only [readI1, h, BitVec.toInt_eq_toNat_cond]
  congr 1
  split <;> split <;> omega

theorem readU2_of_holdsBytes {s : State} {a : Nat} {lo hi : Byte} (hl : a + 2 ≤ s.len)
    (h : holdsBytes s a [lo, hi]) : readU2 s a = .ok (hi ++ lo) :=
  memRead_of_holdsBytes (bs := [lo, hi]) (w := hi ++ lo) hl h (by simp [toNat_append_byte, leNat])

theorem readR8_of_holdsBytes {s : State} {a : Nat} {b0 b1 b2 b3 b4 b5 b6 b7 : Byte} (hl : a + 8 ≤ s.len)
    (h : holdsBytes s a [b0, b1, b2, b3, b4, b5, b6, b7]) :
    readR8 s a = .ok (b7 ++ b6 ++ b5 ++ b4 ++ b3 ++ b2 ++ b1 ++ b0) :=
  memRead_of_holdsBytes (bs := [b0, b1, b2, b3, b4, b5, b6, b7])
    (w := b7 ++ b6 ++ b5 ++ b4 ++ b3 ++ b2 ++ b1 ++ b0) hl h (by simp [toNat_append_byte, leNat])

/-! ### The header and the records (R106–R108, R113) -/

theorem readHeader_eq_ok_iff {s : State} {h : RawHeader} :
    readHeader s = .ok h ↔
      readR8 s s.par.layout.tow = .ok h.tow ∧ readU2 s s.par.layout.week = .ok h.week ∧
      readR8 s s.par.layout.gpsutc = .ok h.gpsutc := by
  constructor
  · intro hr
    unfold readHeader at hr
    split at hr
    next ht hw hg => cases hr; exact ⟨ht, hw, hg⟩
    all_goals cases hr
  · rintro ⟨ht, hw, hg⟩
    simp only [readHeader, ht, hw, hg]

theorem readRecord_eq_ok_iff {s : State} {r : Nat} {x : RawRecord} :
    readRecord s r = .ok x ↔
      readU1 s (r + s.par.layout.sig) = .ok x.sig ∧ readU1 s (r + s.par.layout.prn) = .ok x.prn ∧
      readI1 s (r + s.par.layout.chan) = .ok x.chan ∧ readU1 s (r + s.par.layout.snr) = .ok x.snr ∧
      readR8 s (r + s.par.layout.phase) = .ok x.phase ∧ readR8 s (r + s.par.layout.range) = .ok x.range ∧
      readR8 s (r + s.par.layout.dopp) = .ok x.dopp ∧ readU1 s (r + s.par.layout.flag) = .ok x.flag := by
  constructor
  · intro hr
    unfold readRecord at hr
    dsimp only at hr
    split at hr
    next hsig hprn hchan hsnr =>
      split at hr
      next hphase hrange hdopp hflag =>
        cases hr
        exact ⟨hsig, hprn, hchan, hsnr, hphase, hrange, hdopp, hflag⟩
      all_goals cases hr
    all_goals cases hr
  · rintro ⟨hsig, hprn, hchan, hsnr, hphase, hrange, hdopp, hflag⟩
    simp only [readRecord, hsig, hprn, hchan, hsnr, hphase, hrange, hdopp, hflag]

/-- One record more: the first one, then the others from 30 bytes further on. -/
theorem readRecords_succ_iff {s : State} {r k : Nat} {rs : List RawRecord} :
    readRecords s r (k + 1) = .ok rs ↔
      ∃ x xs, rs = x :: xs ∧ readRecord s r = .ok x ∧ readRecords s (r + 30) k = .ok xs := by
  constructor
  · intro h
    unfold readRecords at h
    split at h
    next x xs hx hxs => cases h; exact ⟨x, xs, rfl, hx, hxs⟩
    all_goals cases h
  · rintro ⟨x, xs, rfl, hx, hxs⟩
    simp only [readRecords, Config.rawRecLen, hx, hxs]

/-- Record `i` of a run of records starts 30·i bytes after the first. -/
theorem readRecords_eq_ok_iff {s : State} {r k : Nat} {rs : List RawRecord} :
    readRecords s r k = .ok rs ↔
      rs.length = k ∧ ∀ i x, rs[i]? = some x → readRecord s (r + 30 * i) = .ok x := by
  induction k generalizing r rs with
  | zero => cases rs <;> simp [readRecords]
  | succ k ih =>
    simp only [readRecords_succ_iff, ih]
    constructor
    · rintro ⟨x, xs, rfl, hx, hlen, hxs⟩
      refine ⟨by simp [hlen], fun i y hy => ?_⟩
      cases i with
      | zero => cases hy; exact hx
      | succ i =>
        have h := hxs i y (by simpa using hy)
        rwa [show r + 30 + 30 * i = r + 30 * (i + 1) by omega] at h
    · rintro ⟨hlen, hrs⟩
      cases rs with
      | nil => cases hlen
      | cons x xs =>
        refine ⟨x, xs, rfl, hrs 0 x rfl, by simpa using hlen, fun i y hy => ?_⟩
        have h := hrs (i + 1) y (by simpa using hy)
        rwa [show r + 30 * (i + 1) = r + 30 + 30 * i by omega] at h

/-- Settles O45: each field read by its own rule above, the default layout's places by its definition. -/
theorem fieldReadsTakeTheirBytes : Obligations.FieldReadsTakeTheirBytes := by
  intro s
  refine ⟨fun a b hl hb => ?_, fun a lo hi => readU2_of_holdsBytes,
    fun a b0 b1 b2 b3 b4 b5 b6 b7 => readR8_of_holdsBytes, fun h => readHeader_eq_ok_iff,
    fun r x => readRecord_eq_ok_iff, fun k rs => readRecords_eq_ok_iff, fun hlay => ?_⟩
  · have hread := readU1_eq hl hb
    exact ⟨hread, readI1_of_readU1 hread⟩
  · simp [hlay, defaultLayout]

/-- Settles O46: the length check comes before any byte is looked up. -/
theorem readBeyondFrameFaults : Obligations.ReadBeyondFrameFaults :=
  fun _ _ _ => memRead_beyond

/-! ### One step (R88, R316) -/

/-- Settles O57: the three branches of the step. -/
theorem stepRunsOldestOperation : Obligations.StepRunsOldestOperation := by
  intro s
  refine ⟨fun op rest hok hin => ?_, fun hok hin => ?_, fun hok => ?_⟩
  · simp only [step, hok, hin, if_true]
  · simp only [step, hok, hin, if_true]
  · simp only [step, hok, Bool.false_eq_true, if_false]

/-! ### The decoders answer, or fault as R315 says -/

/-- How the decoder of kind `k` ends on the frame in `s`: a next state, or a fault of R315 on a frame that admits it. -/
def DecoderAnswers (k : FrameKind) (s : State) (r : Result) : Prop :=
  (∃ t, r = .next t) ∨
  (r = .fault .nonFiniteEpoch ∧ k = .raw) ∨
  (r = .fault .unwrittenBufferRead ∧ ∃ m, s.par.attachedReach.layout k = some m ∧ s.len < m)

/-- An accepted length has room for the header and for every record (R242, R241). -/
theorem badRawLength_eq_false {n : Nat} (h : badRawLength n = false) :
    31 ≤ n ∧ Config.rawRecBase + 30 * rawRecordCount n ≤ n := by
  have hlen : ¬ n < Config.rawHdrLen ∧ (n - Config.rawHdrLen) % Config.rawRecLen = 0 := by
    simpa [badRawLength] using h
  simp only [rawRecordCount, Config.rawHdrLen, Config.rawRecLen, Config.rawRecBase] at *
  omega

/-- An admitted epoch's records are all read. -/
theorem admitEpoch_answers {s : State} (e : Epoch) (hl : s.par.layout.ok = true)
    (hlen : Config.rawRecBase + 30 * rawRecordCount s.len ≤ s.len)
    (hw : ∀ i < s.len, (tableGet s.buf i).isSome = true) : ∃ t, admitEpoch e s = .next t := by
  obtain ⟨rs, hrs⟩ := readRecords_ok hl hlen hw
  unfold admitEpoch
  rw [hrs]
  dsimp only
  split_ifs <;> exact ⟨_, rfl⟩

/-- With every byte of the frame written, `RawObs()` faults on a non-finite epoch only (R247, R248). -/
theorem rawObs_answers {s : State} (hl : s.par.layout.ok = true)
    (hw : ∀ i < s.len, (tableGet s.buf i).isSome = true) :
    (∃ t, rawObs s = .next t) ∨ rawObs s = .fault .nonFiniteEpoch := by
  unfold rawObs
  split
  · exact .inl ⟨_, rfl⟩
  · next hbad =>
    obtain ⟨h31, hrecs⟩ := badRawLength_eq_false (Bool.eq_false_iff.2 hbad)
    obtain ⟨h, hh⟩ := readHeader_ok hl h31 hw
    rw [hh]
    dsimp only
    split
    · exact .inl ⟨_, rfl⟩
    · split
      · next he => exact .inr (congrArg _ (deriveEpoch_error he))
      · next e _ => exact .inl (admitEpoch_answers (s := s.drew) e hl hrecs hw)

theorem rowDecoder_answers {s : State} (k : FrameKind) (sys : EphSystem) (hl : s.par.layout.ok = true)
    (hw : ∀ i < s.len, (tableGet s.buf i).isSome = true) : DecoderAnswers k s (rowDecoder k sys s) := by
  by_cases hk : k = .raw
  · subst hk
    rcases rawObs_answers hl hw with hn | hf
    · exact .inl hn
    · exact .inr (.inl ⟨hf, rfl⟩)
  · rcases rowDecoder_attached (k := k) sys s hk with ⟨_, e⟩ | ⟨st, ⟨⟨new, e⟩ | hf⟩, _⟩
    · exact .inl ⟨_, e⟩
    · exact .inl ⟨_, e⟩
    · exact .inr (.inr hf)

/-- The dispatcher reads the type byte of a completed frame, and its decoder answers. -/
theorem dispatch_answers {s : State} {ty : Byte} (hl : s.par.layout.ok = true)
    (hw : ∀ i < s.len, (tableGet s.buf i).isSome = true) (h : frameReady s ty) :
    DecoderAnswers (frameKind s.par ty) s (dispatch s) := by
  unfold dispatch
  rw [frameReady_read h]
  dsimp only
  rw [runDecoder_eq]
  exact rowDecoder_answers (s := s.emitTag ty) _ _ hl hw

/-! ### The operations of the host answer -/

/-- What O60 says of the outcome `r` of the operation `op` on `s`. -/
def OperationAnswers (s : State) (op : HostOp) (r : Result) : Prop :=
  (∃ t, r = .next t) ∨
  (r = .fault .nonFiniteEpoch ∧ ∃ ty n, completesFrame s op ty n ∧ frameKind s.par ty = .raw) ∨
  (r = .fault .unwrittenBufferRead ∧
    ∃ ty n m, completesFrame s op ty n ∧ s.par.attachedReach.layout (frameKind s.par ty) = some m ∧ n < m)

theorem OperationAnswers.mapNext {s : State} {op : HostOp} {r : Result} (f : State → State)
    (h : OperationAnswers s op r) : OperationAnswers s op (mapNext f r) := by
  rcases h with ⟨t, rfl⟩ | ⟨rfl, hf⟩ | ⟨rfl, hf⟩
  · exact .inl ⟨f t, rfl⟩
  · exact .inr (.inl ⟨rfl, hf⟩)
  · exact .inr (.inr ⟨rfl, hf⟩)

/-- A decoder's end on a frame that the operation completes. -/
theorem DecoderAnswers.operationAnswers {s u : State} {op : HostOp} {ty : Byte} {r : Result}
    (h : DecoderAnswers (frameKind u.par ty) u r) (hp : u.par = s.par) (hc : completesFrame s op ty u.len) :
    OperationAnswers s op r := by
  rw [hp] at h
  rcases h with hn | ⟨hf, hk⟩ | ⟨hf, m, hm, hlt⟩
  · exact .inl hn
  · exact .inr (.inl ⟨hf, ty, u.len, hc, hk⟩)
  · exact .inr (.inr ⟨hf, ty, u.len, m, hc, hp ▸ hm, hlt⟩)

/-- An operation whose first byte completes a frame: the dispatch of that frame answers. -/
theorem dispatch_operationAnswers {s u : State} {op : HostOp} {b : Byte} {back : List Byte} (hok : s.par.ok = true)
    (hi : Inv s) (hin : inputBytes op = b :: back) (h : syncStep b s.start = .done u) :
    OperationAnswers s op (dispatch u) := by
  have hu : Inv (syncStep b s.start).state := syncStep_inv (s := s.start) b hok hi.start
  rw [h] at hu
  obtain ⟨rfl, h2, htog, hu'⟩ := syncStep_done (s := s.start) hok h
  obtain ⟨ty, hty, _, _⟩ := hi.sync.type_byte (.inl h2)
  have hp : u.par = s.par := by rw [hu']; rfl
  have hlen : u.len = s.count + 1 := by rw [hu']; rfl
  have hready : frameReady u ty := by
    rw [hu']
    exact ⟨rfl, Nat.le_succ_of_le h2, (bufPut_get_other _ _ _ _ (Nat.ne_of_lt h2)).trans hty⟩
  exact (dispatch_answers (Params.ok_layout (hp ▸ hok)) hu.buf.frame_written hready).operationAnswers hp
    ⟨[], back, s, hin, rfl, h2, htog, hty, hlen⟩

/-- The body of a byte answers nothing. -/
theorem syncStep_start (b : Byte) (s : State) : (syncStep b s.start).state.start = (syncStep b s.start).state := by
  rw [syncStep_frame]
  rfl

/-- A byte that goes on is a `BYTE_IN` with status 0. -/
theorem exec_byteIn_of_more {s t : State} {b : Byte} (h : syncStep b s.start = .more t) :
    exec (.byteIn b) s = .next (t.ret .noMessage) := by
  simp only [exec, execByteIn, h]

/-- A frame completed by what follows a byte is completed by the whole source. -/
theorem completesFrame_fileStep_cons {s t : State} {b : Byte} {rest : List Byte} {ty : Byte} {n : Nat}
    (h : exec (.byteIn b) s = .next t) (hp : t.par = s.par) (hc : completesFrame t (.fileStep rest) ty n) :
    completesFrame s (.fileStep (b :: rest)) ty n := by
  obtain ⟨front, back, u, hin, hrun, hu⟩ := hc
  have hin' : rest = front ++ s.par.endMark :: back := hp ▸ hin
  exact ⟨b :: front, back, u, congrArg (b :: ·) hin', by simpa only [runBytes, h] using hrun, hu⟩

theorem OperationAnswers.fileStep_cons {s t : State} {b : Byte} {rest : List Byte} {r : Result}
    (h : exec (.byteIn b) s = .next t) (hp : t.par = s.par) (ha : OperationAnswers t (.fileStep rest) r) :
    OperationAnswers s (.fileStep (b :: rest)) r := by
  rcases ha with hn | ⟨hf, ty, n, hc, hk⟩ | ⟨hf, ty, n, m, hc, hm, hlt⟩
  · exact .inl hn
  · exact .inr (.inl ⟨hf, ty, n, completesFrame_fileStep_cons h hp hc, hp ▸ hk⟩)
  · exact .inr (.inr ⟨hf, ty, n, m, completesFrame_fileStep_cons h hp hc, hp ▸ hm, hlt⟩)

theorem execByteIn_answers {s : State} (b : Byte) (hok : s.par.ok = true) (hi : Inv s) :
    OperationAnswers s (.byteIn b) (execByteIn b s) := by
  unfold execByteIn
  cases e : syncStep b s.start with
  | more t => exact .inl ⟨_, rfl⟩
  | overflow t => exact .inl ⟨_, rfl⟩
  | done t => exact dispatch_operationAnswers hok hi rfl e

/-- The loop of R181, by induction on the source. It runs on states with nothing answered, where `BYTE_IN` leaves its
status 0: `t.ret .noMessage` is the state `runBytes` reaches where the loop reaches `t`. -/
theorem fileLoop_answers {s : State} (src : List Byte) (idle : Nat) (hok : s.par.ok = true) (hi : Inv s) :
    OperationAnswers s (.fileStep src) (fileLoop src idle s.start) := by
  induction src generalizing idle s with
  | nil => exact .inl ⟨_, rfl⟩
  | cons b rest ih =>
    unfold fileLoop
    cases e : syncStep b s.start with
    | done t => exact (dispatch_operationAnswers hok hi rfl e).mapNext _
    | overflow t => exact .inl ⟨_, rfl⟩
    | more t =>
      have ht : Inv (syncStep b s.start).state := syncStep_inv (s := s.start) b hok hi.start
      have hp := syncStep_par b s.start
      have hout := syncStep_start b s
      rw [e] at ht hp hout
      have hgo (i : Nat) : OperationAnswers s (.fileStep (b :: rest)) (fileLoop rest i t) := by
        have ha := ih i (s := t.ret .noMessage) ((congrArg Params.ok hp).trans hok) (ht.ret _)
        rw [show (t.ret .noMessage).start = t from hout] at ha
        exact ha.fileStep_cons (exec_byteIn_of_more e) hp
      dsimp only
      split_ifs
      · exact .inl ⟨_, rfl⟩
      · exact hgo _
      · exact hgo _

/-- Settles O60: RESET and CONFIGURE always answer; BYTE_IN and FILE_STEP stop only in the dispatch of a frame they
complete, whose bytes the invariant says were written. -/
theorem hostOperationsAnswer : Obligations.HostOperationsAnswer := by
  intro s op hok hi
  cases op with
  | byteIn b => exact execByteIn_answers b hok hi
  | fileStep src => exact fileLoop_answers src 0 hok hi
  | reset => exact .inl ⟨_, rfl⟩
  | configure a x => exact .inl ⟨_, rfl⟩

end Sys2Proof.Machine

/-! SUPPORT and PROOFS. The row a byte selects, phase by phase, and that selecting and encoding are inverse (R100,
R140–R152); and the decoder a type byte selects (R104, R105, R200). -/

namespace Sys2Proof.Machine

/-! ### Byte classes (R100) -/

@[simp] theorem byteClass_sync (p : Params) : byteClass p p.sync = .sync := by
  simp [byteClass]

theorem byteClass_endMark {p : Params} (hok : p.ok = true) : byteClass p p.endMark = .endMark := by
  simp [byteClass, (Params.ok_sync_ne_end hok).symm]

theorem byteClass_other {p : Params} {b : Byte} (hs : b ≠ p.sync) (he : b ≠ p.endMark) : byteClass p b = .other := by
  simp [byteClass, hs, he]

/-- A byte that is not `SYNC` is always stored (R148). -/
theorem SyncCtx.countAfter_of_ne_sync {c : SyncCtx} {b : Byte} (h : b ≠ c.par.sync) : c.countAfter b = c.count + 1 := by
  simp [SyncCtx.countAfter, SyncCtx.stores, h]

/-! ### The row a byte selects, phase by phase (R142–R151) -/

theorem decodeByte_idle {c : SyncCtx} (b : Byte) (h : phaseOf c.count = .idle) :
    decodeByte c b = if b = c.par.sync then .idleSync else .idleOther b := by
  unfold decodeByte byteClass
  rw [h]
  split_ifs <;> rfl

theorem decodeByte_header {c : SyncCtx} (b : Byte) (h : phaseOf c.count = .header) :
    decodeByte c b =
      if b = c.par.sync then .hdrNoiseSync else if b = c.par.endMark then .hdrNoiseEnd else .hdrType b := by
  unfold decodeByte byteClass
  rw [h]
  split_ifs <;> rfl

/-- Completion comes before overflow, and overflow before the rows that only store (R149, R151, R152). -/
theorem decodeByte_accumulating {c : SyncCtx} (b : Byte) (hok : c.par.ok = true)
    (h : phaseOf c.count = .accumulating) :
    decodeByte c b =
      if b = c.par.endMark ∧ c.toggle = true then .accEndToggle1
      else if c.countAfter b = c.par.maxFrame then .accOverflow b
      else if b = c.par.sync then .accSync
      else if b = c.par.endMark then .accEndToggle0
      else .accOther b := by
  have hse := Params.ok_sync_ne_end hok
  by_cases hs : b = c.par.sync
  · subst hs
    simp [decodeByte, h, hse]
  · by_cases he : b = c.par.endMark
    · subst he
      simp [decodeByte, h, byteClass_endMark hok, hs]
    · simp [decodeByte, h, byteClass_other hs he, hs, he]

/-! ### Selecting and encoding are inverse -/

/-- The guard of the overflow row: the byte fills the buffer and does not complete the frame (R151). -/
theorem rowEnabled_accOverflow {c : SyncCtx} {b : Byte} :
    rowEnabled c (.accOverflow b) = true ↔
      phaseOf c.count = .accumulating ∧ ¬(b = c.par.endMark ∧ c.toggle = true) ∧ c.countAfter b = c.par.maxFrame := by
  simp [rowEnabled, and_assoc, imp_iff_not_or]

/-- The row a byte selects is enabled, and its byte is that byte. -/
theorem rowEnabled_encode_decodeByte {c : SyncCtx} (b : Byte) (hok : c.par.ok = true) :
    rowEnabled c (decodeByte c b) = true ∧ encode c.par (decodeByte c b) = [b] := by
  cases h : phaseOf c.count with
  | idle =>
    rw [decodeByte_idle b h]
    split_ifs with hs <;> simp [rowEnabled, encode, h, hs]
  | header =>
    rw [decodeByte_header b h]
    split_ifs with hs he
    · simp [rowEnabled, encode, h, hs]
    · simp [rowEnabled, encode, h, he]
    · simp [rowEnabled, encode, h, hs, he]
  | accumulating =>
    rw [decodeByte_accumulating b hok h]
    split_ifs with hdone hfull hs he
    · simp [rowEnabled, encode, h, hdone]
    · exact ⟨rowEnabled_accOverflow.2 ⟨h, hdone, hfull⟩, rfl⟩
    · subst hs
      simp [rowEnabled, encode, h, hfull]
    · rw [SyncCtx.countAfter_of_ne_sync hs] at hfull
      have ht : c.toggle = false := by simpa [he] using hdone
      simp [rowEnabled, encode, h, ht, hfull, he]
    · rw [SyncCtx.countAfter_of_ne_sync hs] at hfull
      simp [rowEnabled, encode, h, hs, he, hfull]

/-- A row that is enabled is the one its byte selects: the guards exclude each other. -/
theorem decodeByte_eq_of_enabled {c : SyncCtx} {i : Instr} {b : Byte} (hok : c.par.ok = true)
    (hen : rowEnabled c i = true) (henc : encode c.par i = [b]) : decodeByte c b = i := by
  have hse := Params.ok_sync_ne_end hok
  cases i with
  | idleSync =>
    obtain rfl : c.par.sync = b := by simpa [encode] using henc
    simp only [rowEnabled, decide_eq_true_eq] at hen
    simp [decodeByte_idle _ hen]
  | idleOther b' =>
    obtain rfl : b' = b := by simpa [encode] using henc
    simp only [rowEnabled, Bool.and_eq_true, decide_eq_true_eq] at hen
    simp [decodeByte_idle _ hen.1, hen.2]
  | hdrNoiseSync =>
    obtain rfl : c.par.sync = b := by simpa [encode] using henc
    simp only [rowEnabled, decide_eq_true_eq] at hen
    simp [decodeByte_header _ hen]
  | hdrNoiseEnd =>
    obtain rfl : c.par.endMark = b := by simpa [encode] using henc
    simp only [rowEnabled, decide_eq_true_eq] at hen
    simp [decodeByte_header _ hen, hse.symm]
  | hdrType b' =>
    obtain rfl : b' = b := by simpa [encode] using henc
    simp only [rowEnabled, Bool.and_eq_true, decide_eq_true_eq] at hen
    obtain ⟨⟨hp, hs⟩, he⟩ := hen
    simp [decodeByte_header _ hp, hs, he]
  | accSync =>
    obtain rfl : c.par.sync = b := by simpa [encode] using henc
    simp only [rowEnabled, Bool.and_eq_true, decide_eq_true_eq] at hen
    obtain ⟨hp, hfull⟩ := hen
    simp [decodeByte_accumulating _ hok hp, hse, hfull]
  | accEndToggle1 =>
    obtain rfl : c.par.endMark = b := by simpa [encode] using henc
    simp only [rowEnabled, Bool.and_eq_true, decide_eq_true_eq] at hen
    obtain ⟨hp, ht⟩ := hen
    simp [decodeByte_accumulating _ hok hp, ht]
  | accEndToggle0 =>
    obtain rfl : c.par.endMark = b := by simpa [encode] using henc
    simp only [rowEnabled, Bool.and_eq_true, Bool.not_eq_true', decide_eq_true_eq] at hen
    obtain ⟨⟨hp, ht⟩, hfull⟩ := hen
    simp [decodeByte_accumulating _ hok hp, ht, hse.symm, SyncCtx.countAfter_of_ne_sync hse.symm, hfull]
  | accOther b' =>
    obtain rfl : b' = b := by simpa [encode] using henc
    simp only [rowEnabled, Bool.and_eq_true, decide_eq_true_eq] at hen
    obtain ⟨⟨⟨hp, hs⟩, he⟩, hfull⟩ := hen
    simp [decodeByte_accumulating _ hok hp, hs, he, SyncCtx.countAfter_of_ne_sync hs, hfull]
  | accOverflow b' =>
    obtain rfl : b' = b := by simpa [encode] using henc
    obtain ⟨hp, hdone, hfull⟩ := rowEnabled_accOverflow.1 hen
    rw [decodeByte_accumulating _ hok hp, if_neg hdone, if_pos hfull]
  | _ => simp [rowEnabled] at hen

/-- A row some byte selects takes exactly one byte. -/
theorem encode_of_enabled {c : SyncCtx} {i : Instr} (hen : rowEnabled c i = true) : ∃ b, encode c.par i = [b] := by
  cases i with
  | idleSync | idleOther | hdrNoiseSync | hdrNoiseEnd | hdrType | accSync | accEndToggle1 | accEndToggle0 | accOther
  | accOverflow => exact ⟨_, rfl⟩
  | _ => simp [rowEnabled] at hen

/-- Settles O1: an enabled row takes one byte, and is the row that byte selects. -/
theorem encodedRowDecodesBack : Obligations.EncodedRowDecodesBack := by
  intro c i rest hok _ hen
  obtain ⟨b, hb⟩ := encode_of_enabled hen
  rw [hb, List.singleton_append, decode, if_pos hok, decodeByte_eq_of_enabled hok hen hb]

/-- Settles O2: the selected row exists by the phases' equations, and is the only one as the guards exclude each other. -/
theorem everyByteSelectsOneRow : Obligations.EveryByteSelectsOneRow :=
  fun _ b hok => ⟨rowEnabled_encode_decodeByte b hok, fun _ hen henc => (decodeByte_eq_of_enabled hok hen henc).symm⟩

/-! ### Type bytes (R104, R105, R200) -/

/-- The type byte of a kind passes the test of that kind and of none before it, the type bytes being distinct (R7). -/
theorem frameKind_of_typeByte {p : Params} {k : FrameKind} {t : Byte} (hok : p.ok = true)
    (h : typeByte p k = some t) : frameKind p t = k := by
  have hd := Params.ok_marks hok
  simp only [Params.marks, List.nodup_cons, List.mem_cons, not_or] at hd
  cases k with
  | unrecognised => cases h
  | _ =>
    cases h
    grind [frameKind]

/-- A byte that is no kind's type byte fails every test. -/
theorem frameKind_unrecognised {p : Params} {t : Byte} (h : ∀ k, typeByte p k ≠ some t) :
    frameKind p t = .unrecognised := by
  have hne : ∀ k u, typeByte p k = some u → t ≠ u := fun k u hu e => h k (e ▸ hu)
  simp [frameKind, hne .raw _ rfl, hne .eph _ rfl, hne .bit _ rfl, hne .iono _ rfl, hne .utc _ rfl, hne .pvt _ rfl,
    hne .alm _ rfl]

/-- Settles O3: the seven type bytes each by its test, every other byte by failing all of them. -/
theorem typeByteSelectsDecoder : Obligations.TypeByteSelectsDecoder :=
  fun _ hok => ⟨fun _ _ => frameKind_of_typeByte hok, fun _ => frameKind_unrecognised⟩

/-! ### The default bytes -/

/-- Settles O4: each byte evaluated at the default parameters. -/
theorem specBytesDecode : Obligations.SpecBytesDecode := by
  unfold Obligations.SpecBytesDecode
  decide

end Sys2Proof.Machine

/-! SUPPORT and PROOFS. The synchronizer's transition rows, each with its result and its frame (R142–R151); that
`BYTE_IN` is the row its byte selects (R141, R152); and what a byte that completes no frame answers and writes (R157). -/

namespace Sys2Proof.Machine

/-! ### `BYTE_IN`, and the rows where their guards hold (R142–R151) -/

/-- What `BYTE_IN` makes of each `return` of the body (R141, R150). -/
def SyncResult.answer : SyncResult → Result
  | .more t => .next (t.ret .noMessage)
  | .overflow t => .next (t.ret .error)
  | .done t => dispatch t

theorem exec_byteIn (b : Byte) (s : State) : exec (.byteIn b) s = (syncStep b s.start).answer := rfl

/-- What a transition row does in a state that selects it; no other instruction is selected by a byte. -/
def rowBody (i : Instr) (s : State) : Result :=
  match i with
  | .idleSync => .next (s.startFrame.ret .noMessage)
  | .idleOther _ => .next (s.ret .noMessage)
  | .hdrNoiseSync => .next (s.toIdle.ret .noMessage)
  | .hdrNoiseEnd => .next (s.toIdle.ret .noMessage)
  | .hdrType b => .next ((s.storeByte b).ret .noMessage)
  | .accSync => .next ((flipAndStore s.par.sync s).ret .noMessage)
  | .accEndToggle1 => dispatch (s.storeByte s.par.endMark).completeFrame
  | .accEndToggle0 => .next ((s.storeByte s.par.endMark).ret .noMessage)
  | .accOther b => .next ((s.storeByte b).ret .noMessage)
  | .accOverflow b => .next ((flipAndStore b s).toIdle.ret .error)
  | _ => .refused .rowNotSelected

/-- A row whose guard holds runs its body, on a state with nothing answered. -/
theorem exec_of_enabled {i : Instr} {s : State} (h : rowEnabled s.ctx i = true) : exec i s = rowBody i s.start := by
  cases i with
  | idleSync | idleOther | hdrNoiseSync | hdrNoiseEnd | hdrType | accEndToggle1 | accEndToggle0 | accOther
  | accOverflow => exact if_pos h
  | accSync =>
    refine (if_pos h).trans (congrArg Host.Outcome.next ?_)
    cases ht : s.toggle with
    | false =>
      rw [if_pos (by simp [ht])]
      exact congrArg _ (flipAndStore_sync_even (s := s.start) ht).symm
    | true =>
      rw [if_neg (by simp [ht])]
      exact congrArg _ (flipAndStore_sync_odd (s := s.start) ht).symm
  | _ => simp [rowEnabled] at h

theorem storedByte_of_buf {s t : State} {i : Nat} {b : Byte} (h : t.buf = bufPut s.buf i b) : storedByte s t i b := by
  refine ⟨?_, fun j hj => ?_⟩
  · rw [bufByte, h, bufPut_get_same]
  · rw [bufByte, h, bufPut_get_other _ _ _ _ hj, bufByte]

/-- Settles O6: the guard is Idle, and the body is R142's. -/
theorem idleSyncStartsFrame : Obligations.IdleSyncStartsFrame := by
  intro s h
  have hen : rowEnabled s.ctx .idleSync = true := by simp [rowEnabled, State.ctx_count, phaseOf_idle.2 h]
  exact ⟨_, exec_of_enabled hen, rfl, storedByte_of_buf rfl⟩

/-- Settles O7: the guard is Idle and a byte that is not `SYNC`, and the body only answers. -/
theorem idleDiscardsOtherBytes : Obligations.IdleDiscardsOtherBytes := by
  intro s b h hb
  have hen : rowEnabled s.ctx (.idleOther b) = true := by
    simp [rowEnabled, State.ctx_count, State.ctx_par, phaseOf_idle.2 h, hb]
  exact exec_of_enabled hen

/-- Settles O8: both noise rows are guarded by Header alone and have one body. -/
theorem headerNoiseReturnsToIdle : Obligations.HeaderNoiseReturnsToIdle := by
  intro s i h hi
  have hp := phaseOf_header.2 h
  have hen : rowEnabled s.ctx i = true := by
    rcases hi with rfl | rfl <;> simp [rowEnabled, State.ctx_count, hp]
  rw [exec_of_enabled hen]
  rcases hi with rfl | rfl <;> rfl

/-- Settles O9: the byte goes to `count`, which is 1 in Header. -/
theorem headerStoresTypeByte : Obligations.HeaderStoresTypeByte := by
  intro s b h hs he
  have hen : rowEnabled s.ctx (.hdrType b) = true := by
    simp [rowEnabled, State.ctx_count, State.ctx_par, phaseOf_header.2 h, hs, he]
  refine ⟨_, exec_of_enabled hen, ?_, storedByte_of_buf ?_⟩
  · simp [State.storeByte, State.ret, State.start, h, answered, Output.none]
  · simp [h]

/-- Settles O10: from an even toggle `SYNC` is stored (R148) and must fit, from an odd one it is dropped. -/
theorem accSyncFlipsThenStoresIfOdd : Obligations.AccSyncFlipsThenStoresIfOdd := by
  intro s h
  have hp := phaseOf_accumulating.2 h
  refine ⟨fun ht hfull => ?_, fun ht hfull => ?_⟩
  · have hen : rowEnabled s.ctx .accSync = true := by
      simp [rowEnabled, SyncCtx.countAfter, SyncCtx.stores, SyncCtx.toggleAfter, State.ctx, hp, ht, hfull]
    have hflip := flipAndStore_sync_even (s := s.start) ht
    refine ⟨_, (exec_of_enabled hen).trans (congrArg (fun u => (SyncResult.more u).answer) hflip), ?_,
      storedByte_of_buf rfl⟩
    simp [State.storeByte, State.flipToggle, State.ret, State.start, ht, answered, Output.none]
  · have hen : rowEnabled s.ctx .accSync = true := by
      simp [rowEnabled, SyncCtx.countAfter, SyncCtx.stores, SyncCtx.toggleAfter, State.ctx, hp, ht, hfull]
    have hflip := flipAndStore_sync_odd (s := s.start) ht
    refine ((exec_of_enabled hen).trans (congrArg (fun u => (SyncResult.more u).answer) hflip)).trans
      (congrArg Host.Outcome.next ?_)
    simp [State.flipToggle, State.ret, State.start, ht, answered, Output.none]

/-- Settles O11: both rows store their byte at `count`. -/
theorem payloadBytesAreStored : Obligations.PayloadBytesAreStored := by
  intro s h hfull
  have hp := phaseOf_accumulating.2 h
  refine ⟨fun b hs he => ?_, fun ht => ?_⟩
  · have hen : rowEnabled s.ctx (.accOther b) = true := by simp [rowEnabled, State.ctx, hp, hs, he, hfull]
    exact ⟨_, exec_of_enabled hen, rfl, storedByte_of_buf rfl⟩
  · have hen : rowEnabled s.ctx .accEndToggle0 = true := by simp [rowEnabled, State.ctx, hp, ht, hfull]
    exact ⟨_, exec_of_enabled hen, rfl, storedByte_of_buf rfl⟩

/-- Settles O14: a byte that is not dropped fills the buffer, and the frame is discarded with it in place. -/
theorem overflowDiscardsFrame : Obligations.OverflowDiscardsFrame := by
  intro s b h hfull hs he
  have hstored : s.ctx.stores b = true ∧ flipAndStore b s.start =
      { s.start with buf := bufPut s.buf s.count b, count := s.count + 1, toggle := s.ctx.toggleAfter b } :=
    (flipAndStore_cases b s.start).resolve_right fun ⟨_, hb, ht, _⟩ => by simp [hs hb] at ht
  obtain ⟨hst, hflip⟩ := hstored
  have hen : rowEnabled s.ctx (.accOverflow b) = true := by
    refine rowEnabled_accOverflow.2 ⟨phaseOf_accumulating.2 h, fun ⟨hb, ht⟩ => ?_, ?_⟩
    · exact Bool.false_ne_true ((he hb).symm.trans ht)
    · rw [SyncCtx.countAfter, if_pos hst]; exact hfull
  have hrun : exec (.accOverflow b) s = .next ((flipAndStore b s.start).toIdle.ret .error) := exec_of_enabled hen
  rw [hflip] at hrun
  exact ⟨_, hrun, rfl, storedByte_of_buf rfl⟩

/-! ### Completion (R149, R150) -/

/-- The dispatcher on a completed frame runs the decoder of its type byte's row on the tagged state. -/
theorem dispatch_eq_rowDecoder {s : State} {ty : Byte} (h : frameReady s ty) :
    dispatch s = rowDecoder (frameKind s.par ty) (ephSystem s) (s.emitTag ty) := by
  simp only [dispatch, frameReady_read h, runDecoder_eq, ephSystem_emitTag]

/-- The dispatcher on a completed frame is the frame row of its type byte. -/
theorem dispatch_eq_frameRow {s : State} {ty : Byte} (h : frameReady s ty) :
    dispatch s = exec (frameRow (frameKind s.par ty) (ephSystem s)) s :=
  (dispatch_eq_rowDecoder h).trans (frameRow_selected h rfl).symm

/-- ACC_END_TOGGLE1 dispatches the frame its `END` completes. -/
theorem exec_accEndToggle1 {s : State} (h : 2 ≤ s.count) (ht : s.toggle = true) :
    exec .accEndToggle1 s = dispatch (s.start.storeByte s.par.endMark).completeFrame :=
  exec_of_enabled (i := .accEndToggle1) (by simp [rowEnabled, State.ctx, phaseOf_accumulating.2 h, ht])

/-- The `END` lies behind the type byte, which stays readable. -/
theorem frameReady_complete {s : State} {ty : Byte} (b : Byte) (h : 2 ≤ s.count) (hty : bufByte s 1 = some ty) :
    frameReady (s.start.storeByte b).completeFrame ty :=
  ⟨rfl, Nat.le_succ_of_le h, (bufPut_get_other _ _ _ _ (Nat.ne_of_lt h)).trans hty⟩

/-- Settles O12: the row dispatches, and the dispatcher is the frame row. -/
theorem endCompletesFrameAndDispatches : Obligations.EndCompletesFrameAndDispatches :=
  fun _ _ h ht hty => ⟨_, rfl, storedByte_of_buf rfl,
    (exec_accEndToggle1 h ht).trans (dispatch_eq_frameRow (frameReady_complete _ h hty))⟩

/-- Settles O13: the dispatcher's decoder of an unrecognised type only answers 0. -/
theorem unrecognisedFrameCompletes : Obligations.UnrecognisedFrameCompletes := by
  intro s ty h ht hty hk
  have hd := dispatch_eq_rowDecoder (frameReady_complete s.par.endMark h hty)
  have hk' : frameKind (s.start.storeByte s.par.endMark).completeFrame.par ty = .unrecognised := hk
  rw [hk'] at hd
  exact ⟨_, (exec_accEndToggle1 h ht).trans hd, rfl, storedByte_of_buf rfl⟩

/-! ### `BYTE_IN` is the selected row (R141, R152) -/

/-- The body of R141 in Accumulating: completion before overflow (R152). -/
theorem syncStep_accumulating {s : State} (b : Byte) (hok : s.par.ok = true) (h : 2 ≤ s.count) :
    syncStep b s =
      if b = s.par.endMark ∧ s.toggle = true then .done (flipAndStore b s).completeFrame
      else if s.ctx.countAfter b = s.par.maxFrame then .overflow (flipAndStore b s).toIdle
      else .more (flipAndStore b s) := by
  have hse := Params.ok_sync_ne_end hok
  have h0 : s.count ≠ 0 := by omega
  have h1 : s.count ≠ 1 := by omega
  have hdone : s.ctx.toggleAfter b = true ∧ b = s.par.endMark ↔ b = s.par.endMark ∧ s.toggle = true := by
    refine and_comm.trans (and_congr_right fun hb => ?_)
    simp [SyncCtx.toggleAfter, State.ctx, hb, hse.symm]
  simp [syncStep, h0, h1, hdone]

/-- The body of R141 as a whole and the rules R142–R151 line by line are the same step. -/
theorem syncStep_answer {s : State} (b : Byte) (hok : s.par.ok = true) :
    (syncStep b s).answer = rowBody (decodeByte s.ctx b) s := by
  cases h : phaseOf s.count with
  | idle =>
    have h0 := phaseOf_idle.1 h
    rw [decodeByte_idle (c := s.ctx) b h, State.ctx_par]
    split_ifs with hs <;> simp [syncStep, SyncResult.answer, rowBody, h0, hs]
  | header =>
    have h1 := phaseOf_header.1 h
    rw [decodeByte_header (c := s.ctx) b h, State.ctx_par]
    split_ifs with hs he
    · simp [syncStep, SyncResult.answer, rowBody, h1, hs]
    · simp [syncStep, SyncResult.answer, rowBody, h1, he]
    · simp [syncStep, SyncResult.answer, rowBody, h1, hs, he]
  | accumulating =>
    have hse := Params.ok_sync_ne_end hok
    rw [decodeByte_accumulating (c := s.ctx) b hok h, syncStep_accumulating b hok (phaseOf_accumulating.1 h),
      State.ctx_par, State.ctx_toggle]
    split_ifs with hdone hfull hs he
    · simp [SyncResult.answer, rowBody, hdone.1, flipAndStore_payload hse.symm]
    · rfl
    · subst hs
      rfl
    · simp [SyncResult.answer, rowBody, he, flipAndStore_payload hse.symm]
    · simp [SyncResult.answer, rowBody, flipAndStore_payload hs]

/-- Settles O15: the selected row is enabled, so it runs its body, and that is the body of R141. -/
theorem byteInRunsSelectedRow : Obligations.ByteInRunsSelectedRow :=
  fun s b hok => (syncStep_answer (s := s.start) b hok).trans
    (exec_of_enabled (rowEnabled_encode_decodeByte (c := s.ctx) b hok).1).symm

/-! ### Bytes that complete no frame (R157) -/

/-- The flip and the store write `count` and `toggle`, and of the buffer the byte at `count`. -/
theorem flipAndStore_frame (b : Byte) (s : State) :
    ∃ m n odd, flipAndStore b s = { s with buf := m, count := n, toggle := odd } ∧
      ∀ j, j ≠ s.count → tableGet m j = tableGet s.buf j := by
  rcases flipAndStore_cases b s with ⟨_, e⟩ | ⟨_, _, _, e⟩
  · exact ⟨_, _, _, e, fun _ => bufPut_get_other _ _ _ _⟩
  · exact ⟨_, _, _, e, fun _ _ => rfl⟩

/-- What O16 says of the outcome `r` of a byte on `s`, the byte overflowing the frame or not. -/
def AnswersWithoutCompletion (s : State) (overflows : Prop) [Decidable overflows] (r : Result) : Prop :=
  ∃ t, r = .next t ∧
    t = { s with buf := t.buf, count := t.count, toggle := t.toggle, out := t.out } ∧
    t.out = answered (if overflows then .error else .noMessage) ∧
    ∀ j, j ≠ s.count → bufByte t j = bufByte s j

/-- A row that completes no frame answers, and stores at `count` if it stores. -/
theorem rowBody_answers {s : State} {i : Instr} {b : Byte} (hen : rowEnabled s.ctx i = true)
    (henc : encode s.par i = [b]) (hi : i ≠ .accEndToggle1) :
    AnswersWithoutCompletion s (i = .accOverflow b) (rowBody i s.start) := by
  cases i with
  | accEndToggle1 => exact absurd rfl hi
  | idleSync =>
    have h0 : s.count = 0 := phaseOf_idle.1 (of_decide_eq_true hen)
    exact ⟨_, rfl, rfl, by simp [answered, Output.none], fun j hj => bufPut_get_other _ _ _ _ (h0 ▸ hj)⟩
  | idleOther | hdrNoiseSync | hdrNoiseEnd => exact ⟨_, rfl, rfl, by simp [answered, Output.none], fun _ _ => rfl⟩
  | hdrType | accEndToggle0 | accOther =>
    exact ⟨_, rfl, rfl, by simp [answered, Output.none], fun j hj => bufPut_get_other _ _ _ _ hj⟩
  | accSync =>
    obtain ⟨m, n, odd, hflip, hbytes⟩ := flipAndStore_frame s.par.sync s.start
    refine ⟨_, congrArg (fun u => (SyncResult.more u).answer) hflip, rfl, ?_, hbytes⟩
    simp [answered, Output.none]
  | accOverflow b' =>
    obtain rfl : b' = b := by simpa [encode] using henc
    obtain ⟨m, n, odd, hflip, hbytes⟩ := flipAndStore_frame b' s.start
    refine ⟨_, congrArg (fun u : State => (SyncResult.overflow u.toIdle).answer) hflip, rfl, ?_, hbytes⟩
    simp [answered, Output.none]
  | _ => simp [rowEnabled] at hen

/-- Settles O16: the row the byte selects answers, or is the completing one and ends as the dispatcher does. -/
theorem byteInWithoutCompletion : Obligations.ByteInWithoutCompletion := by
  intro s b hok
  obtain ⟨hen, henc⟩ := rowEnabled_encode_decodeByte (c := s.ctx) b hok
  have hrun : exec (.byteIn b) s = rowBody (decodeByte s.ctx b) s.start := syncStep_answer (s := s.start) b hok
  rw [hrun]
  refine ⟨rowBody_answers hen henc, fun t ht => ?_⟩
  by_cases hi : decodeByte s.ctx b = .accEndToggle1
  · rw [hi] at ht
    obtain ⟨ty, _, hends⟩ := dispatch_ends ht
    obtain ⟨st, hst, hne⟩ := hends.status
    simpa [hst] using hne
  · obtain ⟨u, hu, _, hout, _⟩ := rowBody_answers hen henc hi
    obtain rfl : u = t := Host.Outcome.next.inj (hu.symm.trans ht)
    rw [hout]
    split_ifs <;> simp [answered]

end Sys2Proof.Machine

/-! SUPPORT and PROOFS. The round trip of a stuffed frame (R116, R153, R154): the buffer of a frame being accumulated,
one `BYTE_IN` on it, and the run over the wire form. -/

namespace Sys2Proof.Machine

/-! ### Consecutive stores -/

/-- `buf[i..] <- bs`, one byte after the other. -/
def bufPutAll (m : List Host.Cell) (i : Nat) : List Byte → List Host.Cell
  | [] => m
  | b :: bs => bufPutAll (bufPut m i b) (i + 1) bs

theorem bufPutAll_concat (m : List Host.Cell) (i : Nat) (bs : List Byte) (b : Byte) :
    bufPutAll m i (bs ++ [b]) = bufPut (bufPutAll m i bs) (i + bs.length) b := by
  induction bs generalizing m i with
  | nil => rfl
  | cons c bs ih => simp only [List.cons_append, bufPutAll, ih, List.length_cons, Nat.add_assoc, Nat.add_comm 1]

theorem bufPutAll_get_outside (m : List Host.Cell) {i j : Nat} (bs : List Byte) (h : j < i ∨ i + bs.length ≤ j) :
    tableGet (bufPutAll m i bs) j = tableGet m j := by
  induction bs generalizing m i with
  | nil => rfl
  | cons b bs ih =>
    rw [List.length_cons] at h
    rw [bufPutAll, ih (bufPut m i b) (by omega), bufPut_get_other _ _ _ _ (by omega)]

theorem holdsBytes_of_bufPutAll {s : State} {m : List Host.Cell} {i : Nat} {bs : List Byte}
    (h : s.buf = bufPutAll m i bs) : holdsBytes s i bs := by
  induction bs generalizing m i with
  | nil => trivial
  | cons b bs ih =>
    refine ⟨?_, ih h⟩
    rw [bufByte, h, bufPutAll, bufPutAll_get_outside _ _ (.inl (Nat.lt_succ_self i)), bufPut_get_same]

/-! ### One byte in Accumulating, by the toggle it comes with (R147–R152) -/

/-- A byte that comes with an even toggle is stored, and makes the toggle odd exactly if it is `SYNC` (R147, R148). -/
theorem flipAndStore_even {s : State} (b : Byte) (ht : s.toggle = false) :
    flipAndStore b s =
      { s with buf := bufPut s.buf s.count b, count := s.count + 1, toggle := decide (b = s.par.sync) } := by
  by_cases hb : b = s.par.sync
  · subst hb
    simp [flipAndStore_sync_even ht, State.storeByte, State.flipToggle, ht]
  · simp [flipAndStore_payload hb, State.storeByte, hb, ht]

theorem countAfter_even {s : State} (b : Byte) (ht : s.toggle = false) : s.ctx.countAfter b = s.count + 1 := by
  rw [← flipAndStore_count, flipAndStore_even b ht]

/-- With an even toggle no byte completes the frame, `END` neither. -/
theorem syncStep_even {s : State} (b : Byte) (hok : s.par.ok = true) (h2 : 2 ≤ s.count) (ht : s.toggle = false)
    (hroom : s.count + 1 ≠ s.par.maxFrame) :
    syncStep b s = .more
      { s with buf := bufPut s.buf s.count b, count := s.count + 1, toggle := decide (b = s.par.sync) } := by
  rw [syncStep_accumulating b hok h2, if_neg (by simp [ht]), countAfter_even b ht, if_neg hroom,
    flipAndStore_even b ht]

/-- The byte that fills the buffer is stored and discards the frame. -/
theorem syncStep_even_full {s : State} (b : Byte) (hok : s.par.ok = true) (h2 : 2 ≤ s.count) (ht : s.toggle = false)
    (hfull : s.count + 1 = s.par.maxFrame) :
    syncStep b s = .overflow { s with buf := bufPut s.buf s.count b, count := 0, toggle := false } := by
  rw [syncStep_accumulating b hok h2, if_neg (by simp [ht]), countAfter_even b ht, if_pos hfull,
    flipAndStore_even b ht]
  rfl

/-- The second `SYNC` of a pair is dropped. -/
theorem syncStep_odd_sync {s : State} (hok : s.par.ok = true) (h2 : 2 ≤ s.count) (ht : s.toggle = true)
    (hroom : s.count ≠ s.par.maxFrame) : syncStep s.par.sync s = .more { s with toggle := false } := by
  have hflip : flipAndStore s.par.sync s = { s with toggle := false } := by
    rw [flipAndStore_sync_odd ht, State.flipToggle, ht, Bool.not_true]
  have hcount : s.ctx.countAfter s.par.sync = s.count := by rw [← flipAndStore_count, hflip]
  rw [syncStep_accumulating _ hok h2, if_neg (fun h => Params.ok_sync_ne_end hok h.1), hcount, if_neg hroom, hflip]

/-- `END` over an odd toggle is stored and completes the frame. -/
theorem syncStep_odd_end {s : State} (hok : s.par.ok = true) (h2 : 2 ≤ s.count) (ht : s.toggle = true) :
    syncStep s.par.endMark s = .done (s.storeByte s.par.endMark).completeFrame := by
  rw [syncStep_accumulating _ hok h2, if_pos ⟨rfl, ht⟩, flipAndStore_payload (Params.ok_sync_ne_end hok).symm]

/-! ### `BYTE_IN` on a frame being accumulated -/

/-- `s` with the bytes `bs` of a frame stored, after a `BYTE_IN` that answered 0. -/
def State.accumulated (s : State) (bs : List Byte) (toggle : Bool) : State :=
  { s with buf := bufPutAll s.buf 0 bs, count := bs.length, toggle := toggle, out := answered .noMessage }

theorem State.accumulated_concat (s : State) (bs : List Byte) (b : Byte) (toggle : Bool) :
    s.accumulated (bs ++ [b]) toggle =
      { s.accumulated bs toggle with buf := bufPut (bufPutAll s.buf 0 bs) bs.length b, count := bs.length + 1 } := by
  simp [State.accumulated, bufPutAll_concat]

theorem byteIn_even {s : State} {bs : List Byte} (b : Byte) (hok : s.par.ok = true) (h2 : 2 ≤ bs.length)
    (hroom : bs.length + 1 < s.par.maxFrame) :
    exec (.byteIn b) (s.accumulated bs false) = .next (s.accumulated (bs ++ [b]) (decide (b = s.par.sync))) := by
  rw [exec_byteIn, syncStep_even (s := (s.accumulated bs false).start) b hok h2 rfl (Nat.ne_of_lt hroom),
    State.accumulated_concat]
  rfl

theorem byteIn_even_full {s : State} {bs : List Byte} (b : Byte) (hok : s.par.ok = true) (h2 : 2 ≤ bs.length)
    (hfull : bs.length + 1 = s.par.maxFrame) :
    exec (.byteIn b) (s.accumulated bs false) =
      .next { s with buf := bufPutAll s.buf 0 (bs ++ [b]), count := 0, toggle := false, out := answered .error } := by
  rw [exec_byteIn, syncStep_even_full (s := (s.accumulated bs false).start) b hok h2 rfl hfull, bufPutAll_concat,
    Nat.zero_add]
  rfl

theorem byteIn_odd_sync {s : State} {bs : List Byte} (hok : s.par.ok = true) (h2 : 2 ≤ bs.length)
    (hroom : bs.length < s.par.maxFrame) :
    exec (.byteIn s.par.sync) (s.accumulated bs true) = .next (s.accumulated bs false) :=
  exec_byteIn_of_more (syncStep_odd_sync (s := (s.accumulated bs true).start) hok h2 rfl (Nat.ne_of_lt hroom))

theorem byteIn_odd_end {s : State} {bs : List Byte} (hok : s.par.ok = true) (h2 : 2 ≤ bs.length) :
    exec (.byteIn s.par.endMark) (s.accumulated bs true) =
      dispatch { s with buf := bufPutAll s.buf 0 (bs ++ [s.par.endMark]), count := 0, toggle := true,
                        len := bs.length + 1, out := Output.none } := by
  rw [bufPutAll_concat, Nat.zero_add]
  exact congrArg SyncResult.answer (syncStep_odd_end (s := (s.accumulated bs true).start) hok h2 rfl)

/-! ### Runs of bytes that each answer 0 -/

/-- `BYTE_IN` of each byte in order leads from one state to another, each of them answering 0. -/
inductive QuietRun : List Byte → State → State → Prop
  | nil (s : State) : QuietRun [] s s
  | cons {b : Byte} {bs : List Byte} {s u t : State} (hb : exec (.byteIn b) s = .next u)
      (hout : u.out = answered .noMessage) (hbs : QuietRun bs u t) : QuietRun (b :: bs) s t

theorem QuietRun.single {b : Byte} {s t : State} (hb : exec (.byteIn b) s = .next t)
    (hout : t.out = answered .noMessage) : QuietRun [b] s t := .cons hb hout (.nil t)

theorem QuietRun.append {bs cs : List Byte} {s u t : State} (h : QuietRun bs s u) (h' : QuietRun cs u t) :
    QuietRun (bs ++ cs) s t := by
  induction h with
  | nil => exact h'
  | cons hb hout _ ih => exact .cons hb hout (ih h')

theorem QuietRun.runBytes {bs : List Byte} {s t : State} (h : QuietRun bs s t) : runBytes bs s = .next t := by
  induction h with
  | nil => rfl
  | cons hb _ _ ih => simpa only [Machine.runBytes, hb] using ih

/-- Every byte of the run answers 0. -/
theorem QuietRun.answers {bs front back : List Byte} {b : Byte} {s t : State} (h : QuietRun bs s t)
    (hbs : bs = front ++ b :: back) :
    ∃ v, Machine.runBytes (front ++ [b]) s = .next v ∧ v.out = answered .noMessage := by
  induction h generalizing front with
  | nil => simp at hbs
  | cons hb hout _ ih =>
    cases front with
    | nil =>
      obtain ⟨rfl, rfl⟩ := List.cons.inj hbs
      exact ⟨_, by simp only [List.nil_append, Machine.runBytes, hb], hout⟩
    | cons c front =>
      obtain ⟨rfl, hrest⟩ := List.cons.inj hbs
      obtain ⟨v, hv, hvout⟩ := ih hrest
      exact ⟨v, by simpa only [List.cons_append, Machine.runBytes, hb] using hv, hvout⟩

/-! ### The wire form of a frame (R116) -/

theorem stuff_append (p : Params) (xs ys : List Byte) : stuff p (xs ++ ys) = stuff p xs ++ stuff p ys := by
  induction xs with
  | nil => rfl
  | cons b xs ih =>
    simp only [List.cons_append, stuff, ih]
    split_ifs <;> rfl

/-- `SYNC` and a type byte from Idle (R142, R144). -/
theorem quietRun_header {s : State} {ty : Byte} (h : s.count = 0) (hs : ty ≠ s.par.sync) (he : ty ≠ s.par.endMark) :
    QuietRun [s.par.sync, ty] s (s.accumulated [s.par.sync, ty] false) := by
  refine .cons (u := s.accumulated [s.par.sync] false) ?_ rfl (.single ?_ rfl)
  · exact exec_byteIn_of_more (t := s.start.startFrame) (by simp [syncStep, h])
  · exact exec_byteIn_of_more (t := (s.accumulated [s.par.sync] false).start.storeByte ty)
      (by simp [syncStep, State.accumulated, hs, he])

/-- Each stuffed payload byte is stored once and leaves the toggle even (R153). -/
theorem quietRun_stuff {s : State} {bs q : List Byte} (hok : s.par.ok = true) (h2 : 2 ≤ bs.length)
    (hroom : bs.length + q.length < s.par.maxFrame) :
    QuietRun (stuff s.par q) (s.accumulated bs false) (s.accumulated (bs ++ q) false) := by
  induction q generalizing bs with
  | nil => simpa [stuff] using QuietRun.nil (s.accumulated bs false)
  | cons b q ih =>
    rw [List.length_cons] at hroom
    have hrest := ih (bs := bs ++ [b]) (by simp; omega) (by simp; omega)
    rw [List.append_assoc, List.singleton_append] at hrest
    have hb := byteIn_even b hok h2 (by omega)
    rw [stuff]
    split_ifs with hs
    · subst hs
      rw [decide_eq_true rfl] at hb
      exact .cons hb rfl (.cons (byteIn_odd_sync hok (by simp; omega) (by simp; omega)) rfl hrest)
    · rw [decide_eq_false hs] at hb
      exact .cons hb rfl hrest

/-- The frame up to a part of its payload. -/
theorem quietRun_payload {s : State} {ty : Byte} {q : List Byte} (hok : s.par.ok = true) (h : s.count = 0)
    (hs : ty ≠ s.par.sync) (he : ty ≠ s.par.endMark) (hroom : 2 + q.length < s.par.maxFrame) :
    QuietRun (s.par.sync :: ty :: stuff s.par q) s (s.accumulated (s.par.sync :: ty :: q) false) :=
  (quietRun_header h hs he).append (quietRun_stuff hok (Nat.le_refl 2) hroom)

/-- The whole frame but its `END`: the terminator's `SYNC` is stored and leaves the toggle odd. -/
theorem quietRun_frameBody {s : State} {ty : Byte} {q : List Byte} (hok : s.par.ok = true) (h : s.count = 0)
    (hs : ty ≠ s.par.sync) (he : ty ≠ s.par.endMark) (hroom : 3 + q.length < s.par.maxFrame) :
    QuietRun (frameBody s.par ty q) s (s.accumulated (s.par.sync :: ty :: (q ++ [s.par.sync])) true) := by
  have hsync := byteIn_even (s := s) (bs := s.par.sync :: ty :: q) s.par.sync hok (by simp) (by simp; omega)
  rw [decide_eq_true rfl] at hsync
  exact (quietRun_payload hok h hs he (by omega)).append (.single hsync rfl)

/-- A frame too long for the buffer is cut at the byte that is stored last: before it comes the part of the payload that
fits. -/
theorem frame_eq_cut (p : Params) (ty : Byte) (payload : List Byte) (n : Nat) :
    ∃ b back, frame p ty payload = (p.sync :: ty :: stuff p (payload.take n)) ++ b :: back := by
  obtain ⟨b, back, hb⟩ := List.exists_cons_of_ne_nil
    (l := stuff p (payload.drop n) ++ [p.sync, p.endMark]) (by simp)
  refine ⟨b, back, ?_⟩
  rw [← hb, frame, frameBody]
  conv_lhs => rw [← List.take_append_drop n payload, stuff_append]
  simp

/-- Settles O5: a frame that fits runs quietly up to its `END`, which completes it; one that does not runs quietly up to
the byte that fills the buffer, and that byte comes with an even toggle. -/
theorem stuffedFrameRoundTrips : Obligations.StuffedFrameRoundTrips := by
  intro s ty payload hok h hs he
  refine ⟨fun hfits => ?_, fun hlong => ?_⟩
  · have hrun := quietRun_frameBody hok h hs he (q := payload) (by omega)
    have hend := byteIn_odd_end (s := s) (bs := s.par.sync :: ty :: (payload ++ [s.par.sync])) hok (by simp)
    refine ⟨_, _, hrun.runBytes, hend, ?_, holdsBytes_of_bufPutAll (m := s.buf) ?_, fun j hj => ?_,
      fun _ _ _ => hrun.answers⟩
    · have hlen : (s.par.sync :: ty :: (payload ++ [s.par.sync])).length + 1 = 4 + payload.length := by simp; omega
      rw [hlen, h]
    · simp [frameBuffer]
    · exact bufPutAll_get_outside _ _ (.inr (by simp; omega))
  · have hmax := Params.ok_maxFrame hok
    have hlen : (payload.take (s.par.maxFrame - 3)).length = s.par.maxFrame - 3 := by
      rw [List.length_take]; omega
    obtain ⟨b, back, hcut⟩ := frame_eq_cut s.par ty payload (s.par.maxFrame - 3)
    have hrun := quietRun_payload hok h hs he (q := payload.take (s.par.maxFrame - 3)) (by omega)
    have hfull := byteIn_even_full (s := s) (bs := s.par.sync :: ty :: payload.take (s.par.maxFrame - 3)) b hok
      (by simp) (by simp; omega)
    refine ⟨_, b, back, _, _, hcut, hrun.runBytes, ?_, hfull, rfl, rfl, ?_⟩
    · simp [State.accumulated]; omega
    · rw [bufByte, bufPutAll_concat, Nat.zero_add]
      exact bufPut_get_same _ _ _

end Sys2Proof.Machine

/-! SUPPORT and PROOFS. The file variant of the synchronizer (R180–R184): what its loop does with one byte, that it is
`BYTE_IN` of the bytes it consumes, how many those can be, where the sync search stops, and the frame it delivers. -/

namespace Sys2Proof.Machine

/-! ### One byte of the loop (R181) -/

/-- A sync-search byte below the limit is counted (R183). -/
theorem fileLoop_search {b : Byte} {rest : List Byte} {idle : Nat} {s t : State} (h : syncStep b s = .more t)
    (hs : s.count ≤ 1) (ht : t.count ≤ 1) (hlim : idle + 1 < s.par.syncSearchLimit) :
    fileLoop (b :: rest) idle s = fileLoop rest (idle + 1) t := by
  simp [fileLoop, h, searching, hs, ht, hlim]

/-- The sync-search byte that reaches the limit ends the call with status 0 (R183). -/
theorem fileLoop_search_limit {b : Byte} {rest : List Byte} {idle : Nat} {s t : State} (h : syncStep b s = .more t)
    (hs : s.count ≤ 1) (ht : t.count ≤ 1) (hlim : s.par.syncSearchLimit ≤ idle + 1) :
    fileLoop (b :: rest) idle s = .next ((t.giveRest rest).ret .noMessage) := by
  simp [fileLoop, h, searching, hs, ht, hlim]

/-- A byte that leaves the synchronizer Accumulating is not counted (R183). -/
theorem fileLoop_accumulate {b : Byte} {rest : List Byte} {idle : Nat} {s t : State} (h : syncStep b s = .more t)
    (ht : 2 ≤ t.count) : fileLoop (b :: rest) idle s = fileLoop rest idle t := by
  simp [fileLoop, h, searching, Nat.not_le.2 ht]

/-- A byte that completes a frame ends the call with the dispatcher's outcome (R184). -/
theorem fileLoop_done {b : Byte} {rest : List Byte} {idle : Nat} {s t : State} (h : syncStep b s = .done t) :
    fileLoop (b :: rest) idle s = mapNext (State.giveRest rest) (dispatch t) := by
  simp [fileLoop, h]

/-- Everything the loop can do with a byte when the call answers: the call ends with what `BYTE_IN` answers and gives
the rest back, or it goes on, and counts the byte if it is a sync-search byte below the limit. -/
theorem fileLoop_cons_next {b : Byte} {rest : List Byte} {idle : Nat} {s t : State}
    (h : fileLoop (b :: rest) idle s = .next t) :
    (∃ v, (syncStep b s).answer = .next v ∧ t = v.giveRest rest) ∨
    ∃ u idle', syncStep b s = .more u ∧ fileLoop rest idle' u = .next t ∧
      (s.count ≤ 1 ∧ u.count ≤ 1 ∧ idle' = idle + 1 ∧ idle' < s.par.syncSearchLimit ∨
        (2 ≤ s.count ∨ 2 ≤ u.count) ∧ idle' = idle) := by
  unfold fileLoop at h
  cases e : syncStep b s with
  | done u =>
    rw [e] at h
    exact .inl (mapNext_next h)
  | overflow u =>
    rw [e] at h
    cases h
    exact .inl ⟨_, rfl, rfl⟩
  | more u =>
    rw [e] at h
    simp only [searching, Bool.and_eq_true, decide_eq_true_eq] at h
    split at h
    · next hsearch =>
      split at h
      · cases h
        exact .inl ⟨_, rfl, rfl⟩
      · next hlim => exact .inr ⟨u, _, rfl, h, .inl ⟨hsearch.1, hsearch.2, rfl, Nat.not_le.1 hlim⟩⟩
    · exact .inr ⟨u, _, rfl, h, .inr ⟨by omega, rfl⟩⟩

/-! ### The end of input (R182) -/

theorem endOfInput_kept {s : State} (h : s.par.eofDiscardsPartial = false) :
    endOfInput s = { s with out := ⟨some .endOfInput, s.out.tag, some []⟩ } := by
  simp [endOfInput, h, State.giveRest, State.ret]

theorem endOfInput_dropped {s : State} (h : s.par.eofDiscardsPartial = true) :
    endOfInput s = { s with count := 0, toggle := false, out := ⟨some .endOfInput, s.out.tag, some []⟩ } := by
  simp [endOfInput, h, State.toIdle, State.giveRest, State.ret]

theorem endOfInput_out (s : State) : (endOfInput s).out = ⟨some .endOfInput, s.out.tag, some []⟩ := by
  cases h : s.par.eofDiscardsPartial with
  | false => rw [endOfInput_kept h]
  | true => rw [endOfInput_dropped h]

/-- Settles O47: the loop ends at once, on a state with nothing answered. -/
theorem fileStepAtEndOfInput : Obligations.FileStepAtEndOfInput :=
  fun s => ⟨fun h => congrArg Host.Outcome.next (endOfInput_kept (s := s.start) h),
    fun h => congrArg Host.Outcome.next (endOfInput_dropped (s := s.start) h)⟩

/-! ### FILE_STEP is BYTE_IN of the bytes it consumes (R181, R184) -/

/-- `BYTE_IN` never answers −2 (R182). -/
theorem SyncResult.answer_status_ne {r : SyncResult} {t : State} (h : r.answer = .next t) :
    t.out.status ≠ some .endOfInput := by
  cases r with
  | more u => cases h; simp
  | overflow u => cases h; simp
  | done u =>
    obtain ⟨ty, _, hends⟩ := dispatch_ends h
    obtain ⟨st, hst, hne⟩ := hends.status
    simpa [hst] using hne

/-- The loop of R181 against the run of `BYTE_IN`s, by induction on the source: `t.ret .noMessage` is the state the run
reaches where the loop reaches `t`. -/
theorem fileLoop_refines {src : List Byte} {idle : Nat} {s t : State} (h : fileLoop src idle s.start = .next t) :
    (t.out.status ≠ some .endOfInput ∧
      ∃ used rest u, src = used ++ rest ∧ runBytes used s = .next u ∧ t = u.giveRest rest) ∨
    ∃ u, runBytes src s = .next u ∧ u.par = s.par ∧ t = endOfInput u.start := by
  induction src generalizing idle s with
  | nil => exact .inr ⟨s, rfl, rfl, (Host.Outcome.next.inj h).symm⟩
  | cons b rest ih =>
    rcases fileLoop_cons_next h with ⟨v, hv, rfl⟩ | ⟨u, idle', hb, hgo, _⟩
    · refine .inl ⟨SyncResult.answer_status_ne (t := v) hv, [b], rest, v, rfl, ?_, rfl⟩
      simp only [runBytes, exec_byteIn, hv]
    · have hrun (cs : List Byte) : runBytes (b :: cs) s = runBytes cs (u.ret .noMessage) := by
        simp only [runBytes, exec_byteIn_of_more hb]
      have hout := syncStep_start b s
      have hpar := syncStep_par b s.start
      rw [hb] at hout hpar
      rw [← show (u.ret .noMessage).start = u from hout] at hgo
      rcases ih hgo with ⟨hne, used, back, w, rfl, hw, ht⟩ | ⟨w, hw, hp, ht⟩
      · exact .inl ⟨hne, b :: used, back, w, rfl, (hrun used).trans hw, ht⟩
      · exact .inr ⟨w, (hrun rest).trans hw, hp.trans hpar, ht⟩

/-- Settles O51: the loop ends with a `BYTE_IN`'s answer, or with the end of input on the state they lead to. -/
theorem fileStepRefinesByteIn : Obligations.FileStepRefinesByteIn := by
  intro s t src h
  rcases fileLoop_refines h with ⟨hne, used, rest, u, hsrc, hrun, rfl⟩ | ⟨u, hrun, hp, rfl⟩
  · refine ⟨fun _ => ⟨used, rest, u, rfl, hsrc, hrun, rfl⟩, fun he => absurd he hne⟩
  · refine ⟨fun hne => absurd (congrArg Output.status (endOfInput_out u.start)) hne, fun _ => ⟨u, hrun, ?_, ?_⟩⟩
    · exact fun hkeep => endOfInput_kept (s := u.start) (hp ▸ hkeep)
    · exact fun hdrop => endOfInput_dropped (s := u.start) (hp ▸ hdrop)

/-! ### How many bytes a call consumes (R183) -/

/-- How many bytes a call may still consume: the sync search its uncounted bytes and then a whole frame's, Accumulating
two for each byte there is room for, and the second of a `SYNC` pair. -/
def inputBudget (idle : Nat) (s : State) : Nat :=
  if s.count ≤ 1 then s.par.syncSearchLimit - idle + 2 * s.par.maxFrame
  else 2 * (s.par.maxFrame - s.count) + s.toggle.toNat

theorem inputBudget_searching {s : State} (idle : Nat) (h : s.count ≤ 1) :
    inputBudget idle s = s.par.syncSearchLimit - idle + 2 * s.par.maxFrame := if_pos h

theorem inputBudget_accumulating {s : State} (idle : Nat) (h : 2 ≤ s.count) :
    inputBudget idle s = 2 * (s.par.maxFrame - s.count) + s.toggle.toNat := if_neg (by omega)

theorem inputBudget_pos {s : State} (idle : Nat) (h : s.count < s.par.maxFrame) : 1 ≤ inputBudget idle s := by
  unfold inputBudget
  split <;> omega

theorem inputBudget_le {s : State} (h : s.count < s.par.maxFrame) :
    inputBudget 0 s ≤ s.par.syncSearchLimit + 2 * s.par.maxFrame := by
  have := s.toggle.toNat_le
  unfold inputBudget
  split <;> omega

/-- Where a byte goes on, the sync search reaches Accumulating with the type byte only, and each byte there raises
`count` or is the second of a `SYNC` pair and clears the toggle. -/
theorem syncStep_more_count {b : Byte} {s t : State} (h : syncStep b s = .more t) (hlt : s.count < s.par.maxFrame)
    (hmf : 31 ≤ s.par.maxFrame) :
    t.count < s.par.maxFrame ∧
    (s.count ≤ 1 → t.count ≤ 2) ∧
    (2 ≤ s.count → s.count ≤ t.count ∧ 2 * s.count + t.toggle.toNat < 2 * t.count + s.toggle.toNat) := by
  rcases syncStep_cases b s with ⟨h0, _, e⟩ | ⟨h0, _, e⟩ | ⟨h1, _, e⟩ | ⟨h1, _, _, e⟩ | ⟨_, _, _, e⟩ | ⟨_, _, _, e⟩ |
    ⟨h2, _, hfull, e⟩ <;> cases e.symm.trans h
  · simp only [State.startFrame_count]; omega
  · omega
  · simp only [State.toIdle_count]; omega
  · simp only [State.storeByte_count]; omega
  · rw [← flipAndStore_count] at hfull
    have := (s.ctx.toggleAfter b).toNat_le
    rcases flipAndStore_cases b s with ⟨_, e⟩ | ⟨_, _, htog, e⟩ <;> rw [e] at hfull ⊢
    · simp only at hfull ⊢
      omega
    · simp only [htog, Bool.toNat_true, Bool.toNat_false]
      omega

/-- The loop gives back the end of its source, and stays within the budget. -/
theorem fileLoop_consumes {src : List Byte} {idle : Nat} {s t : State} (hok : s.par.ok = true)
    (hlt : s.count < s.par.maxFrame) (h : fileLoop src idle s = .next t) :
    ∃ used rest, t.out.rest = some rest ∧ src = used ++ rest ∧ used.length ≤ inputBudget idle s := by
  induction src generalizing idle s with
  | nil =>
    cases h
    exact ⟨[], [], congrArg Output.rest (endOfInput_out s), rfl, Nat.zero_le _⟩
  | cons b rest ih =>
    rcases fileLoop_cons_next h with ⟨v, hv, rfl⟩ | ⟨u, idle', hb, hgo, hcount⟩
    · exact ⟨[b], rest, rfl, rfl, inputBudget_pos idle hlt⟩
    · have hp := syncStep_par b s
      rw [hb] at hp
      have hp' : u.par = s.par := hp
      obtain ⟨hult, htype, hacc⟩ := syncStep_more_count hb hlt (Params.ok_maxFrame hok)
      obtain ⟨used, back, hback, rfl, hlen⟩ := ih (hp' ▸ hok) (hp' ▸ hult) hgo
      refine ⟨b :: used, back, hback, rfl, ?_⟩
      have hbudget : inputBudget idle' u + 1 ≤ inputBudget idle s := by
        have := u.toggle.toNat_le
        rcases hcount with ⟨hs, hu, rfl, hlim⟩ | ⟨hphase, rfl⟩
        · rw [inputBudget_searching _ hs, inputBudget_searching _ hu, hp']
          omega
        · rw [inputBudget_accumulating idle' (s := u) (by omega), hp']
          by_cases hs : s.count ≤ 1
          · rw [inputBudget_searching _ hs]
            omega
          · rw [inputBudget_accumulating _ (by omega)]
            omega
      exact (Nat.succ_le_succ hlen).trans hbudget

/-- Settles O50: the budget at the start of the call is within the bound. -/
theorem fileStepConsumesBoundedInput : Obligations.FileStepConsumesBoundedInput := by
  intro s t src hok hi h
  have hlt : s.start.count < s.start.par.maxFrame := hi.sync.count_lt
  obtain ⟨used, rest, hrest, hsrc, hlen⟩ := fileLoop_consumes (s := s.start) hok hlt h
  exact ⟨used, rest, hrest, hsrc, hlen.trans (inputBudget_le hlt)⟩

/-! ### The sync search (R183) -/

/-- What a run of sync-search bytes that leads from `s` to `t` writes. -/
structure SearchEffect (s : State) (noise : List Byte) (t : State) : Prop where
  frame : t = { s with buf := t.buf, toggle := t.toggle, count := t.count }
  header : t.count = 1 → bufByte t 0 = some s.par.sync
  toggle : s.toggle = false ∨ s.count = 1 ∨ s.par.sync ∈ noise → t.toggle = false
  bytes : ∀ j, j ≠ 0 → bufByte t j = bufByte s j
  discarded : s.count = 0 → s.par.sync ∉ noise → t = s

theorem SearchEffect.trans {s t u : State} {xs ys : List Byte} (h : SearchEffect s xs t) (h' : SearchEffect t ys u) :
    SearchEffect s (xs ++ ys) u := by
  have hp : t.par = s.par := by rw [h.frame]
  refine ⟨?_, fun hc => ?_, fun hc => ?_, fun j hj => (h'.bytes j hj).trans (h.bytes j hj), fun h0 hno => ?_⟩
  · rw [h'.frame, h.frame]
  · exact (h'.header hc).trans (congrArg (fun p : Params => some p.sync) hp)
  · rw [List.mem_append, ← or_assoc, ← or_assoc] at hc
    rcases hc with hc | hc
    · exact h'.toggle (.inl (h.toggle (or_assoc.1 hc)))
    · exact h'.toggle (.inr (.inr (hp ▸ hc)))
  · rw [List.mem_append, not_or] at hno
    obtain rfl := h.discarded h0 hno.1
    exact h'.discarded h0 hno.2

/-- A byte of a sync search: a `SYNC` that starts a frame, a byte discarded, or Header noise (R142, R143, R146). -/
theorem syncStep_search {s : State} {b : Byte} {bs : List Byte} {ends : Bool} (hc : s.count ≤ 1)
    (h : searchEnds s.par (decide (s.count = 1)) (b :: bs) = some ends) :
    ∃ t, syncStep b s = .more t ∧ t.count ≤ 1 ∧ searchEnds s.par (decide (t.count = 1)) bs = some ends ∧
      SearchEffect s [b] t := by
  rcases syncStep_cases b s with ⟨h0, hb, e⟩ | ⟨h0, hb, e⟩ | ⟨h1, hb, e⟩ | ⟨h1, hs, he, _⟩ | ⟨h2, _⟩ | ⟨h2, _⟩ | ⟨h2, _⟩
  · refine ⟨_, e, Nat.le_refl 1, by simpa [searchEnds, h0, hb] using h, rfl, fun _ => bufPut_get_same _ _ _,
      fun _ => rfl, fun j hj => bufPut_get_other _ _ _ _ hj, fun _ hno => ?_⟩
    exact absurd (List.mem_singleton.2 hb.symm) hno
  · refine ⟨_, e, hc, by simpa [searchEnds, h0, hb] using h, rfl, by simp [h0], fun ht => ?_, fun _ _ => rfl,
      fun _ _ => rfl⟩
    simpa [h0, Ne.symm hb] using ht
  · exact ⟨_, e, Nat.zero_le 1, by simpa [searchEnds, h1, hb] using h, rfl, by simp, fun _ => rfl, fun _ _ => rfl,
      by simp [h1]⟩
  · simp [searchEnds, h1, hs, he] at h
  all_goals omega

/-- The loop over sync-search bytes up to the limit, by induction on them. -/
theorem fileLoop_search_run {s : State} {b : Byte} {bs rest : List Byte} {idle : Nat} {ends : Bool}
    (hc : s.count ≤ 1) (hlen : idle + (b :: bs).length = s.par.syncSearchLimit)
    (h : searchEnds s.par (decide (s.count = 1)) (b :: bs) = some ends) :
    ∃ t, fileLoop (b :: bs ++ rest) idle s = .next ((t.giveRest rest).ret .noMessage) ∧
      t.count = (if ends = true then 1 else 0) ∧ SearchEffect s (b :: bs) t := by
  induction bs generalizing b s idle with
  | nil =>
    obtain ⟨u, hb, hu, hends, heff⟩ := syncStep_search hc h
    refine ⟨u, fileLoop_search_limit hb hc hu hlen.ge, ?_, heff⟩
    obtain rfl : decide (u.count = 1) = ends := Option.some.inj hends
    rcases Nat.le_one_iff_eq_zero_or_eq_one.1 hu with hu | hu <;> simp [hu]
  | cons c cs ih =>
    obtain ⟨u, hb, hu, hends, heff⟩ := syncStep_search hc h
    have hp : u.par = s.par := by rw [heff.frame]
    rw [← hp] at hends
    simp only [List.length_cons] at hlen ih
    obtain ⟨t, hrun, hcount, heff'⟩ := ih (idle := idle + 1) hu (by rw [hp]; omega) hends
    exact ⟨t, (fileLoop_search hb hc hu (by omega)).trans hrun, hcount, heff.trans heff'⟩

/-- Bytes discarded in Idle keep the search there. -/
theorem searchEnds_discarded {p : Params} {bs : List Byte} (h : ∀ b ∈ bs, b ≠ p.sync) :
    searchEnds p false bs = some false := by
  induction bs with
  | nil => rfl
  | cons b bs ih =>
    obtain ⟨hb, hbs⟩ := List.forall_mem_cons.1 h
    simpa [searchEnds, hb] using ih hbs

/-- Settles O48: the search stops at its last byte; without a `SYNC` the state it leaves is the one it began in. -/
theorem syncSearchStopsAtLimit : Obligations.SyncSearchStopsAtLimit := by
  intro s noise rest hok hlen
  cases noise with
  | nil => exact absurd hlen (Nat.ne_of_lt (Params.ok_limit hok))
  | cons b bs =>
    have hlen' : 0 + (b :: bs).length = s.start.par.syncSearchLimit := (Nat.zero_add _).trans hlen
    refine ⟨fun h0 hno => ?_, fun inHeader hc h => ?_⟩
    · obtain ⟨t, hrun, _, heff⟩ := fileLoop_search_run (s := s.start) (rest := rest) (ends := false)
        (h0.le.trans (Nat.zero_le 1)) hlen' (by simpa [h0] using searchEnds_discarded hno)
      obtain rfl := heff.discarded h0 (fun hmem => hno _ hmem rfl)
      exact hrun
    · obtain ⟨t, hrun, hcount, heff⟩ := fileLoop_search_run (s := s.start) (rest := rest) hc hlen' h
      refine ⟨_, hrun, ?_, fun hin => heff.header (by simp [hcount, hin]), fun ht => heff.toggle (.inr ht), heff.bytes⟩
      rw [← hcount, heff.frame]
      rfl

/-! ### One whole frame (R116, R184) -/

/-- `SYNC` and a type byte from Idle: one sync-search byte, and the byte that ends the search (R142, R144). -/
theorem fileLoop_header {s : State} {ty : Byte} {rest : List Byte} (h : s.count = 0) (hs : ty ≠ s.par.sync)
    (he : ty ≠ s.par.endMark) (hlim : 2 ≤ s.par.syncSearchLimit) :
    fileLoop (s.par.sync :: ty :: rest) 0 s.start = fileLoop rest 1 (s.accumulated [s.par.sync, ty] false).start := by
  have hsync : syncStep s.par.sync s.start = .more s.start.startFrame := by simp [syncStep, h]
  have hty : syncStep ty s.start.startFrame = .more (s.start.startFrame.storeByte ty) := by simp [syncStep, hs, he]
  rw [fileLoop_search hsync (by simp [h]) (by simp) hlim, fileLoop_accumulate hty (by simp)]
  rfl

/-- `BYTE_IN` ends in the phase in which the body of the byte does. -/
theorem SyncResult.answer_count {r : SyncResult} {t : State} (h : r.answer = .next t) : t.count = r.state.count := by
  cases r with
  | more u => cases h; rfl
  | overflow u => cases h; rfl
  | done u =>
    obtain ⟨ty, _, hends⟩ := dispatch_ends h
    rw [hends.frame]
    rfl

/-- Completion and overflow end in Idle (R149, R151). -/
theorem syncStep_more_or_idle (b : Byte) (s : State) :
    (∃ t, syncStep b s = .more t) ∨ (syncStep b s).state.count = 0 := by
  rcases syncStep_cases b s with ⟨_, _, e⟩ | ⟨_, _, e⟩ | ⟨_, _, e⟩ | ⟨_, _, _, e⟩ | ⟨_, _, _, e⟩ | ⟨_, _, _, e⟩ |
    ⟨_, _, _, e⟩ <;> rw [e]
  case inr.inr.inr.inr.inl | inr.inr.inr.inr.inr.inl => exact .inr rfl
  all_goals exact .inl ⟨_, rfl⟩

/-- The loop goes over a byte whose `BYTE_IN` ends in Accumulating. -/
theorem fileLoop_of_byteIn {b : Byte} {rest : List Byte} {idle : Nat} {s u : State}
    (h : exec (.byteIn b) s = .next u) (h2 : 2 ≤ u.count) :
    fileLoop (b :: rest) idle s.start = fileLoop rest idle u.start := by
  rw [exec_byteIn] at h
  rcases syncStep_more_or_idle b s.start with ⟨t, e⟩ | hidle
  · have hout := syncStep_start b s
    rw [e] at h hout
    cases h
    exact (fileLoop_accumulate e h2).trans (congrArg (fileLoop rest idle) hout.symm)
  · have := SyncResult.answer_count h
    omega

/-- The loop stores each stuffed payload byte once (R153). -/
theorem fileLoop_stuff {s : State} {bs q rest : List Byte} {idle : Nat} (hok : s.par.ok = true) (h2 : 2 ≤ bs.length)
    (hroom : bs.length + q.length < s.par.maxFrame) :
    fileLoop (stuff s.par q ++ rest) idle (s.accumulated bs false).start =
      fileLoop rest idle (s.accumulated (bs ++ q) false).start := by
  induction q generalizing bs with
  | nil => rw [List.append_nil]; rfl
  | cons b q ih =>
    rw [List.length_cons] at hroom
    have hlen : (bs ++ [b]).length = bs.length + 1 := List.length_append
    have hrest := ih (bs := bs ++ [b]) (by omega) (by omega)
    rw [List.append_assoc, List.singleton_append] at hrest
    rw [← hrest]
    have hb := byteIn_even b hok h2 (by omega)
    have hacc (tog : Bool) : 2 ≤ (s.accumulated (bs ++ [b]) tog).count := by simp only [State.accumulated]; omega
    rw [stuff]
    split_ifs with hs
    · subst hs
      rw [decide_eq_true rfl] at hb
      have hpair := byteIn_odd_sync (s := s) (bs := bs ++ [s.par.sync]) hok (by omega) (by omega)
      exact (fileLoop_of_byteIn hb (hacc _)).trans (fileLoop_of_byteIn hpair (hacc _))
    · rw [decide_eq_false hs] at hb
      exact fileLoop_of_byteIn hb (hacc _)

/-- `s`, in Idle, with `Frame(T, p)` completed in the buffer: the state the dispatcher sees (R149, R150). -/
def State.delivered (s : State) (ty : Byte) (payload : List Byte) : State :=
  { s with buf := bufPutAll s.buf 0 (frameBuffer s.par ty payload), toggle := true, len := 4 + payload.length,
           out := Output.none }

/-- The terminator's `END` completes what was accumulated. -/
theorem accumulated_complete {s : State} (ty : Byte) (payload : List Byte) (h : s.count = 0) :
    ((s.accumulated (s.par.sync :: ty :: payload ++ [s.par.sync]) true).start.storeByte
      s.par.endMark).completeFrame = s.delivered ty payload := by
  have hbuf : frameBuffer s.par ty payload = (s.par.sync :: ty :: payload ++ [s.par.sync]) ++ [s.par.endMark] := by
    simp [frameBuffer]
  rw [State.delivered, hbuf, bufPutAll_concat, Nat.zero_add, h]
  simp [State.accumulated, State.start, State.storeByte, State.completeFrame]
  omega

/-- A frame that fits, from Idle: the loop dispatches it at its `END`. -/
theorem fileLoop_frame {s : State} {ty : Byte} {payload rest : List Byte} (hok : s.par.ok = true)
    (hlim : 2 ≤ s.par.syncSearchLimit) (h : s.count = 0) (hs : ty ≠ s.par.sync) (he : ty ≠ s.par.endMark)
    (hfits : 4 + payload.length ≤ s.par.maxFrame) :
    fileLoop (frame s.par ty payload ++ rest) 0 s.start =
      mapNext (State.giveRest rest) (dispatch (s.delivered ty payload)) := by
  have hwire : frame s.par ty payload ++ rest =
      s.par.sync :: ty :: (stuff s.par payload ++ s.par.sync :: s.par.endMark :: rest) := by simp [frame, frameBody]
  have hstuff := fileLoop_stuff (s := s) (bs := [s.par.sync, ty]) (q := payload)
    (rest := s.par.sync :: s.par.endMark :: rest) (idle := 1) hok (Nat.le_refl 2) (by simp; omega)
  have hsync := byteIn_even (s := s) (bs := s.par.sync :: ty :: payload) s.par.sync hok (by simp) (by simp; omega)
  rw [decide_eq_true rfl] at hsync
  have hend := syncStep_odd_end (s := (s.accumulated (s.par.sync :: ty :: payload ++ [s.par.sync]) true).start) hok
    (by simp [State.accumulated]) rfl
  rw [hwire, ← accumulated_complete ty payload h]
  exact (fileLoop_header h hs he hlim).trans <| hstuff.trans <|
    (fileLoop_of_byteIn hsync (by simp [State.accumulated])).trans (fileLoop_done hend)

/-- Settles O49: the loop hands the completed frame to the dispatcher, whose decoder of an unrecognised type only
answers 0. -/
theorem fileStepDeliversOneFrame : Obligations.FileStepDeliversOneFrame := by
  intro s ty payload rest hok hlim h hs he hfits
  have hrun := fileLoop_frame (rest := rest) hok hlim h hs he hfits
  have hholds : holdsBytes (s.delivered ty payload) 0 (frameBuffer s.par ty payload) := holdsBytes_of_bufPutAll rfl
  refine ⟨_, hrun, rfl, hholds, fun j hj => bufPutAll_get_outside _ _ (.inr (by simp [frameBuffer]; omega)),
    fun hk => hrun.trans ?_⟩
  have hready : frameReady (s.delivered ty payload) ty := ⟨h, Nat.le_add_right_of_le (by omega), hholds.2.1⟩
  have hkind : frameKind (s.delivered ty payload).par ty = .unrecognised := hk
  rw [dispatch_eq_rowDecoder hready, hkind]
  rfl

end Sys2Proof.Machine

/-! SUPPORT and PROOFS. The dispatcher and the rows it runs (R200–R204): what every frame row leaves alone, that the
attached decoders neither read nor write the observations (R212), and each attached row on a completed frame of its kind
(R213–R219). -/

namespace Sys2Proof.Machine

/-! ### What a frame row writes (R204, R212) -/

/-- Settles O19: the row's decoder ran on the tagged state, and no decoder writes the fields named. -/
theorem decodersLeaveSynchronizerAlone : Obligations.DecodersLeaveSynchronizerAlone := by
  intro s t k sys h
  obtain ⟨ty, _, _, _, hrun⟩ := frameRow_next h
  exact (rowDecoder_ends hrun).frame

/-- Settles O20: the row's decoder only answered 0, or ended as an attached decoder, whose `aux` goes by its status. -/
theorem attachedDecodersWriteOnlyAux : Obligations.AttachedDecodersWriteOnlyAux := by
  intro s t k sys hk h
  obtain ⟨ty, _, _, _, hrun⟩ := frameRow_next h
  rcases rowDecoder_attached sys (s.emitTag ty) hk with ⟨_, e⟩ | ⟨st, ⟨⟨new, e⟩ | ⟨e, _⟩⟩, _⟩
  · cases e.symm.trans hrun
    exact ⟨rfl, _, rfl, fun _ => rfl⟩
  · cases e.symm.trans hrun
    exact ⟨rfl, st, rfl, fun hst => auxAfter_of_not_pos hst _ _⟩
  · exact absurd (e.symm.trans hrun) (by simp)

/-! ### The observations are not read (R212) -/

/-- `s` with another observation set and half-cycle array. -/
def State.withObservations (o : List ObsEntry) (c : List Host.Cell) (s : State) : State := { s with obs := o, halfc := c }

/-- Whether a layout reads past its frame depends on `len` alone, so an update that keeps `len` commutes with the check. -/
theorem mapNext_withReach (f : State → State) (reach : Option Nat) {s t : State} (hl : t.len = s.len) (r : Result) :
    mapNext f (withReach reach s r) = withReach reach t (mapNext f r) := by
  have hb : readsBeyond reach t = readsBeyond reach s := by cases reach <;> simp [readsBeyond, hl]
  rw [withReach, withReach, hb]
  exact apply_ite (mapNext f) _ _ _

/-- An attached decoder does the same whatever the observations are, and leaves them. -/
theorem rowDecoder_withObservations {k : FrameKind} (sys : EphSystem) (o : List ObsEntry) (c : List Host.Cell) (s : State)
    (hk : k ≠ .raw) :
    mapNext (State.withObservations o c) (rowDecoder k sys s) = rowDecoder k sys (s.withObservations o c) := by
  have hl : (s.withObservations o c).len = s.len := rfl
  cases k with
  | raw => exact absurd rfl hk
  | eph => cases sys <;> rfl
  | iono | utc | pvt => exact mapNext_withReach _ _ hl _
  | bit | alm | unrecognised => rfl

/-- The meaning of a frame row: its decoder on a completed frame of its kind, the ephemeris rows by the system of the
inner byte. -/
theorem exec_frameRow (k : FrameKind) (sys : EphSystem) (s : State) :
    exec (frameRow k sys) s =
      if k = .eph → ephSystem s = sys then onFrame k (rowDecoder k sys) s else .refused .rowNotSelected := by
  cases k with
  | eph => cases sys <;> simp [frameRow, exec, execEphGps, execEphGlo, rowDecoder]
  | _ => exact (if_pos nofun).symm

/-- Settles O21: the row is selected by the same frame, and its decoder does the same. -/
theorem attachedDecodersIgnoreObservations : Obligations.AttachedDecodersIgnoreObservations := by
  intro s t k sys o c hk h
  rw [exec_frameRow] at h
  split at h
  · next hsys =>
    obtain ⟨ty, hread, hcount, hkind, hrun⟩ := onFrame_next h
    have hready : frameReady (s.withObservations o c) ty := ⟨hcount, readU1_inv hread⟩
    calc exec (frameRow k sys) (s.withObservations o c)
        = onFrame k (rowDecoder k sys) (s.withObservations o c) := (exec_frameRow k sys _).trans (if_pos hsys)
      _ = rowDecoder k sys ((s.emitTag ty).withObservations o c) := onFrame_selected hready hkind
      _ = mapNext (State.withObservations o c) (rowDecoder k sys (s.emitTag ty)) :=
        (rowDecoder_withObservations sys o c _ hk).symm
      _ = .next (t.withObservations o c) := congrArg (mapNext _) hrun
  · exact absurd h (by simp)

/-! ### The dispatcher runs the frame row (R200, R202) -/

/-- Settles O17: both run the decoder of the type byte's kind on the tagged state. -/
theorem dispatchRunsRowOfTypeByte : Obligations.DispatchRunsRowOfTypeByte := fun _ _ => dispatch_eq_frameRow

/-- Settles O18: the row is selected, and its decoder only answers 0. -/
theorem unrecognisedTypeIsNoOp : Obligations.UnrecognisedTypeIsNoOp :=
  fun s _ h hk => onFrame_selected (k := .unrecognised) (body := rowDecoder .unrecognised (ephSystem s)) h hk

/-! ### The ephemeris rows on a completed frame (R213, R214) -/

/-- R214: the three statuses and the condition each needs. They are those of R213 with accept-all off: an unchanged issue
indicator may gate whatever the register says (A23). -/
theorem ephGloStatus_conditions (e : Option Time) (a : AttachedAnswer) :
    (ephGloStatus e a = .error ∧ a.bad = true) ∨
    (ephGloStatus e a = .noMessage ∧ (e = none ∨ a.unchanged = true)) ∨
    (ephGloStatus e a = .ephemeris ∧ a.bad = false ∧ e ≠ none ∧ a.unchanged = false) := by
  have hgps : ephGloStatus e a = ephGpsStatus e false a := by simp [ephGloStatus, ephGpsStatus]
  rw [hgps]
  simpa using ephGpsStatus_cases e false a

/-- A frame row on a completed frame of its kind, for an ephemeris row of the system the inner byte says. -/
theorem exec_frameRow_selected {s : State} {ty : Byte} {k : FrameKind} {sys : EphSystem} (h : frameReady s ty)
    (hk : frameKind s.par ty = k) (hs : ephSystem s = sys) :
    exec (frameRow k sys) s = rowDecoder k sys (s.emitTag ty) := by
  subst hs
  exact frameRow_selected h hk

/-- Settles O22: the status has the three conditions of R213, and of the three only status 2 is positive. -/
theorem gpsEphemerisIsReplaced : Obligations.GpsEphemerisIsReplaced := by
  rintro s ty _ h hk hs rfl
  have hst := ephGpsStatus_cases s.lastEpoch s.optAcceptAll (attachedAnswer .eph s)
  refine ⟨_, _, exec_frameRow_selected h hk hs, hst, ?_⟩
  rcases hst with ⟨e, _⟩ | ⟨e, _⟩ | ⟨e, _⟩ <;> simp [e] <;> rfl

/-- Settles O23: the status has the three conditions of R214, and of the three only status 2 is positive. -/
theorem glonassEphemerisIsReplaced : Obligations.GlonassEphemerisIsReplaced := by
  rintro s ty _ h hk hs rfl
  have hst := ephGloStatus_conditions s.lastEpoch (attachedAnswer .eph s)
  refine ⟨_, _, exec_frameRow_selected h hk hs, hst, ?_⟩
  rcases hst with ⟨e, _⟩ | ⟨e, _⟩ | ⟨e, _⟩ <;> simp [e] <;> rfl

/-! ### BIT and ALM on a completed frame (R215, R219) -/

/-- R215: the three statuses and the condition each needs. -/
theorem bitStatus_conditions (a : AttachedAnswer) :
    (bitStatus a = .error ∧ a.bad = true) ∨ (bitStatus a = .sbas ∧ a.sbasDecoded = true) ∨
    (bitStatus a = .noMessage ∧ a.bad = false ∧ a.sbasDecoded = false) := by
  unfold bitStatus
  split_ifs with hs hb
  · exact .inr (.inl ⟨rfl, (Bool.and_eq_true_iff.1 hs).1⟩)
  · exact .inl ⟨rfl, hb⟩
  · exact .inr (.inr ⟨rfl, by simpa using hb, by simpa [hb] using hs⟩)

/-- Settles O24: the status has the three conditions of R215, and of the three only status 3 is positive. -/
theorem sbasBridgeForwardsDecodedBlock : Obligations.SbasBridgeForwardsDecodedBlock := by
  rintro s ty _ h hk rfl
  have hrun : exec .bit s = attachedBit (s.emitTag ty) := onFrame_selected h hk
  have hst := bitStatus_conditions (attachedAnswer .bit s)
  refine ⟨_, hrun.trans ?_, hst⟩
  rcases hst with ⟨e, _⟩ | ⟨e, _⟩ | ⟨e, _⟩ <;> simp [attachedBit, e] <;> rfl

/-- R219: which status a frame gets. -/
theorem almStatus_eq (glo : Bool) (a : AttachedAnswer) :
    almStatus glo a = if a.short = true ∨ (a.glonassAlm = true ∧ glo = false) then .noMessage else .almanac := by
  simp [almStatus]

/-- Settles O25: the test of R219 decides between the two statuses, of which only 6 is positive. -/
theorem almanacEntryIsWritten : Obligations.AlmanacEntryIsWritten := by
  intro s ty a h hk ha
  have hrun : exec .alm s = attachedAlm (s.emitTag ty) := onFrame_selected h hk
  have ha' : attachedAnswer .alm s = a := ha.symm
  have hst := almStatus_eq s.par.almGloEnabled a
  rw [hrun]
  split_ifs at hst ⊢ <;> simp [attachedAlm, ha', hst] <;> rfl

/-! ### The decoders without a length check (R216–R218, R315) -/

/-- What `withReach` makes of an outcome: the outcome itself where the layout fits the frame, else the fault. -/
theorem withReach_outcome {reach : Option Nat} {s : State} {r r' : Result} (h : r' = withReach reach s r) :
    ((∀ n, reach = some n → n ≤ s.len) → r' = r) ∧
    ∀ n, reach = some n → s.len < n → r' = .fault .unwrittenBufferRead := by
  subst h
  refine ⟨withReach_fits r, fun n hn hlt => ?_⟩
  rw [hn]
  exact withReach_beyond r hlt

/-- Settles O26: the decoder of either row is an end with status 9, which is positive, behind the check of its layout. -/
theorem ionoAndUtcAnswerNineOrFault : Obligations.IonoAndUtcAnswerNineOrFault := by
  intro s ty a h
  constructor
  · rintro hk rfl
    have hrun : exec .iono s = attachedIono (s.emitTag ty) := onFrame_selected h hk
    exact withReach_outcome hrun
  · rintro hk rfl
    have hrun : exec .utc s = attachedUtc (s.emitTag ty) := onFrame_selected h hk
    exact withReach_outcome hrun

/-- A bit of a status byte, as R218 writes it. -/
theorem getLsbD_iff_shiftRight_and_one (st : Byte) (k : Nat) : st.getLsbD k = true ↔ (st >>> k) &&& 1#8 ≠ 0#8 := by
  rw [BitVec.and_one_eq_setWidth_ofBool_getLsbD]
  cases h : st.getLsbD k <;> simp [h]

/-- R218: a week out of range gives -1 or 0, any other 4. -/
theorem pvtStatus_conditions (a : AttachedAnswer) :
    (a.bad = true ∧ (pvtStatus a = .error ∨ pvtStatus a = .noMessage)) ∨ (a.bad = false ∧ pvtStatus a = .pvt) := by
  unfold pvtStatus
  split_ifs with hb
  · exact .inl ⟨hb, .inl rfl⟩
  · exact .inl ⟨hb, .inr rfl⟩
  · exact .inr ⟨by simpa using hb, rfl⟩

/-- PVT on a completed frame of its kind: the record of the answer drawn, by its status, behind the check of its layout. -/
theorem exec_pvt {s : State} {ty : Byte} {a : AttachedAnswer} (h : frameReady s ty) (hk : frameKind s.par ty = .pvt)
    (ha : a = Config.attached .pvt s.draws (attachedView s)) :
    exec .pvt s = withReach (if a.bad && a.weekFirst then none else s.par.attachedReach.pvt) s
      (.next { s with
        aux := auxAfter (pvtStatus a) s.aux { s.aux with pvt := ⟨a.fixEpoch, pvtFlags a.pvtStatus, a.data⟩ },
        draws := s.draws + 1, out := answeredFrame (pvtStatus a) ty s.len }) := by
  subst ha
  exact onFrame_selected h hk

/-- Settles O27: a bad week writes nothing and may come before the layout is read; otherwise the layout decides between
the fault and the record. -/
theorem pvtRecordTakesStatusBits : Obligations.PvtRecordTakesStatusBits := by
  intro s ty a h hk ha
  have hrun := exec_pvt h hk ha
  rcases pvtStatus_conditions a with ⟨hb, hst⟩ | ⟨hb, hst⟩
  · have hcode : (pvtStatus a).code ≤ 0 := by rcases hst with e | e <;> rw [e] <;> decide
    have hne : pvtStatus a ≠ .pvt := by rcases hst with e | e <;> simp [e]
    rw [auxAfter_of_not_pos hcode] at hrun
    refine ⟨fun hfit => ⟨_, _, hrun.trans (withReach_fits _ fun n hn => ?_), by rwa [if_pos hb], rfl, fun _ => rfl,
      fun e => absurd e hne⟩, fun n hn hlt => ?_⟩
    · exact hfit n (by split_ifs at hn; exact hn)
    · rcases withReach_cases _ s _ with e | ⟨e, _⟩
      · exact .inr ⟨hb, _, hst, hrun.trans e⟩
      · exact .inl (hrun.trans e)
  · rw [hst, auxAfter_of_pos (by decide), hb, Bool.false_and, if_neg Bool.false_ne_true] at hrun
    have hbit := getLsbD_iff_shiftRight_and_one a.pvtStatus
    obtain ⟨hfits, hbeyond⟩ := withReach_outcome hrun
    exact ⟨fun hfit => ⟨_, .pvt, hfits hfit, by simp [hb], rfl, fun hne => absurd rfl hne,
      fun _ => ⟨rfl, rfl, hbit 7, hbit 6, hbit 4, hbit 3, hbit 2⟩⟩, fun n hn hlt => .inl (hbeyond n hn hlt)⟩

end Sys2Proof.Machine

/-! SUPPORT and PROOFS. RAW on a completed frame (R241–R253, R273): the checks of length, week, epoch and satellites, in
their order, and that the observations change with status 1 only, whichever instruction runs. -/

namespace Sys2Proof.Machine

/-! ### The length, the week and the epoch (R242–R248) -/

/-- R242 with its numbers. -/
theorem badRawLength_iff {n : Nat} : badRawLength n = true ↔ n < 31 ∨ (n - 31) % 30 ≠ 0 := by
  simp only [badRawLength, Bool.or_eq_true, decide_eq_true_eq]
  exact Iff.rfl

/-- RAW on a completed frame of its kind: the decoder on the tagged state. -/
theorem exec_raw {s : State} {ty : Byte} (h : frameReady s ty) (hk : frameKind s.par ty = .raw) :
    exec .raw s = rawObs (s.emitTag ty) := onFrame_selected h hk

/-- Settles O28: the length check comes first. -/
theorem rawLengthErrorWritesNothing : Obligations.RawLengthErrorWritesNothing :=
  fun _ _ h hk hlen => (exec_raw h hk).trans (if_pos (badRawLength_iff.2 hlen))

/-- A completed raw-observation frame of accepted length, with its header fields (R242, R243). -/
structure RawFrame (s : State) (ty : Byte) (h : RawHeader) : Prop where
  ready : frameReady s ty
  kind : frameKind s.par ty = .raw
  len_min : 31 ≤ s.len
  len_records : (s.len - 31) % 30 = 0
  header : readHeader s = .ok h

namespace RawFrame

variable {s : State} {ty : Byte} {h : RawHeader} (hf : RawFrame s ty h)
include hf

theorem length_accepted : badRawLength s.len = false := by
  rw [Bool.eq_false_iff, Ne, badRawLength_iff]
  exact not_or.2 ⟨Nat.not_lt.2 hf.len_min, not_not.2 hf.len_records⟩

/-- A week of 4096 or more ends the decoder (R244). -/
theorem exec_week_high (hw : 4096 ≤ h.week.toNat) : exec .raw s = .next ((s.emitTag ty).ret .noMessage) := by
  have hh : readHeader (s.emitTag ty) = .ok h := hf.header
  simp [exec_raw hf.ready hf.kind, rawObs, hf.length_accepted, hh, Config.weekCeiling, hw]

/-- With a week in range, the epoch arithmetic decides (R245–R248): its fault is RAW's fault. -/
theorem exec_epoch_fault {f : Fault} (hw : h.week.toNat < 4096)
    (he : deriveEpoch (adjWeek s h.week.toNat) h s.optTadj = .error f) : exec .raw s = .fault f := by
  have hh : readHeader (s.emitTag ty) = .ok h := hf.header
  have he' : deriveEpoch (adjWeek (s.emitTag ty) h.week.toNat) h s.optTadj = .error f := he
  simp [exec_raw hf.ready hf.kind, rawObs, hf.length_accepted, hh, Config.weekCeiling, hw, he']

/-- With a week in range and a derived epoch, the admission decides; `AdjWeek` made a draw (R249–R253). -/
theorem exec_epoch {e : Epoch} (hw : h.week.toNat < 4096)
    (he : deriveEpoch (adjWeek s h.week.toNat) h s.optTadj = .ok e) :
    exec .raw s = admitEpoch e (s.emitTag ty).drew := by
  have hh : readHeader (s.emitTag ty) = .ok h := hf.header
  have he' : deriveEpoch (adjWeek (s.emitTag ty) h.week.toNat) h s.optTadj = .ok e := he
  simp [exec_raw hf.ready hf.kind, rawObs, hf.length_accepted, hh, Config.weekCeiling, hw, he']

end RawFrame

/-- Settles O29: the week check follows the length check. -/
theorem rawWeekOutOfRangeIsDropped : Obligations.RawWeekOutOfRangeIsDropped :=
  fun _ _ _ hr hk hlen hrec hh hw => (RawFrame.mk hr hk hlen hrec hh).exec_week_high hw

/-- A time of week that is not finite faults (R246). -/
theorem deriveEpoch_tow_not_finite {week : Nat} {h : RawHeader} {tadj : F64}
    (ht : fpFinite (fpAdd (fpOfBits h.tow) (fpOfBits h.gpsutc)) = false) :
    deriveEpoch week h tadj = .error .nonFiniteEpoch := by
  simp [deriveEpoch, ht]

/-- Settles O30: the epoch arithmetic starts with the sum, whatever the adjusted week. -/
theorem rawNonFiniteEpochFaults : Obligations.RawNonFiniteEpochFaults :=
  fun _ _ _ hr hk hlen hrec hh hw ht =>
    (RawFrame.mk hr hk hlen hrec hh).exec_epoch_fault hw (deriveEpoch_tow_not_finite ht)

/-- Settles O35: the model's `m` is the host's, or the one drawn. -/
theorem weekAdjustmentLaw : Obligations.WeekAdjustmentLaw := by
  intro s w
  refine ⟨⟨_, rfl⟩, fun m hm => ?_⟩
  simp [adjWeek, hm]

/-! ### Admission (R249–R251) -/

theorem timeGap_eq_abs (t t0 : Time) : timeGap t t0 = |t - t0| := by
  unfold timeGap
  split_ifs with h
  · exact (abs_of_neg h).symm
  · exact (abs_of_nonneg (not_lt.1 h)).symm

/-- A jump or a duplicate answers 0 (R249, R250). -/
theorem admitEpoch_dropped {s : State} {e : Epoch} {t0 : Time} (hl : s.lastEpoch = some t0)
    (hgap : 86400 < |e.t - t0| ∨ |e.t - t0| < 1 / 1000) : admitEpoch e s = .next (s.ret .noMessage) := by
  rcases hgap with hjump | hdup
  · simp [admitEpoch, hl, isJump, timeGap_eq_abs, hjump]
  · simp only [admitEpoch, hl, isDuplicate, timeGap_eq_abs, hdup, decide_true, if_true, ite_self]

/-- Settles O31: the admission answers 0, after the draw of the week. -/
theorem rawJumpOrDuplicateIsDropped : Obligations.RawJumpOrDuplicateIsDropped := by
  intro s ty h e t0 hr hk hlen hrec hh hw he hl hgap
  refine ⟨_, ((RawFrame.mk hr hk hlen hrec hh).exec_epoch hw he).trans (admitEpoch_dropped hl hgap), rfl⟩

/-- The epoch is admitted (R251): neither a jump nor a duplicate of the last one, if there is one. -/
def Admitted (last : Option Time) (t : Time) : Prop := ∀ t0, last = some t0 → |t - t0| ≤ 86400 ∧ 1 / 1000 ≤ |t - t0|

theorem Admitted.not_jump_not_duplicate {last : Option Time} {t : Time} (h : Admitted last t) :
    isJump last t = false ∧ isDuplicate last t = false := by
  cases last with
  | none => exact ⟨rfl, rfl⟩
  | some t0 =>
    obtain ⟨hjump, hdup⟩ := h t0 rfl
    simp only [isJump, isDuplicate, timeGap_eq_abs]
    exact ⟨decide_eq_false (not_lt.2 hjump), decide_eq_false (not_lt.2 hdup)⟩

/-- A record of a defined code whose satellite does not resolve (R252). -/
theorem unresolved_iff {p : Params} {r : RawRecord} :
    unresolved p r = true ↔ ∃ g, signalOf p r.sig = some g ∧ satNo p g.sys (prnOf p g.sys r.prn) = none := by
  unfold unresolved
  split
  · next g hg => simp [hg, recordSat]
  · next hg => simp [hg]

/-- An admitted epoch whose records are read: the satellites decide between −1 and the commit (R252, R253). -/
theorem admitEpoch_admitted {s : State} {e : Epoch} {rs : List RawRecord} (ha : Admitted s.lastEpoch e.t)
    (hrs : readRecords s 29 ((s.len - 31) / 30) = .ok rs) :
    admitEpoch e s =
      if rs.any (unresolved s.par) then .next (s.ret .error) else .next ((commitEpoch e rs s).ret .observation) := by
  obtain ⟨hjump, hdup⟩ := ha.not_jump_not_duplicate
  have hrs' : readRecords s Config.rawRecBase (rawRecordCount s.len) = .ok rs := hrs
  simp only [admitEpoch, hjump, hdup, hrs', Bool.false_eq_true, if_false]

/-- RAW on an admitted message whose records are read. -/
theorem RawFrame.exec_admitted {s : State} {ty : Byte} {h : RawHeader} {e : Epoch} {rs : List RawRecord}
    (hf : RawFrame s ty h) (hw : h.week.toNat < 4096)
    (he : deriveEpoch (adjWeek s h.week.toNat) h s.optTadj = .ok e) (ha : Admitted s.lastEpoch e.t)
    (hrs : readRecords s 29 ((s.len - 31) / 30) = .ok rs) :
    exec .raw s = if rs.any (unresolved s.par) then .next ((s.emitTag ty).drew.ret .error)
      else .next ((commitEpoch e rs (s.emitTag ty).drew).ret .observation) :=
  have hrs' : readRecords (s.emitTag ty).drew 29 ((s.len - 31) / 30) = .ok rs :=
    (readRecords_congr (s := s) (t := (s.emitTag ty).drew) rfl rfl rfl _ _).trans hrs
  (hf.exec_epoch hw he).trans (admitEpoch_admitted (s := (s.emitTag ty).drew) ha hrs')

/-- Settles O32: one unresolved record is enough for −1. -/
theorem rawUnresolvedSatelliteRejects : Obligations.RawUnresolvedSatelliteRejects := by
  rintro s ty h e rs hr hk hlen hrec hh hw he ha hrs ⟨r, hmem, hun⟩
  have hany : rs.any (unresolved s.par) = true := List.any_eq_true.2 ⟨r, hmem, unresolved_iff.2 hun⟩
  exact ⟨_, ((RawFrame.mk hr hk hlen hrec hh).exec_admitted hw he ha hrs).trans (if_pos hany), rfl⟩

/-- Settles O33: with every satellite resolved the epoch is committed and the records are folded. -/
theorem rawAcceptedEpochIsCommitted : Obligations.RawAcceptedEpochIsCommitted := by
  intro s ty h e rs hr hk hlen hrec hh hw he ha hrs hres
  have hany : ¬ rs.any (unresolved s.par) = true := by
    intro hun
    obtain ⟨r, hmem, hr⟩ := List.any_eq_true.1 hun
    obtain ⟨g, hg, hs⟩ := unresolved_iff.1 hr
    exact hres r hmem g hg hs
  exact ⟨_, ((RawFrame.mk hr hk hlen hrec hh).exec_admitted hw he ha hrs).trans (if_neg hany), rfl⟩

/-! ### The observations (R253, R273) -/

/-- A record leaves a set of one epoch's entries such a set (R258). -/
theorem decodeRecord_times {p : Params} {e : Epoch} {d : Decoded} (r : RawRecord)
    (h : ∀ t ∈ d.obs.map (·.time), t = e.t) : ∀ t ∈ (decodeRecord p e d r).obs.map (·.time), t = e.t := by
  rcases decodeRecord_cases p e d r with hd | ⟨g, sat, obs, _, _, ho, hd⟩
  · rwa [hd]
  · rw [hd]
    dsimp only
    rw [obsSet_times]
    rcases obsWith_map ho with rfl | ⟨rfl, _, _⟩
    · exact h
    · intro t ht
      rw [List.map_append, List.mem_append] at ht
      exact ht.elim (h t) List.mem_singleton.1

theorem decodeRecords_times {p : Params} {e : Epoch} {d : Decoded} (rs : List RawRecord)
    (h : ∀ t ∈ d.obs.map (·.time), t = e.t) : ∀ t ∈ (decodeRecords p e d rs).obs.map (·.time), t = e.t := by
  induction rs generalizing d with
  | nil => exact h
  | cons r rs ih => exact ih (decodeRecord_times r h)

/-- Settles O34: of the three ways RAW ends, one rejects and writes nothing, one commits an epoch, the set being built
from empty. -/
theorem rawRejectionLeavesObservations : Obligations.RawRejectionLeavesObservations := by
  intro s t h
  obtain ⟨ty, _, _, _, hrun⟩ := onFrame_next h
  rcases rawObs_cases (s.emitTag ty) with ⟨f, hf⟩ | ⟨st, n, hst, hrej⟩ | ⟨e, rs, _, hcommit, _⟩
  · exact absurd (hf.symm.trans hrun) (by simp)
  · cases hst.symm.trans hrun
    refine ⟨fun hobs => ?_, fun _ => rfl⟩
    rcases hrej with rfl | rfl <;> simp at hobs
  · cases hcommit.symm.trans hrun
    exact ⟨fun _ => ⟨e.t, rfl, fun x hx => decodeRecords_times rs (by simp) x.time (List.mem_map_of_mem hx)⟩,
      fun hne => absurd rfl hne⟩

/-- From `s` to `t` the observations changed with status 1 only, and an established epoch stayed one. -/
structure ObservationsKept (s t : State) : Prop where
  observations : t.out.status ≠ some .observation → t.obs = s.obs ∧ t.lastEpoch = s.lastEpoch ∧ t.halfc = s.halfc
  established : s.lastEpoch ≠ none → t.lastEpoch ≠ none

namespace ObservationsKept

/-- Where none of the three fields is written, nothing is to be said of the status. -/
theorem of_eq {s t : State} (ho : t.obs = s.obs) (he : t.lastEpoch = s.lastEpoch) (hh : t.halfc = s.halfc) :
    ObservationsKept s t := ⟨fun _ => ⟨ho, he, hh⟩, fun h => by rwa [he]⟩

/-- What comes before may write other fields. -/
theorem congr_left {s u t : State} (h : ObservationsKept u t) (ho : u.obs = s.obs) (he : u.lastEpoch = s.lastEpoch)
    (hh : u.halfc = s.halfc) : ObservationsKept s t where
  observations := by rw [← ho, ← he, ← hh]; exact h.observations
  established := by rw [← he]; exact h.established

end ObservationsKept

theorem dispatch_observationsKept {s t : State} (h : dispatch s = .next t) : ObservationsKept s t := by
  obtain ⟨ty, _, hends⟩ := dispatch_ends h
  exact ⟨hends.observations, hends.established⟩

theorem frameRow_observationsKept {k : FrameKind} {sys : EphSystem} {s t : State}
    (h : exec (frameRow k sys) s = .next t) : ObservationsKept s t := by
  obtain ⟨ty, _, _, _, hrun⟩ := frameRow_next h
  exact ⟨(rowDecoder_ends hrun).observations, (rowDecoder_ends hrun).established⟩

/-- The body of a byte writes none of the three fields (R204). -/
theorem syncStep_observations (b : Byte) (s : State) :
    (syncStep b s).state.obs = s.obs ∧ (syncStep b s).state.lastEpoch = s.lastEpoch ∧
    (syncStep b s).state.halfc = s.halfc := by
  rw [syncStep_frame]
  exact ⟨rfl, rfl, rfl⟩

theorem syncStep_answer_observationsKept {b : Byte} {s t : State} (h : (syncStep b s).answer = .next t) :
    ObservationsKept s t := by
  obtain ⟨ho, he, hh⟩ := syncStep_observations b s
  cases e : syncStep b s with
  | more u => rw [e] at h ho he hh; cases h; exact .of_eq ho he hh
  | overflow u => rw [e] at h ho he hh; cases h; exact .of_eq ho he hh
  | done u => rw [e] at h ho he hh; exact (dispatch_observationsKept h).congr_left ho he hh

/-- The bodies of the transition rows: only the completing one runs a decoder. -/
theorem rowBody_observationsKept {i : Instr} {s t : State} (h : rowBody i s = .next t) : ObservationsKept s t := by
  cases i with
  | idleSync | idleOther | hdrNoiseSync | hdrNoiseEnd | hdrType | accEndToggle0 | accOther =>
    cases h; exact .of_eq rfl rfl rfl
  | accSync =>
    obtain ⟨m, n, odd, hflip, _⟩ := flipAndStore_frame s.par.sync s
    rw [rowBody, hflip] at h
    cases h; exact .of_eq rfl rfl rfl
  | accOverflow b =>
    obtain ⟨m, n, odd, hflip, _⟩ := flipAndStore_frame b s
    rw [rowBody, hflip] at h
    cases h; exact .of_eq rfl rfl rfl
  | accEndToggle1 =>
    exact (dispatch_observationsKept (s := (s.storeByte s.par.endMark).completeFrame) h).congr_left rfl rfl rfl
  | _ => cases h

theorem endOfInput_observationsKept (s : State) : ObservationsKept s (endOfInput s) := by
  cases h : s.par.eofDiscardsPartial with
  | false => rw [endOfInput_kept h]; exact .of_eq rfl rfl rfl
  | true => rw [endOfInput_dropped h]; exact .of_eq rfl rfl rfl

/-- The loop of R181, by induction on the source. -/
theorem fileLoop_observationsKept {src : List Byte} {idle : Nat} {s t : State}
    (h : fileLoop src idle s = .next t) : ObservationsKept s t := by
  induction src generalizing idle s with
  | nil => cases h; exact endOfInput_observationsKept s
  | cons b rest ih =>
    rcases fileLoop_cons_next h with ⟨v, hv, rfl⟩ | ⟨u, _, hb, hgo, _⟩
    · obtain ⟨hobs, hest⟩ := syncStep_answer_observationsKept hv
      exact ⟨hobs, hest⟩
    · have hu := syncStep_observations b s
      rw [hb] at hu
      exact (ih hgo).congr_left hu.1 hu.2.1 hu.2.2

/-- Settles O56: a transition row runs its body, a frame row its decoder, and the operations of the host but RESET go
through those or write other registers. -/
theorem observationsChangeOnlyWithStatusOne : Obligations.ObservationsChangeOnlyWithStatusOne := by
  intro i s t h hi
  suffices hk : ObservationsKept s t from ⟨hk.observations, hk.established⟩
  cases i with
  | reset => exact absurd rfl hi
  | byteIn b => exact (syncStep_answer_observationsKept (s := s.start) h).congr_left rfl rfl rfl
  | fileStep src => exact (fileLoop_observationsKept (s := s.start) h).congr_left rfl rfl rfl
  | configure a x => cases h; exact .of_eq rfl rfl rfl
  | idleSync | idleOther | hdrNoiseSync | hdrNoiseEnd | hdrType | accSync | accEndToggle1 | accEndToggle0 | accOther
  | accOverflow =>
    have hrow := h
    unfold exec at hrow
    have hbody := (exec_of_enabled (onRow_next hrow).1).symm.trans h
    exact (rowBody_observationsKept hbody).congr_left rfl rfl rfl
  | raw => exact frameRow_observationsKept (k := .raw) (sys := .gps) h
  | ephGps => exact frameRow_observationsKept (k := .eph) (sys := .gps) h
  | ephGlo => exact frameRow_observationsKept (k := .eph) (sys := .glonass) h
  | bit => exact frameRow_observationsKept (k := .bit) (sys := .gps) h
  | iono => exact frameRow_observationsKept (k := .iono) (sys := .gps) h
  | utc => exact frameRow_observationsKept (k := .utc) (sys := .gps) h
  | pvt => exact frameRow_observationsKept (k := .pvt) (sys := .gps) h
  | alm => exact frameRow_observationsKept (k := .alm) (sys := .gps) h
  | unrecognised => exact frameRow_observationsKept (k := .unrecognised) (sys := .gps) h

end Sys2Proof.Machine

/-! SUPPORT and PROOFS. Records (R254–R271): which are skipped, the range test, and two records of one slot in one
message. -/

namespace Sys2Proof.Machine

/-! ### Skipped records (R255, R257, R259, R260) -/

theorem fpAbsLe_iff {x : Fp} {bound : Rat} : fpAbsLe x bound = true ↔ ∃ n m, x = .fin n m ∧ m ≤ bound := by
  cases x <;> simp [fpAbsLe]

/-- Settles O39: each of the three tests asks for a finite number within its bound. -/
theorem rangeSanityBounds : Obligations.RangeSanityBounds := by
  intro r
  simp only [inRange, Bool.and_eq_true, fpAbsLe_iff]
  constructor
  · rintro ⟨⟨⟨n1, m1, h1⟩, n2, m2, h2⟩, n3, m3, h3⟩
    exact ⟨n1, m1, n2, m2, n3, m3, h1.1, h1.2, h2.1, h2.2, h3⟩
  · rintro ⟨n1, m1, n2, m2, n3, m3, h1, h1', h2, h2', h3⟩
    exact ⟨⟨⟨n1, m1, h1, h1'⟩, n2, m2, h2, h2'⟩, n3, m3, h3⟩

section

variable {p : Params} {e : Epoch} {d : Decoded} {r : RawRecord} {g : SignalRow} {sat : Nat}

theorem decodeRecord_undefined_code (hg : signalOf p r.sig = none) : decodeRecord p e d r = d := by
  simp [decodeRecord, hg]

theorem decodeRecord_out_of_range (hr : inRange r = false) : decodeRecord p e d r = d := by
  unfold decodeRecord
  split
  · rfl
  · split
    · rfl
    · simp [hr]

/-- A record of a resolved satellite does at most the write of its slot. -/
theorem decodeRecord_of_writeRecord (hg : signalOf p r.sig = some g) (hs : recordSat p g r = some sat)
    (hw : writeRecord p e g sat r d = d) : decodeRecord p e d r = d := by
  cases hr : inRange r with
  | false => exact decodeRecord_out_of_range hr
  | true => exact (decodeRecord_eq hg hs hr).trans hw

/-- A record that needs a new entry in a full set is skipped (R259). -/
theorem decodeRecord_set_full (hg : signalOf p r.sig = some g) (hs : recordSat p g r = some sat)
    (hx : obsFind d.obs sat = none) (hfull : d.obs.length = p.maxObsSats) : decodeRecord p e d r = d :=
  decodeRecord_of_writeRecord hg hs (by simp [writeRecord, obsWith, hx, hfull])

/-- A record whose code loses to the slot's is skipped (R260). -/
theorem decodeRecord_loses {x : ObsEntry} (hg : signalOf p r.sig = some g) (hs : recordSat p g r = some sat)
    (hx : obsFind d.obs sat = some x) (hc : codeLoses (x.slot g.slot).code g.code = true) : decodeRecord p e d r = d :=
  decodeRecord_of_writeRecord hg hs (by simp [writeRecord, obsWith, hx, hc])

end

/-- A civil code loses to a precise one, and in no other case does a code lose (R260). -/
theorem codeLoses_iff {held : Option CodeLabel} {new : CodeLabel} :
    codeLoses held new = true ↔ (∃ c, held = some c ∧ c.cls = .precise) ∧ new.cls = .civil := by
  cases held <;> simp [codeLoses, isPrecise]

/-- Settles O38: one lemma for each ground of skipping. -/
theorem skippedRecordWritesNothing : Obligations.SkippedRecordWritesNothing := by
  intro p e d r
  refine ⟨decodeRecord_undefined_code, decodeRecord_out_of_range, fun g sat hg hs => ⟨decodeRecord_set_full hg hs,
    fun x c hx hcode hpre hciv => decodeRecord_loses hg hs hx (codeLoses_iff.2 ⟨⟨c, hcode, hpre⟩, hciv⟩)⟩⟩

/-! ### Two records of one slot (R270, R271) -/

/-- The satellite's slot holds the record: its fields, the loss-of-lock bit against the flag byte `prev`, and its flag as
the half-cycle byte (R261–R267). -/
def SlotWritten (p : Params) (e : Epoch) (g : SignalRow) (r : RawRecord) (prev : Byte) (sat : Nat) (k : Fin 3)
    (d : Decoded) : Prop :=
  ∃ x, obsFind d.obs sat = some x ∧ HoldsRecord p e g r (x.slot k) ∧ lliIsEdge (x.slot k) r.flag prev ∧
    halfcGet d.halfc sat k = r.flag

/-- A record in range, of the signal row `g` and the satellite `sat`. -/
structure RecordOf (p : Params) (g : SignalRow) (sat : Nat) (r : RawRecord) : Prop where
  signal : signalOf p r.sig = some g
  satellite : recordSat p g r = some sat
  range : inRange r = true

section

variable {p : Params} {e : Epoch} {d : Decoded} {r r1 r2 : RawRecord} {g g1 g2 : SignalRow} {sat : Nat} {prev : Byte}

/-- A record that is not skipped is written, against the half-cycle byte held before. -/
theorem RecordOf.slotWritten (h : RecordOf p g sat r) (hwf : halfcWf d.halfc = true)
    (hroom : obsFind d.obs sat = none → d.obs.length ≠ p.maxObsSats)
    (hcode : ∀ x, obsFind d.obs sat = some x → codeLoses (x.slot g.slot).code g.code = false) :
    SlotWritten p e g r (halfcGet d.halfc sat g.slot) sat g.slot (decodeRecord p e d r) := by
  obtain ⟨⟨x, hx, hholds, hlli, _⟩, _, _, hhalf, _⟩ :=
    recordWritesItsSlotOnly p e d r g sat hwf h.signal h.satellite h.range hroom hcode
  exact ⟨x, hx, hholds, hlli, hhalf⟩

/-- A second record whose code does not lose to the first one's is written, against the first one's flag. -/
theorem SlotWritten.then_written (h1 : SlotWritten p e g1 r1 prev sat g1.slot d) (h2 : RecordOf p g2 sat r2)
    (hwf : halfcWf d.halfc = true) (hslot : g2.slot = g1.slot) (hcode : codeLoses (some g1.code) g2.code = false) :
    SlotWritten p e g2 r2 r1.flag sat g1.slot (decodeRecord p e d r2) := by
  obtain ⟨x, hx, hholds, _, hhalf⟩ := h1
  have hw := h2.slotWritten (e := e) hwf (by simp [hx]) (fun y hy => by
    obtain rfl : x = y := Option.some.inj (hx.symm.trans hy)
    rwa [hslot, hholds.code])
  rwa [hslot, hhalf] at hw

/-- A second record whose code loses to the first one's writes nothing. -/
theorem SlotWritten.then_loses (h1 : SlotWritten p e g1 r1 prev sat g1.slot d) (h2 : RecordOf p g2 sat r2)
    (hslot : g2.slot = g1.slot) (hcode : codeLoses (some g1.code) g2.code = true) : decodeRecord p e d r2 = d := by
  obtain ⟨x, hx, hholds, _, _⟩ := h1
  exact decodeRecord_loses h2.signal h2.satellite hx (by rwa [hslot, hholds.code])

end

/-- Settles O42: the first record is written, and the second is written over it or loses to it. -/
theorem repeatedRecordComparesWithFirst : Obligations.RepeatedRecordComparesWithFirst := by
  intro p e d r1 r2 g1 g2 sat hwf hg1 hg2 hslot hs1 hs2 hr1 hr2 hroom hcode
  have h1 : SlotWritten p e g1 r1 _ sat g1.slot (decodeRecord p e d r1) :=
    (RecordOf.mk hg1 hs1 hr1).slotWritten hwf hroom hcode
  have h2 : RecordOf p g2 sat r2 := ⟨hg2, hs2, hr2⟩
  refine ⟨fun hne => h1.then_written h2 (decodeRecord_halfcWf r1 hwf) hslot ?_,
    fun hpre hciv => h1.then_loses h2 hslot (codeLoses_iff.2 ⟨⟨_, rfl, hpre⟩, hciv⟩)⟩
  rw [Bool.eq_false_iff, Ne, codeLoses_iff]
  rintro ⟨⟨c, hc, hpre⟩, hciv⟩
  cases hc
  exact hne ⟨hpre, hciv⟩

/-- A precise code never loses. -/
theorem codeLoses_precise {held : Option CodeLabel} {new : CodeLabel} (h : new.cls = .precise) :
    codeLoses held new = false := by
  simp [codeLoses, h]

/-- Settles O41: the precise record is always written and the civil one loses to it. Civil first, the civil record was
written, and the precise one compares with it, or it lost to a precise slot and nothing changed before the precise one. -/
theorem preciseCodeIsRetained : Obligations.PreciseCodeIsRetained := by
  intro p e d civ pre gc gp sat hwf hgc hgp hslot hciv hpre hsc hsp hrc hrp hroom
  have hc : RecordOf p gc sat civ := ⟨hgc, hsc, hrc⟩
  have hp : RecordOf p gp sat pre := ⟨hgp, hsp, hrp⟩
  have hwrite := hp.slotWritten (e := e) hwf hroom fun _ _ => codeLoses_precise hpre
  refine ⟨hwrite.then_loses hc hslot (codeLoses_iff.2 ⟨⟨_, rfl, hpre⟩, hciv⟩), hwrite, ?_⟩
  by_cases hheld : ∃ y c, obsFind d.obs sat = some y ∧ (y.slot gp.slot).code = some c ∧ c.cls = .precise
  · obtain ⟨y, c, hy, hcode, hcls⟩ := hheld
    have hskip : decodeRecord p e d civ = d :=
      decodeRecord_loses hgc hsc hy (codeLoses_iff.2 ⟨⟨c, by rwa [hslot], hcls⟩, hciv⟩)
    obtain ⟨x, hx, hholds, hlli, hhalf⟩ := hwrite
    rw [hskip]
    exact ⟨x, hx, hholds, fun hno => absurd hcls (hno y c hy hcode), fun _ _ _ _ _ => hlli, hhalf⟩
  · have hfirst : SlotWritten p e gc civ _ sat gc.slot (decodeRecord p e d civ) :=
      hc.slotWritten hwf hroom fun y hy => by
        rw [Bool.eq_false_iff, Ne, codeLoses_iff]
        rintro ⟨⟨c, hcode, hcls⟩, _⟩
        exact hheld ⟨y, c, hy, by rwa [← hslot], hcls⟩
    obtain ⟨x, hx, hholds, hlli, hhalf⟩ :=
      hfirst.then_written hp (decodeRecord_halfcWf civ hwf) hslot.symm (codeLoses_precise hpre)
    rw [hslot] at hholds hlli hhalf
    exact ⟨x, hx, hholds, fun _ => hlli, fun y c hy hcode hcls => absurd ⟨y, c, hy, hcode, hcls⟩ hheld, hhalf⟩

end Sys2Proof.Machine

/-! SUPPORT and PROOFS. The epoch and the phase in binary64 (R246–R248, R261): the derived epoch written out, the snap to
the nearest tick with its roundings, and the phase with smoothing off. -/

namespace Sys2Proof.Machine

/-! ### The derived epoch (R246–R248) -/

theorem smoothEpoch_off {t : Time} {frac : Fp} {tadj : F64} (h : fpPositive (fpOfBits tadj) = false) :
    smoothEpoch t frac tadj = .ok ⟨t, frac, .fin false 0⟩ := by
  simp [smoothEpoch, smoothingOn, h]

theorem smoothEpoch_on {t : Time} {frac : Fp} {tadj : F64} (h : fpPositive (fpOfBits tadj) = true) :
    smoothEpoch t frac tadj =
      if fpFinite (smoothOffset t (fpOfBits tadj)) then
        .ok ⟨t - fpRat (smoothOffset t (fpOfBits tadj)), frac, smoothOffset t (fpOfBits tadj)⟩
      else .error .nonFiniteEpoch := by
  simp [smoothEpoch, smoothingOn, h]

/-- The epoch of a finite time of week: snapped, then smoothed. -/
theorem deriveEpoch_finite {week : Nat} {h : RawHeader} {tadj : F64} {tow : Fp}
    (htow : tow = fpAdd (fpOfBits h.tow) (fpOfBits h.gpsutc)) (hfin : fpFinite tow = true)
    (htick : fpFinite (snapTow tow) = true) :
    deriveEpoch week h tadj =
      smoothEpoch (gpsTime week (fpMul (snapTow tow) fpMilli)) (fpSub tow (snapTow tow)) tadj := by
  subst htow
  simp [deriveEpoch, hfin, htick]

/-- `GpsTime` with the seconds of a week as a numeral (D17). -/
theorem gpsTime_eq (week : Nat) (sec : Fp) : gpsTime week sec = 604800 * week + fpRat sec := by
  simp [gpsTime, Config.weekSeconds]

/-- `TimeToTow` with the seconds of a week as a numeral (D17). -/
theorem timeToTow_eq (t : Time) : timeToTow t = fpOfRat (t - 604800 * ⌊t / 604800⌋) := by
  simp only [timeToTow, Config.weekSeconds]
  rfl

/-- Settles O36: the snapped time is `t0`, and the three cases are those of the smoothing. -/
theorem epochIsSnappedThenSmoothed : Obligations.EpochIsSnappedThenSmoothed := by
  intro week h tadj tow tick tn toff t0 htow htick hfin hfin' ht0 htn htoff
  have hsnap : snapTow tow = tick := htick.symm
  have htime : gpsTime week (fpMul tick fpMilli) = t0 := (gpsTime_eq week _).trans ht0.symm
  have hoff : smoothOffset t0 (fpOfBits tadj) = toff := by
    rw [htoff, htn, ← timeToTow_eq]
    rfl
  have hd := deriveEpoch_finite (week := week) (tadj := tadj) htow hfin (by rwa [hsnap])
  rw [hsnap, htime] at hd
  rw [hd]
  refine ⟨smoothEpoch_off, fun hon hf => ?_, fun hon hf => ?_⟩
  · rw [smoothEpoch_on hon, hoff, if_pos hf]
  · rw [smoothEpoch_on hon, hoff, if_neg (by simp [hf])]

/-! ### The phase with smoothing off (R261) -/

theorem FpFormat.value_nonneg {f : FpFormat} {neg a : Bool} {pat : Nat} {m : Rat} (h : f.value neg pat = .fin a m) :
    0 ≤ m := by
  unfold FpFormat.value at h
  dsimp only at h
  split_ifs at h <;> cases h
  · exact mul_nonneg (Nat.cast_nonneg _) (pow2_pos _).le
  · exact mul_nonneg (Nat.cast_nonneg _) (pow2_pos _).le

/-- A nonzero binary64 number is its own rounding. -/
theorem fpOfRat_of_fpOfBits {w : F64} {n : Bool} {m : Rat} (h : fpOfBits w = .fin n m) (hm : m ≠ 0) :
    fpOfRat (signed n m) = .fin n m := by
  have hpos : 0 < m := lt_of_le_of_ne (FpFormat.value_nonneg h) hm.symm
  obtain ⟨hn, hround⟩ := binary64.round_value (binary64.lt_infPattern_of_value_fin (binary64_exponent_le w) h) h
  have hsign : decide (signed n m < 0) = n := by cases n <;> simp [signed, hpos, hpos.le]
  have habs : (if signed n m < 0 then -signed n m else signed n m) = m := by
    cases n <;> simp [signed, hpos, not_lt.2 hpos.le]
  rw [fpOfBits, ← hn] at h
  rw [fpOfRat, hsign, habs, hround, h]

/-- A stored zero reads as a zero of its sign. -/
theorem fpOfBits_zero (raw : F64) (b : Bool) : fpOfBits (fpToBits64 raw (.fin b 0)) = .fin b 0 := by
  cases b <;> simp [fpToBits64, FpFormat.round, signBit, fpOfBits, FpFormat.value, binary64]

/-- `+0.0` times a finite number is a zero. -/
theorem fpMul_zero_finite {x : Fp} (h : fpFinite x = true) : ∃ a, fpMul (.fin false 0) x = .fin a 0 := by
  cases x with
  | nan => cases h
  | inf a => cases h
  | fin a c => exact ⟨a, by simp [fpMul, FpFormat.round, FpFormat.value, binary64]⟩

/-- Settles O43: a zero is subtracted, so a nonzero phase is rounded to itself and stored by its own bits, and a zero one
stays a zero. -/
theorem phaseUnchangedWithoutSmoothing : Obligations.PhaseUnchangedWithoutSmoothing := by
  intro p e g r n m htoff hphase hcar
  obtain ⟨a, ha⟩ := fpMul_zero_finite hcar
  have hsub : fpSub (.fin n m) (.fin a 0) = if signed n m = 0 then .fin (n && !a) 0 else fpOfRat (signed n m) := by
    cases a <;> simp [fpSub, fpNeg, fpAdd, signed]
  have hL : carrierPhase p e g r = fpToBits64 r.phase (fpSub (.fin n m) (.fin a 0)) := by
    rw [carrierPhase, htoff, ha, hphase]
  rw [hL, hsub]
  by_cases hm : m = 0
  · subst hm
    have hz : signed n (0 : Rat) = 0 := by cases n <;> simp [signed]
    rw [if_pos hz, hz]
    exact ⟨_, fpOfBits_zero _ _, by cases n <;> cases a <;> simp [signed]⟩
  · have hne : signed n m ≠ 0 := by cases n <;> simpa [signed] using hm
    have hkeep := storingAReadValueKeepsItsBits r.phase r.phase (by simp [hphase])
    rw [if_neg hne, fpOfRat_of_fpOfBits hphase hm, ← hphase, hkeep, hphase]
    exact ⟨n, rfl, rfl⟩

/-! ### The snap to the nearest tick (R247) -/

/-- The number is finite, its magnitude is not negative, and its value is within `ε` of `v`. -/
def FpWithin (x : Fp) (v ε : Rat) : Prop := ∃ a m, x = .fin a m ∧ 0 ≤ m ∧ |signed a m - v| ≤ ε

/-- A half-integer of at most 53 bits is exact: as `binary64_natCast`, with the quantum at most a half. -/
theorem binary64_half (neg : Bool) {n : Nat} (h : n < 2 ^ 53) :
    binary64.value neg (binary64.round ((n : Rat) / 2)) = .fin neg ((n : Rat) / 2) := by
  rcases Nat.eq_zero_or_pos n with rfl | hn
  · simp [FpFormat.round, FpFormat.value, binary64]
  · have hp : (0 : Rat) < (n : Rat) / 2 := by positivity
    have hb : (n : Rat) / 2 < pow2 52 := by
      have hn' : (n : Rat) < 2 ^ 53 := by exact_mod_cast h
      rw [show pow2 52 = 2 ^ 52 by norm_num [pow2_eq_zpow]]
      linarith
    rw [binary64.value_round neg hp (binary64_below_inf hp (hb.trans (pow2_lt.2 (by norm_num))))]
    have hq : binary64.quantum ((n : Rat) / 2) ≤ -1 := by
      have h1 := pow2_lt.1 (lt_of_le_of_lt (floorLog2_spec hp).1 hb)
      unfold FpFormat.quantum
      simp only [binary64]
      omega
    obtain ⟨d, hd⟩ := Int.eq_ofNat_of_zero_le (a := -1 - binary64.quantum ((n : Rat) / 2)) (by omega)
    have hdiv : (n : Rat) / 2 / pow2 (binary64.quantum ((n : Rat) / 2)) = ((n * 2 ^ d : Nat) : Rat) := by
      have hhalf : pow2 (-1) = 1 / 2 := by norm_num [pow2_eq_zpow]
      rw [div_eq_iff (pow2_pos _).ne', Nat.cast_mul, ← pow2_natCast, mul_assoc, ← pow2_add, ← hd, sub_add_cancel, hhalf]
      ring
    have hN : binary64.quanta ((n : Rat) / 2) = n * 2 ^ d := by
      unfold FpFormat.quanta
      rw [hdiv, roundHalfEven_natCast]
    congr 1
    rw [hN, ← hdiv, div_mul_cancel₀ _ (pow2_pos _).ne']

/-- The rounding error of `v` may be bounded by `ε`: `v` is a half-integer, or `ε` is at least `2^−16`. -/
def RoundsWithin (v ε : Rat) : Prop := 0 ≤ ε ∧ (pow2 (-16) ≤ ε ∨ ∃ k : Int, v = k / 2)

theorem signed_sub_signed (neg : Bool) (m m' : Rat) : |signed neg m' - signed neg m| = |m' - m| := by
  cases neg
  · rfl
  · rw [← abs_neg]
    congr 1
    simp only [signed, if_true]
    ring

/-- A magnitude below `2^38` rounds within the bound of its rounding error. -/
theorem binary64_within (neg : Bool) {m ε : Rat} (h0 : 0 ≤ m) (h : m < pow2 38) (hr : RoundsWithin m ε) :
    FpWithin (binary64.value neg (binary64.round m)) (signed neg m) ε := by
  obtain ⟨hε, hbig | ⟨k, rfl⟩⟩ := hr
  · obtain ⟨m', hv, hm', hnear⟩ := binary64_near neg 38 h0 h (by norm_num) (by norm_num)
    exact ⟨neg, m', hv, hm', (signed_sub_signed neg m m').trans_le (hnear.trans hbig)⟩
  · have hk : 0 ≤ k := by
      have : (0 : Rat) ≤ (k : Rat) := by linarith
      exact_mod_cast this
    obtain ⟨n, rfl⟩ := Int.eq_ofNat_of_zero_le hk
    simp only [Int.cast_natCast] at h0 h ⊢
    have hn : (n : Rat) < 2 ^ 53 := by
      rw [show pow2 38 = 2 ^ 38 by norm_num [pow2_eq_zpow]] at h
      linarith
    exact ⟨neg, _, binary64_half neg (by exact_mod_cast hn), h0, by simpa using hε⟩

/-- The same of an exact number of either sign. -/
theorem fpOfRat_within {v ε : Rat} (h : |v| < pow2 38) (hr : RoundsWithin v ε) : FpWithin (fpOfRat v) v ε := by
  have habs : (if v < 0 then -v else v) = |v| := by
    split_ifs with hv
    · exact (abs_of_neg hv).symm
    · exact (abs_of_nonneg (not_lt.1 hv)).symm
  have hsigned : signed (decide (v < 0)) |v| = v := by
    by_cases hv : v < 0
    · simp [signed, hv, abs_of_neg hv]
    · simp [signed, hv, abs_of_nonneg (not_lt.1 hv)]
  have hr' : RoundsWithin |v| ε := by
    refine ⟨hr.1, hr.2.imp id ?_⟩
    rintro ⟨k, rfl⟩
    exact ⟨|k|, by rw [abs_div, Int.cast_abs, abs_of_pos (two_pos (α := Rat))]⟩
  have hw := binary64_within (decide (v < 0)) (abs_nonneg v) h hr'
  rwa [hsigned, ← habs] at hw

theorem fpTen_eq : fpTen = .fin false 10 := by exact_mod_cast fpOfRat_natCast (n := 10) (by norm_num)

theorem fpHalf_eq : fpHalf = .fin false (1 / 2) := by
  have h := binary64_half false (n := 1) (by norm_num)
  simpa [fpHalf, fpOfRat, show ¬ ((2 : Rat)⁻¹ < 0) by norm_num] using h

/-- Division by ten rounds once. -/
theorem fpDiv_ten_within (neg : Bool) {m ε : Rat} (h0 : 0 ≤ m) (h : m / 10 < pow2 38) (hr : RoundsWithin (m / 10) ε) :
    FpWithin (fpDiv (.fin neg m) fpTen) (signed neg m / 10) ε := by
  have hs : signed neg (m / 10) = signed neg m / 10 := by cases neg <;> simp [signed, neg_div]
  have hdiv : fpDiv (.fin neg m) fpTen = binary64.value neg (binary64.round (m / 10)) := by simp [fpDiv, fpTen_eq]
  rw [hdiv, ← hs]
  exact binary64_within neg (div_nonneg h0 (by norm_num)) h hr

/-- Adding a half rounds once more. -/
theorem fpAdd_half_within {a : Bool} {m ε : Rat} (h : |signed a m + 1 / 2| < pow2 38)
    (hr : RoundsWithin (signed a m + 1 / 2) ε) : FpWithin (fpAdd (.fin a m) fpHalf) (signed a m + 1 / 2) ε := by
  have hadd : fpAdd (.fin a m) fpHalf =
      if signed a m + 1 / 2 = 0 then .fin false 0 else fpOfRat (signed a m + 1 / 2) := by
    simp [fpAdd, fpHalf_eq, signed]
  rw [hadd]
  split_ifs with hz
  · exact ⟨false, 0, rfl, le_refl 0, by rw [hz]; simpa [signed] using hr.1⟩
  · exact fpOfRat_within h hr

/-- The floor is exact. -/
theorem fpFloor_within {x : Fp} {v ε : Rat} {k : Int} (hx : FpWithin x v ε) (hlo : (k : Rat) ≤ v - ε)
    (hhi : v + ε < k + 1) : ∃ a, fpFloor x = .fin a ((k.natAbs : Nat) : Rat) ∧ signed a ((k.natAbs : Nat) : Rat) = k := by
  obtain ⟨a, m, rfl, hm, hv⟩ := hx
  obtain ⟨h1, h2⟩ := abs_le.1 hv
  have hk : (signed a m).floor = k := by
    change ⌊signed a m⌋ = k
    exact Int.floor_eq_iff.2 ⟨by linarith, by linarith⟩
  have habs : (if ((signed a m).floor : Rat) < 0 then -((signed a m).floor : Rat) else ((signed a m).floor : Rat)) =
      ((k.natAbs : Nat) : Rat) := by
    rw [hk, Nat.cast_natAbs, Int.cast_abs]
    split_ifs with hneg
    · exact (abs_of_neg hneg).symm
    · exact (abs_of_nonneg (not_lt.1 hneg)).symm
  refine ⟨a, by simp only [fpFloor, habs], ?_⟩
  rw [Nat.cast_natAbs, Int.cast_abs]
  cases a with
  | false =>
    have : (0 : Rat) ≤ (k : Rat) := by
      rw [← hk]
      exact_mod_cast Int.floor_nonneg.2 hm
    simp [signed, abs_of_nonneg this]
  | true =>
    have : (k : Rat) ≤ 0 := by
      rw [← hk]
      exact (Int.floor_le (signed true m)).trans (by simpa [signed] using hm)
    simp [signed, abs_of_nonpos this]

/-- Ten times a natural number of at most 49 bits is exact. -/
theorem fpMul_ten_natCast (a : Bool) {n : Nat} (h : n < 2 ^ 49) :
    fpMul fpTen (.fin a (n : Rat)) = .fin a ((10 * n : Nat) : Rat) := by
  have hmul : fpMul fpTen (.fin a (n : Rat)) = binary64.value a (binary64.round ((10 * n : Nat) : Rat)) := by
    simp [fpMul, fpTen_eq]
  rw [hmul]
  exact binary64_natCast a (by omega)

/-- The snap of `N` milliseconds, where both roundings stay within `ε` and twice `ε` does not cross the tick's bounds. -/
theorem snapTow_of_roundings {neg : Bool} {n : Nat} {N : Int} {ε : Rat} (hn : n < 2 ^ 40)
    (hN : signed neg (n : Rat) = N) (hε : ε ≤ 1 / 20) (hdiv : RoundsWithin ((n : Rat) / 10) ε)
    (hadd : ∀ v, |v - (N : Rat) / 10| ≤ ε → RoundsWithin (v + 1 / 2) ε)
    (hlo : (((N + 5) / 10 : Int) : Rat) ≤ ((N : Rat) + 5) / 10 - 2 * ε)
    (hhi : ((N : Rat) + 5) / 10 + 2 * ε < (((N + 5) / 10 : Int) : Rat) + 1) :
    ∃ a m, snapTow (.fin neg (n : Rat)) = .fin a m ∧ signed a m = ((10 * ((N + 5) / 10) : Int) : Rat) := by
  have hn' : (n : Rat) < 2 ^ 40 := by exact_mod_cast hn
  have hNabs : |(N : Rat)| < 2 ^ 40 := by
    rw [← hN]
    cases neg <;> simpa [signed] using hn'
  have h38 : pow2 38 = 2 ^ 38 := by norm_num [pow2_eq_zpow]
  obtain ⟨a, m, hq, hm, herr⟩ := fpDiv_ten_within neg (Nat.cast_nonneg n) (by rw [h38]; linarith) hdiv
  rw [hN] at herr
  obtain ⟨hN1, hN2⟩ := abs_lt.1 hNabs
  obtain ⟨he1, he2⟩ := abs_le.1 herr
  have hsum : FpWithin (fpAdd (.fin a m) fpHalf) (((N : Rat) + 5) / 10) (2 * ε) := by
    obtain ⟨a', m', hx, hm', herr'⟩ := fpAdd_half_within
      (by rw [h38, abs_lt]; constructor <;> linarith) (hadd _ herr)
    obtain ⟨he1', he2'⟩ := abs_le.1 herr'
    exact ⟨a', m', hx, hm', abs_le.2 ⟨by linarith, by linarith⟩⟩
  obtain ⟨b, hfloor, hb⟩ := fpFloor_within hsum hlo hhi
  have hK : ((N + 5) / 10).natAbs < 2 ^ 49 := by
    have h1 : -(2 ^ 40 : Int) < N := by exact_mod_cast hN1
    have h2 : N < (2 ^ 40 : Int) := by exact_mod_cast hN2
    omega
  refine ⟨b, _, by rw [snapTow, hq, hfloor, fpMul_ten_natCast b hK], ?_⟩
  have h10 : signed b ((10 * ((N + 5) / 10).natAbs : Nat) : Rat) = 10 * signed b ((((N + 5) / 10).natAbs : Nat) : Rat) := by
    cases b <;> simp [signed]
  rw [h10, hb]
  push_cast
  ring

/-- Settles O37: at a tie both sums are half-integers and so exact; elsewhere the time is at least a tenth of a tick from
the tick's bounds, and the two roundings move it by less. -/
theorem snapGoesToNearestTick : Obligations.SnapGoesToNearestTick := by
  intro neg n hn
  obtain ⟨N, hNdef⟩ : ∃ N : Int, N = if neg then -(n : Int) else (n : Int) := ⟨_, rfl⟩
  have hN : signed neg (n : Rat) = N := by cases neg <;> simp [signed, hNdef]
  rw [← hNdef]
  obtain ⟨K, hK⟩ : ∃ K, K = (N + 5) / 10 := ⟨_, rfl⟩
  by_cases htie : N + 5 = 10 * K
  · have hNr : (N : Rat) + 5 = 10 * K := by exact_mod_cast htie
    have hhalf : ∃ j : Int, (n : Rat) / 10 = j / 2 := by
      have h5 : ∃ j : Int, (n : Int) = 5 * j := by
        cases neg
        · exact ⟨2 * K - 1, by simp at hNdef; omega⟩
        · exact ⟨1 - 2 * K, by simp at hNdef; omega⟩
      obtain ⟨j, hj⟩ := h5
      have hj' : (n : Rat) = 5 * j := by exact_mod_cast hj
      exact ⟨j, by rw [hj']; ring⟩
    refine snapTow_of_roundings (ε := 0) hn hN (by norm_num) ⟨le_refl 0, .inr hhalf⟩ (fun v hv => ?_) ?_ ?_
    · have hv' : v = (N : Rat) / 10 := sub_eq_zero.1 (abs_nonpos_iff.1 hv)
      exact ⟨le_refl 0, .inr ⟨2 * K, by rw [hv']; push_cast; linarith⟩⟩
    · rw [← hK]; linarith
    · rw [← hK]; linarith
  · have hlo : (10 * K + 1 : Rat) ≤ (N : Rat) + 5 := by exact_mod_cast (by omega : 10 * K + 1 ≤ N + 5)
    have hhi : (N : Rat) + 5 ≤ (10 * K + 9 : Rat) := by exact_mod_cast (by omega : N + 5 ≤ 10 * K + 9)
    have hε : pow2 (-16) = 1 / 65536 := by norm_num [pow2_eq_zpow]
    refine snapTow_of_roundings (ε := pow2 (-16)) hn hN (by rw [hε]; norm_num) ⟨(pow2_pos _).le, .inl le_rfl⟩
      (fun v _ => ⟨(pow2_pos _).le, .inl le_rfl⟩) ?_ ?_
    · rw [← hK, hε]; linarith
    · rw [← hK, hε]; linarith

end Sys2Proof.Machine


/-! SUPPORT and PROOFS. What an instruction that answered can have been, and that none writes what the host fixed: the
parameters and the pending operations (R343; logs 1, 9). -/

namespace Sys2Proof.Machine

/-- An instruction that answers a next state: an operation of the host, a transition row that was selected and ran its
body, or a frame row. -/
theorem exec_next_cases {i : Instr} {s t : State} (h : exec i s = .next t) :
    (∃ op : HostOp, i = op.toInstr) ∨ rowBody i s.start = .next t ∨ ∃ k sys, i = frameRow k sys := by
  cases i with
  | byteIn b => exact .inl ⟨.byteIn b, rfl⟩
  | fileStep src => exact .inl ⟨.fileStep src, rfl⟩
  | reset => exact .inl ⟨.reset, rfl⟩
  | configure a x => exact .inl ⟨.configure a x, rfl⟩
  | idleSync | idleOther | hdrNoiseSync | hdrNoiseEnd | hdrType | accSync | accEndToggle1 | accEndToggle0 | accOther
  | accOverflow =>
    have hrow := h
    unfold exec at hrow
    exact .inr (.inl ((exec_of_enabled (onRow_next hrow).1).symm.trans h))
  | raw => exact .inr (.inr ⟨.raw, .gps, rfl⟩)
  | ephGps => exact .inr (.inr ⟨.eph, .gps, rfl⟩)
  | ephGlo => exact .inr (.inr ⟨.eph, .glonass, rfl⟩)
  | bit => exact .inr (.inr ⟨.bit, .gps, rfl⟩)
  | iono => exact .inr (.inr ⟨.iono, .gps, rfl⟩)
  | utc => exact .inr (.inr ⟨.utc, .gps, rfl⟩)
  | pvt => exact .inr (.inr ⟨.pvt, .gps, rfl⟩)
  | alm => exact .inr (.inr ⟨.alm, .gps, rfl⟩)
  | unrecognised => exact .inr (.inr ⟨.unrecognised, .gps, rfl⟩)

/-- What the host fixes, and the block only reads. -/
def State.hostData (s : State) : Params × List HostOp := (s.par, s.input)

theorem State.hostData_eq_iff {s t : State} : t.hostData = s.hostData ↔ t.par = s.par ∧ t.input = s.input :=
  Prod.mk_inj

theorem flipAndStore_hostData (b : Byte) (s : State) : (flipAndStore b s).hostData = s.hostData := by
  rcases flipAndStore_cases b s with ⟨_, e⟩ | ⟨_, _, _, e⟩ <;> rw [e] <;> rfl

theorem syncStep_hostData (b : Byte) (s : State) : (syncStep b s).state.hostData = s.hostData := by
  rw [syncStep_frame]; rfl

theorem dispatch_hostData {s t : State} (h : dispatch s = .next t) : t.hostData = s.hostData := by
  obtain ⟨ty, _, hends⟩ := dispatch_ends h
  rw [hends.frame]; rfl

/-- `BYTE_IN`'s answer to a byte: the body's state with a status, or what the dispatch of it left. -/
theorem syncStep_answer_hostData {b : Byte} {s t : State} (h : (syncStep b s).answer = .next t) :
    t.hostData = s.hostData := by
  rw [← syncStep_hostData b s]
  cases e : syncStep b s with
  | more u => rw [e] at h; cases h; rfl
  | overflow u => rw [e] at h; cases h; rfl
  | done u => rw [e] at h; exact dispatch_hostData h

theorem endOfInput_hostData (s : State) : (endOfInput s).hostData = s.hostData := by
  cases h : s.par.eofDiscardsPartial with
  | false => rw [endOfInput_kept h]; rfl
  | true => rw [endOfInput_dropped h]; rfl

/-- The loop of R181, by induction on the source. -/
theorem fileLoop_hostData {src : List Byte} {idle : Nat} {s t : State} (h : fileLoop src idle s = .next t) :
    t.hostData = s.hostData := by
  induction src generalizing idle s with
  | nil => cases h; exact endOfInput_hostData s
  | cons b rest ih =>
    rcases fileLoop_cons_next h with ⟨v, hv, rfl⟩ | ⟨u, _, hb, hgo, _⟩
    · exact syncStep_answer_hostData (t := v) hv
    · have hu := syncStep_hostData b s
      rw [hb] at hu
      exact (ih hgo).trans hu

theorem exec_hostOp_hostData {op : HostOp} {s t : State} (h : exec op.toInstr s = .next t) :
    t.hostData = s.hostData := by
  cases op with
  | byteIn b => exact syncStep_answer_hostData (s := s.start) h
  | fileStep src => exact fileLoop_hostData (s := s.start) h
  | reset => cases h; rfl
  | configure a x => cases h; rfl

/-- The bodies of the transition rows: only the completing one runs a decoder. -/
theorem rowBody_hostData {i : Instr} {s t : State} (h : rowBody i s = .next t) : t.hostData = s.hostData := by
  cases i with
  | idleSync | idleOther | hdrNoiseSync | hdrNoiseEnd | hdrType | accEndToggle0 | accOther => cases h; rfl
  | accSync => cases h; exact flipAndStore_hostData _ s
  | accOverflow b => cases h; exact flipAndStore_hostData b s
  | accEndToggle1 => exact dispatch_hostData (s := (s.storeByte s.par.endMark).completeFrame) h
  | _ => cases h

/-- Settles O55: the host's operations, the bodies of the transition rows and the decoders of the frame rows write other
fields only. -/
theorem parametersAreFixed : Obligations.ParametersAreFixed := by
  intro i s t h
  rw [← State.hostData_eq_iff]
  rcases exec_next_cases h with ⟨op, rfl⟩ | hbody | ⟨k, sys, rfl⟩
  · exact exec_hostOp_hostData h
  · exact rowBody_hostData (s := s.start) hbody
  · rw [decodersLeaveSynchronizerAlone s t k sys h]; rfl

end Sys2Proof.Machine
